-- ==== Sys2Proof/Word.lean ====
section
/-! DEFINITION. The Word of 10_state.md R21: exactly five characters, each held as its ASCII code in one byte. -/

namespace Sys2Proof

/-- One character, as its character code. Every character of the machine is ASCII, code below 128 (20_memory.md R61). -/
abbrev Byte := BitVec 8

/-- A Word: `c0` is character position 0, the leftmost (00_scope.md R9). -/
structure Word where
  c0 : Byte
  c1 : Byte
  c2 : Byte
  c3 : Byte
  c4 : Byte
  deriving DecidableEq, Repr, Inhabited

/-- The characters of a word, position 0 first. -/
def Word.chars (w : Word) : List Byte := [w.c0, w.c1, w.c2, w.c3, w.c4]

/-- The word with exactly these characters; a text of another length makes no word (10_state.md R21). -/
def Word.ofChars : List Byte → Option Word
  | [a, b, c, d, e] => some ⟨a, b, c, d, e⟩
  | _ => none

/-- The code of a character literal. -/
def charCode (c : Char) : Byte := BitVec.ofNat 8 c.toNat

/-- The word a five-character text literal stands for. A text of another length gives five NUL characters. -/
def word (text : String) : Word :=
  (Word.ofChars (text.toList.map charCode)).getD default

/-- A character is ASCII. -/
abbrev isAscii (b : Byte) : Prop := b.toNat < 128

/-- Every character of the word is ASCII (20_memory.md R61). -/
abbrev Word.Ascii (w : Word) : Prop := ∀ b ∈ w.chars, isAscii b

end Sys2Proof
end

