-- ==== Sys2Proof/Config.lean ====
section
/-! DEFINITION. The implementation parameters of 00_scope.md R7 and the values the spec leaves free. -/

namespace Sys2Proof

/-- Which channel operation leaves its busy bit set: the parameter the spec leaves OPEN (44_channel_io.md R198, D26). -/
inductive StuckBusyOp where
  | none
  | wd
  | pd
  deriving DecidableEq, Repr, Inhabited

/-- The parameters of 00_scope.md R7 that the source does not fix. -/
structure Config where
  /-- `RM_MEM_SIZE`, words of RM memory. -/
  rmMemSize : Nat
  /-- `N_SLOTS`, VM slots. -/
  nSlots : Nat
  /-- `IVT_BASE`, first word of the interrupt-vector table. -/
  ivtBase : Nat
  /-- `PT_BASE`, first word of the page-table region. -/
  ptBase : Nat
  /-- `VM_BASE`, first word of the VM-memory region. -/
  vmBase : Nat
  /-- `RESET_IC`. -/
  resetIc : Nat
  /-- `SAVE_OFF`, window-relative offset of the register save area. -/
  saveOff : Nat
  /-- `TIMER_DEFAULT`. -/
  timerDefault : Nat
  /-- `HALT_PAD`, the characters accepted in the last position of a HALT word. -/
  haltPad : List Byte
  /-- `STUCK_BUSY_OP`. -/
  stuckBusyOp : StuckBusyOp
  deriving DecidableEq, Repr

namespace Config

/-- The constraints of 00_scope.md R8. -/
abbrev Ok (c : Config) : Prop :=
  (1 ≤ c.nSlots ∧ c.nSlots ≤ 10) ∧
  c.ivtBase + 9 < c.rmMemSize ∧
  c.ptBase + 10 * c.nSlots ≤ c.rmMemSize ∧
  c.vmBase + 100 * c.nSlots ≤ c.rmMemSize ∧
  (90 ≤ c.saveOff ∧ c.saveOff ≤ 98) ∧
  c.resetIc < c.rmMemSize ∧
  c.timerDefault ≤ 99999

/-- FREE VALUE (93_implementation_defined.md item 1, entry 3): the busy leak of the machine after reset. -/
opaque freeStuckBusyOp : StuckBusyOp

/-- FREE VALUE (93_implementation_defined.md item 7, entry 2): the character that each place of RM memory the loader
image does not give holds. Seven bits, so it is ASCII whatever it is. -/
opaque freeChar : Nat → BitVec 7

/-- FREE VALUE (entry 5): the word `pad5` writes for a number above 99999, which has no 5-digit text
(00_scope.md R10 defines `pad5` up to 99999 only). -/
opaque freePad5 : Nat → BitVec 35

/-- The ten decimal digit characters, the reference `HALT_PAD`. -/
def digitChars : List Byte := "0123456789".toList.map charCode

/-- The reference configuration of 00_scope.md R7; `STUCK_BUSY_OP` is OPEN there and stays free here. -/
def reference : Config where
  rmMemSize := 1000
  nSlots := 5
  ivtBase := 0
  ptBase := 10
  vmBase := 500
  resetIc := 100
  saveOff := 90
  timerDefault := 50
  haltPad := digitChars
  stuckBusyOp := freeStuckBusyOp

/-- `EXT_LINES`, fixed by the source (00_scope.md R7). -/
abbrev extLines : Nat := 1000

/-- `WIN(n)`, the first word of slot n's window (20_memory.md R66). -/
def win (c : Config) (n : Nat) : Nat := c.vmBase + 100 * n

/-- `PTB(n)`, the first word of slot n's page table (20_memory.md R69). -/
def ptb (c : Config) (n : Nat) : Nat := c.ptBase + 10 * n

end Config
end Sys2Proof
end

