-- ==== Sys2Proof/Machine/Numbers.lean ====
section
/-! DEFINITION. Words as numbers and numbers as words (00_scope.md R10): `isnum`, `num`, `pad5`, `pad2`, `digit`. -/

namespace Sys2Proof.Machine

open Sys2Proof

/-- The character is a decimal digit '0'..'9'. -/
def isDigit (b : Byte) : Bool := decide (48 ≤ b.toNat) && decide (b.toNat ≤ 57)

/-- The value of a digit character. -/
def digitVal (b : Byte) : Nat := b.toNat - 48

/-- `digit(d)`: the character of a digit 0..9 (00_scope.md R10). -/
def digitChar (d : Nat) : Byte := BitVec.ofNat 8 (48 + d)

/-- `num` of a digit string, most significant digit first (00_scope.md R10). -/
def numChars (cs : List Byte) : Nat := cs.foldl (fun v b => 10 * v + digitVal b) 0

/-- `isnum(w)`: all five characters are digits (00_scope.md R10). -/
def isnum (w : Word) : Bool := w.chars.all isDigit

/-- `num(w)` (00_scope.md R10). -/
def num (w : Word) : Nat := numChars w.chars

/-- The word made of the free seven-bit characters that `Config.freePad5` gives. -/
def freeWord (v : Nat) : Word :=
  let f := Config.freePad5 v
  ⟨(f.extractLsb' 0 7).setWidth 8, (f.extractLsb' 7 7).setWidth 8, (f.extractLsb' 14 7).setWidth 8,
   (f.extractLsb' 21 7).setWidth 8, (f.extractLsb' 28 7).setWidth 8⟩

/-- `pad5(v)`: the 5-digit text of `v` (00_scope.md R10). Above 99999 there is no such text and the word is a FREE
VALUE (entry 5). -/
def pad5 (v : Nat) : Word :=
  if v ≤ 99999 then
    ⟨digitChar (v / 10000), digitChar (v / 1000 % 10), digitChar (v / 100 % 10), digitChar (v / 10 % 10),
     digitChar (v % 10)⟩
  else freeWord v

/-- The tens character of `pad2(v)` for v at most 99 (00_scope.md R10). -/
def pad2Tens (v : Nat) : Byte := digitChar (v / 10)

/-- The units character of `pad2(v)` for v at most 99 (00_scope.md R10). -/
def pad2Units (v : Nat) : Byte := digitChar (v % 10)

end Sys2Proof.Machine
end

