-- ==== Sys2Proof/Machine/State.lean ====
section
/-! DEFINITION. The state of 10_state.md R20 as plain data, the reasons a step stops, and the state after reset (R47). -/

namespace Sys2Proof.Machine

open Sys2Proof

/-- Program-fault causes (00_scope.md R13, 60_exceptions.md R251 to R253). -/
inductive ProgramFault where
  | invAddress
  | invOp
  | overflow
  deriving DecidableEq, Repr

/-- Super-interrupt (trap) causes (10_state.md R34). -/
inductive Trap where
  | gd
  | pd
  | rd
  | wd
  | sd
  | halt
  deriving DecidableEq, Repr

/-- The three channels, in the bit order of IOI and BUSY (10_state.md R35). -/
inductive Channel where
  | keyboard
  | screen
  | external
  deriving DecidableEq, Repr

/-- The tri-state comparison register C (10_state.md R26). -/
inductive Cmp where
  | equal
  | less
  | more
  deriving DecidableEq, Repr

/-- MODE (10_state.md R37). -/
inductive Mode where
  | supervisor
  | user
  deriving DecidableEq, Repr

/-- SVC, the cause in service (10_state.md R39). -/
inductive Service where
  | none
  | pi
  | timer
  | io (ch : Channel)
  deriving DecidableEq, Repr

/-- The fatal reasons of 60_exceptions.md R254. -/
inductive FatalReason where
  | unhandledCommand
  | argumentError
  | supervisorFault (f : ProgramFault)
  | nonNumeric
  | badSaveArea
  | saveIcRange
  | badPageTable
  | badVector
  | extRange
  deriving DecidableEq, Repr

/-- RUN (10_state.md R40). -/
inductive RunState where
  | running
  | halted
  | fatal (r : FatalReason)
  deriving DecidableEq, Repr

/-- The three execution registers of a context (10_state.md R23, R27). -/
structure Bank where
  tmp : Word
  ic : Nat
  c : Cmp
  deriving DecidableEq, Repr

/-- Words stored as one cell per character (entry 1): character p of word a has the key 5a + p. Canonical form: keys
strictly rising. -/
abbrev Memory := List Host.Cell

/-- Why a step has no successor state. Each is safe: the model stops where the spec has no next state, or in a state
no run reaches. -/
inductive Fault where
  /-- `stall` (00_scope.md R13, 40_cycle.md R133): a GD, PD, RD or WD, run by the RM or by a trap service, found its
  channel's BUSY bit set. Safe: the spec has no successor state here. -/
  | stalled (ch : Channel)
  /-- The host's `stopped` (70_reset_and_hazards.md R313): a step was asked for while RUN is not RUNNING (40_cycle.md
  R121). Safe: no step is taken. -/
  | stopped
  /-- A step, or a meaning, at a state no run reaches (entry 8): USER mode without an allocated current VM, or a trap
  cause in SI while the word at V(n).IC is no channel instruction. Safe: the spec's invariants exclude it. -/
  | inconsistent
  deriving DecidableEq, Repr

/-- Why the model gives no meaning. -/
inductive Refusal where
  /-- An instruction without a meaning, raised by `exec`'s arm for it. Safe. No arm is left in this state. -/
  | notModelled (mnemonic : String)
  /-- Raised by a step or by the host's reset: the configuration breaks 00_scope.md R8 (93_implementation_defined.md
  item 11). Safe. -/
  | badConfiguration
  /-- Raised by the host's reset: an image longer than RM_MEM_SIZE or with a text that is no Word
  (70_reset_and_hazards.md R301), or a persisted EXT that is not 1000 lines of 10 Words (R302). Safe. -/
  | badImage
  /-- Raised by the host's setKeyboard: the text is no Word (70_reset_and_hazards.md R313). Safe. -/
  | badKeyboardWord
  deriving DecidableEq, Repr

/-- The core's state (10_state.md R20). -/
structure State where
  /-- The configuration of 00_scope.md R7: the model's own field, which no step changes (entry 4). -/
  cfg : Config
  /-- `M`, RM memory (10_state.md R22). -/
  mem : Memory
  /-- `RM.TMP`, `RM.IC`, `RM.C` (10_state.md R24 to R26). -/
  rm : Bank
  /-- `PTR` (10_state.md R32). -/
  ptr : Nat
  /-- `PI`; `none` is NONE (10_state.md R33). -/
  pi : Option ProgramFault
  /-- `SI`; `none` is NONE (10_state.md R34). -/
  si : Option Trap
  /-- `IOI` (10_state.md R35). -/
  ioi : BitVec 3
  /-- `TI` (10_state.md R36). -/
  ti : Nat
  /-- `MODE` (10_state.md R37). -/
  mode : Mode
  /-- `BUSY` (10_state.md R38). -/
  busy : BitVec 3
  /-- `SLOT`; `none` is an empty slot (10_state.md R27). Slots N_SLOTS and above are never used. -/
  slots : Vector (Option Bank) 10
  /-- `CUR` (10_state.md R30). -/
  cur : Option Nat
  /-- `LAST_SLOT` (10_state.md R31). -/
  lastSlot : Option Nat
  /-- `SVC` (10_state.md R39). -/
  svc : Service
  /-- `RUN` (10_state.md R40). -/
  run : RunState
  /-- `KBD` (10_state.md R41). -/
  kbd : Option Word
  /-- `SCR` (10_state.md R42). -/
  scr : Option Word
  /-- `EXT` (10_state.md R43): word i of line p is word 10p + i of this memory. -/
  ext : Memory
  /-- `EXT_PTR` (10_state.md R44). -/
  extPtr : Nat
  deriving DecidableEq, Repr

/-- The bank of the RM after reset and of a VM just allocated, but for IC (10_state.md R29, R47). -/
def Bank.fresh (ic : Nat) : Bank := ⟨word "00000", ic, .equal⟩

/-- The machine right after reset with the configuration `cfg`, no image and the external memory `ext` (10_state.md
R47). PTR, which the spec leaves unspecified, is PT_BASE (entry 6). -/
def State.resetOf (cfg : Config) (ext : Memory) : State where
  cfg := cfg
  mem := []
  rm := Bank.fresh cfg.resetIc
  ptr := cfg.ptBase
  pi := none
  si := none
  ioi := 0
  ti := cfg.timerDefault
  mode := .supervisor
  busy := 0
  slots := Vector.replicate 10 none
  cur := none
  lastSlot := none
  svc := .none
  run := .running
  kbd := none
  scr := none
  ext := ext
  extPtr := 0

/-- The machine right after reset: the reference configuration, EXT as before first use (10_state.md R43, entry 12). -/
def State.reset : State := State.resetOf Config.reference []

end Sys2Proof.Machine
end

