-- ==== Sys2Proof/Machine/Ops.lean ====
section
/-! DEFINITION. The named operations over memory, registers and channels, taking an exception and returning from one. -/

namespace Sys2Proof.Machine

open Sys2Proof

/-! ## Character cells -/

/-- The character stored under key `k`, if any. -/
def Memory.get? : Memory → Nat → Option Byte
  | [], _ => none
  | (a, b) :: m, k => if a = k then some b else Memory.get? m k

/-- Store a character under key `k`, keeping keys rising. -/
def Memory.put : Memory → Nat → Byte → Memory
  | [], k, b => [(k, b)]
  | (a, c) :: m, k, b =>
    if k < a then (k, b) :: (a, c) :: m
    else if k = a then (k, b) :: m
    else (a, c) :: Memory.put m k b

/-- Remove what is stored under key `k`. -/
def Memory.del : Memory → Nat → Memory
  | [], _ => []
  | (a, c) :: m, k => if a = k then Memory.del m k else (a, c) :: Memory.del m k

/-- What a character of M that nothing wrote and no image gave reads as: a FREE VALUE (entry 2). -/
def unlistedByte (k : Nat) : Byte := (Config.freeChar k).setWidth 8

/-- The character '0', which every character of EXT holds before first use (10_state.md R43). -/
def zeroChar : Byte := charCode '0'

/-- The character of M under key `k`. -/
def Memory.byte (m : Memory) (k : Nat) : Byte := (m.get? k).getD (unlistedByte k)

/-- The character of EXT under key `k`. -/
def Memory.extByte (m : Memory) (k : Nat) : Byte := (m.get? k).getD zeroChar

/-- Store a character of EXT: '0' is what an unlisted key reads as, so it is not listed. -/
def Memory.extPut (m : Memory) (k : Nat) (b : Byte) : Memory := if b = zeroChar then m.del k else m.put k b

/-- The canonical form of every memory: keys strictly rising. -/
abbrev Memory.Sorted (m : Memory) : Prop := m.Pairwise (fun p q => p.1 < q.1)

/-- RM memory of `size` words is in canonical form, within its index domain and ASCII (10_state.md R21, R22). An
unlisted character reads as a free value, which no stored one can be compared with, so none is left out. -/
abbrev Memory.wf (size : Nat) (m : Memory) : Prop :=
  m.Sorted ∧ ∀ c ∈ m, c.1 < 5 * size ∧ isAscii c.2

/-- External memory is in canonical form: as `Memory.wf`, and no entry is the '0' an unlisted one reads as. -/
abbrev Memory.wfExt (m : Memory) : Prop :=
  m.wf (10 * Config.extLines) ∧ ∀ c ∈ m, c.2 ≠ zeroChar

/-! ## Words of M and of EXT -/

/-- Word `a` of a memory whose characters `byte` reads: position p under key 5a + p (20_memory.md R62, entry 1). -/
def readWord (byte : Nat → Byte) (a : Nat) : Word :=
  ⟨byte (5 * a), byte (5 * a + 1), byte (5 * a + 2), byte (5 * a + 3), byte (5 * a + 4)⟩

/-- Store word `w` as word `a`, a character at a time through `put`. -/
def writeWord (put : Memory → Nat → Byte → Memory) (m : Memory) (a : Nat) (w : Word) : Memory :=
  put (put (put (put (put m (5 * a) w.c0) (5 * a + 1) w.c1) (5 * a + 2) w.c2) (5 * a + 3) w.c3) (5 * a + 4) w.c4

/-- `M[a]` (00_scope.md R12), the bounds left to the caller. -/
def State.readM (s : State) (a : Nat) : Word := readWord s.mem.byte a

/-- `M[a] <- w` (00_scope.md R12), the bounds left to the caller. -/
def State.writeM (s : State) (a : Nat) (w : Word) : State := { s with mem := writeWord Memory.put s.mem a w }

/-- Address `a` is inside RM memory (20_memory.md R63). -/
abbrev State.inM (s : State) (a : Nat) : Prop := a < s.cfg.rmMemSize

/-- `MemRead(a, n)`: checked as a whole (20_memory.md R64); `none` is `Fault(INV_ADDRESS)`. -/
def State.memRead (s : State) (a n : Nat) : Option (List Word) :=
  if n = 0 ∨ a + n ≤ s.cfg.rmMemSize then some ((List.range n).map fun i => s.readM (a + i)) else none

/-- `MemWrite(a, n, vs)`: word by word, upwards (20_memory.md R65). The flag is false if it ran out of M, and the words
before that stay written. -/
def State.memWrite (s : State) (a : Nat) : List Word → State × Bool
  | [] => (s, true)
  | w :: ws => if a < s.cfg.rmMemSize then (s.writeM a w).memWrite (a + 1) ws else (s, false)

/-- Write the words one after another from `a` upwards, where the configuration keeps them inside M (00_scope.md R8). -/
def State.writeWords (s : State) (a : Nat) : List Word → State
  | [] => s
  | w :: ws => (s.writeM a w).writeWords (a + 1) ws

/-- `EXT[p][i]` (20_memory.md R80). -/
def State.readExt (s : State) (p i : Nat) : Word := readWord s.ext.extByte (10 * p + i)

/-- Line `p` of EXT, its ten words in order. -/
def State.extLine (s : State) (p : Nat) : List Word := (List.range 10).map fun i => s.readExt p i

/-- Store the words one after another from word `i` of EXT upwards. -/
def Memory.writeExtWords (m : Memory) (i : Nat) : List Word → Memory
  | [] => m
  | w :: ws => (writeWord Memory.extPut m i w).writeExtWords (i + 1) ws

/-- `EXT[p] <- vs`, the whole line (44_channel_io.md R195). -/
def State.writeExtLine (s : State) (p : Nat) (vs : List Word) : State :=
  { s with ext := s.ext.writeExtWords (10 * p) vs }

/-! ## Registers -/

/-- `SLOT[n]`: its bank, or `none` when it is empty (10_state.md R27). -/
def State.slot (s : State) (n : Nat) : Option Bank := if h : n < 10 then s.slots[n] else none

/-- `SLOT[n] <- b`. -/
def State.setSlot (s : State) (n : Nat) (b : Option Bank) : State :=
  { s with slots := s.slots.setIfInBounds n b }

/-- The executing context of an instruction (40_cycle.md R122). -/
inductive Ctx where
  | rm
  | vm (n : Nat)
  deriving DecidableEq, Repr

/-- The registers IC, TMP and C of a context become `b` (00_scope.md R11). -/
def State.setBank (s : State) : Ctx → Bank → State
  | .rm, b => { s with rm := b }
  | .vm n, b => s.setSlot n (some b)

/-- `IC <- IC + 1` on a bank (40_cycle.md R128). -/
def Bank.advance (b : Bank) : Bank := { b with ic := b.ic + 1 }

/-- `RM.IC <- RM.IC + 1`. -/
def State.advanceRm (s : State) : State := { s with rm := s.rm.advance }

/-! ## Channels -/

/-- The channel's bit number in IOI and BUSY (10_state.md R35). -/
def Channel.index : Channel → Nat
  | .keyboard => 0
  | .screen => 1
  | .external => 2

/-- The mask with the channel's bit alone. -/
def Channel.mask (ch : Channel) : BitVec 3 := BitVec.twoPow 3 ch.index

/-- The channel's bit of a channel bitmask. -/
def bitOf (m : BitVec 3) (ch : Channel) : Bool := m.getLsbD ch.index

/-- `BUSY[ch] <- 1` (44_channel_io.md R191). -/
def State.markBusy (s : State) (ch : Channel) : State := { s with busy := s.busy ||| ch.mask }

/-- `BUSY[ch] <- 0`. -/
def State.clearBusy (s : State) (ch : Channel) : State := { s with busy := s.busy &&& ~~~ ch.mask }

/-- `IOI[ch] <- 1` (44_channel_io.md R197). -/
def State.raiseIo (s : State) (ch : Channel) : State := { s with ioi := s.ioi ||| ch.mask }

/-- `IOI[ch] <- 0` (45_system.md R225). -/
def State.clearIo (s : State) (ch : Channel) : State := { s with ioi := s.ioi &&& ~~~ ch.mask }

/-- The end of a channel operation (44_channel_io.md R191): the busy bit is cleared unless it leaks (R198), and the
channel's I/O interrupt is raised. -/
def State.completeIo (s : State) (ch : Channel) (leaks : Bool) : State :=
  { s with busy := if leaks then s.busy else s.busy &&& ~~~ ch.mask }.raiseIo ch

/-! ## Outcomes of a rule (00_scope.md R13) -/

/-- How the performance of a rule ends. Each state is what the rule has written by then. -/
inductive Effect where
  /-- The rule ran to its end. -/
  | done (s : State)
  /-- `raise Fault(f)`. -/
  | raised (f : ProgramFault) (s : State)
  /-- `fatal(r)`. -/
  | fatal (r : FatalReason) (s : State)
  /-- No successor state. -/
  | stuck (f : Fault)
  deriving DecidableEq, Repr

/-- One rule after another: the second runs only if the first ran to its end. -/
def Effect.andThen : Effect → (State → Effect) → Effect
  | .done s, k => k s
  | .raised f s, _ => .raised f s
  | .fatal r s, _ => .fatal r s
  | .stuck f, _ => .stuck f

/-- What a step answers. -/
abbrev Result := Host.Outcome State Fault Refusal

/-- `fatal(r)`: `RUN <- FATAL(r)` (00_scope.md R13). -/
def State.fatal (s : State) (r : FatalReason) : State := { s with run := .fatal r }

/-- `SupervisorFault(f)` (40_cycle.md R124): PI holds the cause and the core stops. -/
def State.supervisorFault (s : State) (f : ProgramFault) : State := { s with pi := some f, run := .fatal (.supervisorFault f) }

/-- `PI <- f`, what a program fault of a VM's instruction does before the dispatch (40_cycle.md R125). -/
def State.vmFault (s : State) (f : ProgramFault) : State := { s with pi := some f }

/-- The end of an instruction in the RM context (40_cycle.md R123, R124). -/
def Effect.inRm : Effect → Result
  | .done s => .next s
  | .raised f s => .next (s.supervisorFault f)
  | .fatal r s => .next (s.fatal r)
  | .stuck f => .fault f

/-- The end of an instruction in a VM context, before the tick and the dispatch (40_cycle.md R125). -/
def Effect.inVm : Effect → Result
  | .done s => .next s
  | .raised f s => .next (s.vmFault f)
  | .fatal r s => .next (s.fatal r)
  | .stuck f => .fault f

/-! ## Saving and restoring a VM's registers -/

/-- The save-area code of C (45_system.md R228, D7). -/
def Cmp.code : Cmp → Nat
  | .equal => 0
  | .less => 1
  | .more => 2

/-- The value of C with a given save-area code. -/
def Cmp.ofCode : Nat → Option Cmp
  | 0 => some .equal
  | 1 => some .less
  | 2 => some .more
  | _ => none

/-- Word `w1` of the save area: IC in two digits, the code of C, and "00" (45_system.md R228). -/
def saveWord (b : Bank) : Word := ⟨pad2Tens b.ic, pad2Units b.ic, digitChar b.c.code, zeroChar, zeroChar⟩

/-- The first word of slot n's save area. -/
def State.saveAddr (s : State) (n : Nat) : Nat := s.cfg.win n + s.cfg.saveOff

/-- `SaveRegs(n)` (45_system.md R228). -/
def State.saveRegs (s : State) (n : Nat) : Effect :=
  match s.slot n with
  | none => .stuck .inconsistent
  | some b =>
    if b.ic > 99 then .fatal .saveIcRange s
    else .done ((s.writeM (s.saveAddr n) b.tmp).writeM (s.saveAddr n + 1) (saveWord b))

/-- The bank the two words of a save area hold (45_system.md R229); `none` is a malformed area. -/
def bankOfSave (w0 w1 : Word) : Option Bank :=
  if isDigit w1.c0 && isDigit w1.c1 && isDigit w1.c2 then
    (Cmp.ofCode (digitVal w1.c2)).map fun c => ⟨w0, numChars [w1.c0, w1.c1], c⟩
  else none

/-- `RestoreRegs(n)` (45_system.md R229). -/
def State.restoreRegs (s : State) (n : Nat) : Effect :=
  match bankOfSave (s.readM (s.saveAddr n)) (s.readM (s.saveAddr n + 1)) with
  | none => .fatal .badSaveArea s
  | some b => .done (s.setSlot n (some b))

/-! ## Taking an exception and returning from one -/

/-- The state of a suspended VM's machine: what `EnterHandler` writes after the register save and before it reads the
vector (60_exceptions.md R261). -/
def State.suspend (s : State) (n : Nat) (cause : Service) : State :=
  { s with mode := .supervisor, lastSlot := some n, cur := none, svc := cause }

/-- The handler's address is vector `v`, an address of M, or the core stops (60_exceptions.md R261). DESIGN CHOICE (entry
21): a vector word the image leaves unset is a free word like any other, put to the same two tests. -/
def State.jumpToVector (s : State) (v : Nat) : Effect :=
  let h := s.readM (s.cfg.ivtBase + v)
  if isnum h = true ∧ num h < s.cfg.rmMemSize then .done { s with rm := { s.rm with ic := num h } }
  else .fatal .badVector s

/-- `EnterHandler(v, cause)` (60_exceptions.md R261): taking a program, timer or I/O interrupt. DESIGN CHOICE (entry 22):
the register save overwrites what the VM itself wrote to its save area. -/
def State.enterHandler (s : State) (v : Nat) (cause : Service) : Effect :=
  match s.cur with
  | none => .stuck .inconsistent
  | some n => (s.saveRegs n).andThen fun s1 => (s1.suspend n cause).jumpToVector v

/-- The cause register that resuming clears (45_system.md R225, D23). -/
def State.clearServiced (s : State) : State :=
  match s.svc with
  | .pi => { s with pi := none }
  | .io ch => s.clearIo ch
  | .timer => s
  | .none => s

/-- `Enter(n)` (45_system.md R225): the return from a handler and the start of a VM. -/
def State.enter (s : State) (n : Nat) : State :=
  let s1 := { s with mode := .user, ti := s.cfg.timerDefault, ptr := s.cfg.ptb n, cur := some n }
  { s1.clearServiced with svc := .none }.advanceRm

end Sys2Proof.Machine
end

