-- ==== Sys2Proof/Machine/Operands.lean ====
section
/-! DEFINITION. Operands in their context: the argument, the memory and the size of the executing context, and the
frame every direct opcode shares (40_cycle.md R125, R131, R132). -/

namespace Sys2Proof.Machine

open Sys2Proof

/-- `argument = x*100 + y*10 + z` (30_encoding.md R94). -/
def argument (x y z : Nat) : Nat := x * 100 + y * 10 + z

/-- `SIZE_ctx`: words of the executing context's memory (40_cycle.md R131, 20_memory.md R67). -/
def State.sizeCtx (s : State) : Ctx → Nat
  | .rm => s.cfg.rmMemSize
  | .vm _ => 100

/-- The absolute address of word `a` of the context's memory: itself in the RM, in the window of a VM (20_memory.md R66). -/
def State.absCtx (s : State) : Ctx → Nat → Nat
  | .rm, a => a
  | .vm n, a => s.cfg.win n + a

/-- `Mem_ctx(a)` (00_scope.md R12); `none` is `Fault(INV_ADDRESS)`. -/
def State.readCtx (s : State) (ctx : Ctx) (a : Nat) : Option Word :=
  if a < s.sizeCtx ctx then some (s.readM (s.absCtx ctx a)) else none

/-- The rule of a direct opcode: from the context, its registers, the argument and the state. -/
abbrev DirectRule := Ctx → Bank → Nat → State → Effect

/-- The VM part of a step for an opcode that may run there: the current VM's slot and registers (40_cycle.md R125). -/
def State.withVm (s : State) (k : Nat → Bank → Result) : Result :=
  match s.cur with
  | none => .fault .inconsistent
  | some n =>
    match s.slot n with
    | none => .fault .inconsistent
    | some b => k n b

/-- A direct opcode in the executing context (40_cycle.md R123, R125, R132): in a VM the hundreds digit is checked
first. -/
def State.direct (s : State) (x y z : Nat) (rule : DirectRule) : Result :=
  match s.mode with
  | .supervisor => (rule .rm s.rm (argument x y z) s).inRm
  | .user => s.withVm fun n b =>
    if x ≠ 0 then .next (s.vmFault .invAddress) else (rule (.vm n) b (argument x y z) s).inVm

/-- An opcode that traps in a VM (40_cycle.md R125): the hundreds check, then `SI <- op`. -/
def State.trapOr (s : State) (op : Trap) (x : Nat) (inRm : Result) : Result :=
  match s.mode with
  | .supervisor => inRm
  | .user => if x ≠ 0 then .next (s.vmFault .invAddress) else .next { s with si := some op }

/-- An opcode of Format A that a VM cannot run (40_cycle.md R125, R127): the hundreds check, then fatal. -/
def State.supervisorOnlyA (s : State) (x : Nat) (inRm : Result) : Result :=
  match s.mode with
  | .supervisor => inRm
  | .user => if x ≠ 0 then .next (s.vmFault .invAddress) else .next (s.fatal .unhandledCommand)

/-- An opcode of Format B in a VM: fatal whatever its digit (40_cycle.md R127). -/
def State.supervisorOnlyB (s : State) (inRm : Result) : Result :=
  match s.mode with
  | .supervisor => inRm
  | .user => .next (s.fatal .unhandledCommand)

end Sys2Proof.Machine
end

