-- ==== Sys2Proof/Machine/Flags.lean ====
section
/-! DEFINITION. The one flag of the machine: C, the result of a lexicographic compare (42_alu.md R156). -/

namespace Sys2Proof.Machine

open Sys2Proof

/-- `<lex`: decided at the first position where the texts differ, by character code (42_alu.md R156, D38, entry 15). -/
def lexLess : List Byte → List Byte → Bool
  | a :: as, b :: bs => if a = b then lexLess as bs else decide (a.toNat < b.toNat)
  | _, _ => false

/-- The value CP gives C (42_alu.md R156). -/
def compareWords (tmp m : Word) : Cmp :=
  if tmp = m then .equal else if lexLess tmp.chars m.chars then .less else .more

end Sys2Proof.Machine
end

