-- ==== Sys2Proof/Machine/Alu.lean ====
section
/-! DEFINITION. AD, SB, ML, MD, DV and CP (42_alu.md R150 to R156). -/

namespace Sys2Proof.Machine

open Sys2Proof

/-- The five operations of 42_alu.md R150. -/
inductive ArithOp where
  | add
  | sub
  | mul
  | rem
  | div
  deriving DecidableEq, Repr

/-- The exact integer result (42_alu.md R150, D15). -/
def ArithOp.apply : ArithOp → Nat → Nat → Int
  | .add, t, m => t + m
  | .sub, t, m => t - m
  | .mul, t, m => t * m
  | .rem, t, m => ((t % m : Nat) : Int)
  | .div, t, m => ((t / m : Nat) : Int)

/-- The operation divides, so a zero operand overflows (42_alu.md R150, D14). -/
def ArithOp.divides : ArithOp → Bool
  | .rem => true
  | .div => true
  | _ => false

/-- `Arith(op, a)` (42_alu.md R150): operand bound, division by zero, numeric form, result range, in this order. -/
def arith (op : ArithOp) : DirectRule := fun ctx b a s =>
  match s.readCtx ctx a with
  | none => .raised .invAddress s
  | some m =>
    if op.divides && decide (m = word "00000") then .raised .overflow s
    else if !(isnum b.tmp && isnum m) then .fatal .nonNumeric s
    else
      let r := op.apply (num b.tmp) (num m)
      if 99999 < r then .raised .overflow s
      else if r < 0 then .raised .overflow s
      else .done (s.setBank ctx { b.advance with tmp := pad5 r.toNat })

/-- 42_alu.md R156: compare the accumulator with memory. -/
def compareTmp : DirectRule := fun ctx b a s =>
  match s.readCtx ctx a with
  | none => .raised .invAddress s
  | some m => .done (s.setBank ctx { b.advance with c := compareWords b.tmp m })

/-- AD (R151). -/
def execAd (x y z : Nat) (s : State) : Result := s.direct x y z (arith .add)

/-- SB (R152). -/
def execSb (x y z : Nat) (s : State) : Result := s.direct x y z (arith .sub)

/-- ML (R153). -/
def execMl (x y z : Nat) (s : State) : Result := s.direct x y z (arith .mul)

/-- MD (R154). -/
def execMd (x y z : Nat) (s : State) : Result := s.direct x y z (arith .rem)

/-- DV (R155). -/
def execDv (x y z : Nat) (s : State) : Result := s.direct x y z (arith .div)

/-- CP (R156). -/
def execCp (x y z : Nat) (s : State) : Result := s.direct x y z compareTmp

end Sys2Proof.Machine
end

