-- ==== Sys2Proof/Syntax.lean ====
section
/-! DEFINITION. The 23 opcodes of 30_encoding.md R99 as decoded commands: an opcode and its digits. -/

namespace Sys2Proof

/-- A decoded command (00_scope.md R14), one constructor per row of spec/opcode_table.json, in the order of
30_encoding.md R99. Format A commands hold the digits `x y z`, Format B commands the slot digit `n` (R98); the pad of
a HALT word is ignored and not kept (R93). -/
inductive Instr where
  | cr (x y z : Nat)
  | cm (x y z : Nat)
  | ad (x y z : Nat)
  | sb (x y z : Nat)
  | ml (x y z : Nat)
  | md (x y z : Nat)
  | dv (x y z : Nat)
  | cp (x y z : Nat)
  | jp (x y z : Nat)
  | je (x y z : Nat)
  | jl (x y z : Nat)
  | jm (x y z : Nat)
  | halt
  | gd (x y z : Nat)
  | pd (x y z : Nat)
  | rd (x y z : Nat)
  | wd (x y z : Nat)
  | sd (x y z : Nat)
  | gt (x y z : Nat)
  | pt (x y z : Nat)
  | stvm (n : Nat)
  | svrg (n : Nat)
  | ldrg (n : Nat)
  deriving DecidableEq, Repr

end Sys2Proof
end

