-- ==== Sys2Proof/Machine/ChannelIo.lean ====
section
/-! DEFINITION. GD, PD, RD, WD and SD (44_channel_io.md R192 to R196). -/

namespace Sys2Proof.Machine

open Sys2Proof

/-- The RM rule of a channel opcode, less its IC advance: from the absolute address or pointer and the state. The
trap service performs the same rule (60_exceptions.md R258). -/
abbrev ChannelRule := Nat → State → Effect

/-- Every channel operation but SD first looks at its BUSY bit (44_channel_io.md R191, R199). -/
def State.unlessBusy (s : State) (ch : Channel) (k : Effect) : Effect :=
  if bitOf s.busy ch then .stuck (.stalled ch) else k

/-- GD consumes the pending keyboard word into `M[a]`, if there is one (44_channel_io.md R192). -/
def State.takeKeyboard (s : State) (a : Nat) : State :=
  match s.kbd with
  | none => s
  | some w => { s.writeM a w with kbd := none }

/-- 44_channel_io.md R192: keyboard word to memory. -/
def gdRule : ChannelRule := fun a s =>
  s.unlessBusy .keyboard <|
    if s.cfg.rmMemSize ≤ a then .raised .invAddress s
    else .done (((s.markBusy .keyboard).takeKeyboard a).completeIo .keyboard false)

/-- 44_channel_io.md R193: memory word to the screen. -/
def pdRule : ChannelRule := fun a s =>
  s.unlessBusy .screen <|
    if s.cfg.rmMemSize ≤ a then .raised .invAddress s
    else
      let s1 := { s.markBusy .screen with scr := some (s.readM a) }
      .done (s1.completeIo .screen (decide (s.cfg.stuckBusyOp = .pd)))

/-- 44_channel_io.md R194: an external line to memory, word by word; a bound failure keeps the words before it. -/
def rdRule : ChannelRule := fun a s =>
  s.unlessBusy .external <|
    if Config.extLines ≤ s.extPtr then .fatal .extRange s
    else
      match (s.markBusy .external).memWrite a (s.extLine s.extPtr) with
      | (s1, true) => .done (s1.completeIo .external false)
      | (s1, false) => .raised .invAddress (s1.clearBusy .external)

/-- 44_channel_io.md R195: ten memory words to an external line, checked as a whole. -/
def wdRule : ChannelRule := fun a s =>
  s.unlessBusy .external <|
    if Config.extLines ≤ s.extPtr then .fatal .extRange s
    else
      match s.memRead a 10 with
      | none => .raised .invAddress s
      | some vs =>
        .done (((s.markBusy .external).writeExtLine s.extPtr vs).completeIo .external
          (decide (s.cfg.stuckBusyOp = .wd)))

/-- 44_channel_io.md R196: set the external pointer. -/
def sdRule : ChannelRule := fun a s =>
  if a > Config.extLines then .raised .invAddress s else .done { s with extPtr := a }

/-- A channel rule run directly by the RM, which then advances RM.IC (44_channel_io.md R192). -/
def State.channelInRm (s : State) (rule : ChannelRule) (a : Nat) : Result :=
  ((rule a s).andThen fun s1 => .done s1.advanceRm).inRm

/-- GD (R192). -/
def execGd (x y z : Nat) (s : State) : Result := s.trapOr .gd x (s.channelInRm gdRule (argument x y z))

/-- PD (R193). -/
def execPd (x y z : Nat) (s : State) : Result := s.trapOr .pd x (s.channelInRm pdRule (argument x y z))

/-- RD (R194). -/
def execRd (x y z : Nat) (s : State) : Result := s.trapOr .rd x (s.channelInRm rdRule (argument x y z))

/-- WD (R195). -/
def execWd (x y z : Nat) (s : State) : Result := s.trapOr .wd x (s.channelInRm wdRule (argument x y z))

/-- SD (R196). -/
def execSd (x y z : Nat) (s : State) : Result := s.trapOr .sd x (s.channelInRm sdRule (argument x y z))

/-- The argument and the RM rule of a channel command (60_exceptions.md R258); `none` for every other command. -/
def channelOp : Instr → Option (Nat × ChannelRule)
  | .gd x y z => some (argument x y z, gdRule)
  | .pd x y z => some (argument x y z, pdRule)
  | .rd x y z => some (argument x y z, rdRule)
  | .wd x y z => some (argument x y z, wdRule)
  | .sd x y z => some (argument x y z, sdRule)
  | _ => none

end Sys2Proof.Machine
end

