-- ==== Sys2Proof/Machine/Control.lean ====
section
/-! DEFINITION. JP, JE, JL, JM and HALT (43_control.md R170 to R175). -/

namespace Sys2Proof.Machine

open Sys2Proof

/-- A taken jump (43_control.md R170): only a target above the size faults. -/
def jump : DirectRule := fun ctx b t s =>
  if t > s.sizeCtx ctx then .raised .invAddress s else .done (s.setBank ctx { b with ic := t })

/-- A jump taken when C is `want`, else IC advances and no bound is checked (43_control.md R171 to R173). -/
def jumpIf (want : Cmp) : DirectRule := fun ctx b t s =>
  if b.c = want then jump ctx b t s else .done (s.setBank ctx b.advance)

/-- JP (R170). -/
def execJp (x y z : Nat) (s : State) : Result := s.direct x y z jump

/-- JE (R171). -/
def execJe (x y z : Nat) (s : State) : Result := s.direct x y z (jumpIf .equal)

/-- JL (R172). -/
def execJl (x y z : Nat) (s : State) : Result := s.direct x y z (jumpIf .less)

/-- JM (R173). -/
def execJm (x y z : Nat) (s : State) : Result := s.direct x y z (jumpIf .more)

/-- HALT: in the RM it stops the core (R174); in a VM it frees the slot and raises SI = HALT (R175). -/
def execHalt (s : State) : Result :=
  match s.mode with
  | .supervisor => .next { s with run := .halted }
  | .user =>
    match s.cur with
    | none => .fault .inconsistent
    | some n => .next { s.setSlot n none with si := some .halt, cur := none }

end Sys2Proof.Machine
end

