-- ==== Sys2Proof/Machine/System.lean ====
section
/-! DEFINITION. GT, PT, STVM, SVRG and LDRG (45_system.md R220 to R229). -/

namespace Sys2Proof.Machine

open Sys2Proof

/-- 45_system.md R220: the timer to memory. -/
def getTimer (a : Nat) (s : State) : Effect :=
  if s.cfg.rmMemSize ≤ a then .raised .invAddress s else .done (s.writeM a (pad5 s.ti)).advanceRm

/-- 45_system.md R221: memory to the timer. -/
def putTimer (a : Nat) (s : State) : Effect :=
  if s.cfg.rmMemSize ≤ a then .raised .invAddress s
  else if isnum (s.readM a) then .done { s with ti := num (s.readM a) }.advanceRm
  else .fatal .nonNumeric s

/-- The ten words of slot n's page table as STVM writes them (45_system.md R223). -/
def freshTable (cfg : Config) (n : Nat) : List Word := (List.range 10).map fun i => pad5 (cfg.win n + 10 * i)

/-- `Allocate(n)` (45_system.md R223). -/
def State.allocate (s : State) (n : Nat) : State :=
  (s.writeWords (s.cfg.ptb n) (freshTable s.cfg n)).setSlot n (some (Bank.fresh 0))

/-- 45_system.md R222: start or resume slot n's VM. -/
def startVm (n : Nat) (s : State) : Effect :=
  if s.cfg.nSlots ≤ n then .fatal .argumentError s
  else
    (match s.slot n with
      | some _ => s.restoreRegs n
      | none => .done (s.allocate n)).andThen fun s1 => .done (s1.enter n)

/-- The argument check of SVRG and LDRG (45_system.md R226, R227). -/
def State.withAllocated (s : State) (n : Nat) (k : Effect) : Effect :=
  if s.cfg.nSlots ≤ n ∨ s.slot n = none then .fatal .argumentError s else k

/-- 45_system.md R226: save slot n's registers. -/
def saveVm (n : Nat) (s : State) : Effect :=
  s.withAllocated n ((s.saveRegs n).andThen fun s1 => .done s1.advanceRm)

/-- 45_system.md R227: load slot n's registers. -/
def loadVm (n : Nat) (s : State) : Effect :=
  s.withAllocated n ((s.restoreRegs n).andThen fun s1 => .done s1.advanceRm)

/-- GT (R220). -/
def execGt (x y z : Nat) (s : State) : Result := s.supervisorOnlyA x (getTimer (argument x y z) s).inRm

/-- PT (R221). -/
def execPt (x y z : Nat) (s : State) : Result := s.supervisorOnlyA x (putTimer (argument x y z) s).inRm

/-- STVM (R222). -/
def execStvm (n : Nat) (s : State) : Result := s.supervisorOnlyB (startVm n s).inRm

/-- SVRG (R226). -/
def execSvrg (n : Nat) (s : State) : Result := s.supervisorOnlyB (saveVm n s).inRm

/-- LDRG (R227). -/
def execLdrg (n : Nat) (s : State) : Result := s.supervisorOnlyB (loadVm n s).inRm

end Sys2Proof.Machine
end

