-- ==== Sys2Proof/Machine/Transfer.lean ====
section
/-! DEFINITION. CR and CM (41_transfer.md R140, R141). -/

namespace Sys2Proof.Machine

open Sys2Proof

/-- 41_transfer.md R140: memory to the accumulator. -/
def loadTmp : DirectRule := fun ctx b a s =>
  match s.readCtx ctx a with
  | none => .raised .invAddress s
  | some v => .done (s.setBank ctx { b.advance with tmp := v })

/-- 41_transfer.md R141: the accumulator to memory. -/
def storeTmp : DirectRule := fun ctx b a s =>
  if a < s.sizeCtx ctx then .done ((s.writeM (s.absCtx ctx a) b.tmp).setBank ctx b.advance)
  else .raised .invAddress s

/-- CR (R140). -/
def execCr (x y z : Nat) (s : State) : Result := s.direct x y z loadTmp

/-- CM (R141). -/
def execCm (x y z : Nat) (s : State) : Result := s.direct x y z storeTmp

end Sys2Proof.Machine
end

