-- ==== Sys2Proof/Machine/Dispatch.lean ====
section
/-! DEFINITION. The meaning of every command in the executing context (30_encoding.md R99), before the tick and the
dispatch that a VM step adds (40_cycle.md R125). -/

namespace Sys2Proof.Machine

open Sys2Proof

def exec (i : Instr) (s : State) : Host.Outcome State Fault Refusal :=
  match i with
  | .cr x y z => Sys2Proof.Machine.execCr x y z s
  | .cm x y z => Sys2Proof.Machine.execCm x y z s
  | .ad x y z => Sys2Proof.Machine.execAd x y z s
  | .sb x y z => Sys2Proof.Machine.execSb x y z s
  | .ml x y z => Sys2Proof.Machine.execMl x y z s
  | .md x y z => Sys2Proof.Machine.execMd x y z s
  | .dv x y z => Sys2Proof.Machine.execDv x y z s
  | .cp x y z => Sys2Proof.Machine.execCp x y z s
  | .jp x y z => Sys2Proof.Machine.execJp x y z s
  | .je x y z => Sys2Proof.Machine.execJe x y z s
  | .jl x y z => Sys2Proof.Machine.execJl x y z s
  | .jm x y z => Sys2Proof.Machine.execJm x y z s
  | .halt => Sys2Proof.Machine.execHalt s
  | .gd x y z => Sys2Proof.Machine.execGd x y z s
  | .pd x y z => Sys2Proof.Machine.execPd x y z s
  | .rd x y z => Sys2Proof.Machine.execRd x y z s
  | .wd x y z => Sys2Proof.Machine.execWd x y z s
  | .sd x y z => Sys2Proof.Machine.execSd x y z s
  | .gt x y z => Sys2Proof.Machine.execGt x y z s
  | .pt x y z => Sys2Proof.Machine.execPt x y z s
  | .stvm n => Sys2Proof.Machine.execStvm n s
  | .svrg n => Sys2Proof.Machine.execSvrg n s
  | .ldrg n => Sys2Proof.Machine.execLdrg n s

end Sys2Proof.Machine
end

