-- ==== Sys2Proof/WellFormed.lean ====
section
/-! DEFINITION. Which commands an instruction word can hold: every operand is one decimal digit (30_encoding.md R91, R92). -/

namespace Sys2Proof

/-- The three operands of a Format A command are digits (30_encoding.md R94). -/
abbrev digits3 (x y z : Nat) : Prop := x ≤ 9 ∧ y ≤ 9 ∧ z ≤ 9

/-- The operand of a Format B command is a digit (30_encoding.md R98). -/
abbrev digit1 (n : Nat) : Prop := n ≤ 9

/-- Every operand is one decimal digit. -/
def Instr.wellFormed : Instr → Bool
  | .cr x y z => decide (digits3 x y z)
  | .cm x y z => decide (digits3 x y z)
  | .ad x y z => decide (digits3 x y z)
  | .sb x y z => decide (digits3 x y z)
  | .ml x y z => decide (digits3 x y z)
  | .md x y z => decide (digits3 x y z)
  | .dv x y z => decide (digits3 x y z)
  | .cp x y z => decide (digits3 x y z)
  | .jp x y z => decide (digits3 x y z)
  | .je x y z => decide (digits3 x y z)
  | .jl x y z => decide (digits3 x y z)
  | .jm x y z => decide (digits3 x y z)
  | .halt => true
  | .gd x y z => decide (digits3 x y z)
  | .pd x y z => decide (digits3 x y z)
  | .rd x y z => decide (digits3 x y z)
  | .wd x y z => decide (digits3 x y z)
  | .sd x y z => decide (digits3 x y z)
  | .gt x y z => decide (digits3 x y z)
  | .pt x y z => decide (digits3 x y z)
  | .stvm n => decide (digit1 n)
  | .svrg n => decide (digit1 n)
  | .ldrg n => decide (digit1 n)

end Sys2Proof
end

