-- ==== Sys2Proof/Decode.lean ====
section
/-! DEFINITION. The decoder of 30_encoding.md R95, total on any word, and the encoder of R103. -/

namespace Sys2Proof

open Sys2Proof.Machine

/-- Why a word is no instruction; both raise INV_OP (30_encoding.md R95, R101). -/
inductive DecodeError where
  /-- "invalid/unrecognized command": no mnemonic begins the word. -/
  | unrecognized
  /-- "invalid arguments": the first matching mnemonic is followed by characters it does not take. -/
  | invalidArguments
  deriving DecidableEq, Repr

/-- What follows the mnemonic, and the command it makes: the formats of 30_encoding.md R91 to R93. -/
inductive Format where
  | a (make : Nat → Nat → Nat → Instr)
  | b (make : Nat → Instr)
  | h (cmd : Instr)

/-- One row of the opcode map (30_encoding.md R99). -/
structure OpRow where
  mnemonic : List Byte
  format : Format

/-- A row of Format A. -/
def rowA (m : String) (make : Nat → Nat → Nat → Instr) : OpRow := ⟨m.toList.map charCode, .a make⟩

/-- A row of Format B. -/
def rowB (m : String) (make : Nat → Instr) : OpRow := ⟨m.toList.map charCode, .b make⟩

/-- `ORDER`, the declared enumeration order of 30_encoding.md R95. -/
def opRows : List OpRow :=
  [rowA "CR" .cr, rowA "CM" .cm, rowA "AD" .ad, rowA "SB" .sb, rowA "ML" .ml, rowA "MD" .md, rowA "DV" .dv,
   rowA "CP" .cp, rowA "JP" .jp, rowA "JE" .je, rowA "JL" .jl, rowA "JM" .jm, ⟨"HALT".toList.map charCode, .h .halt⟩,
   rowA "GD" .gd, rowA "PD" .pd, rowA "RD" .rd, rowA "WD" .wd, rowA "SD" .sd, rowA "GT" .gt, rowA "PT" .pt,
   rowB "STVM" .stvm, rowB "SVRG" .svrg, rowB "LDRG" .ldrg]

/-- The characters after `m`, if `m` is a literal text-prefix of them (30_encoding.md R97). -/
def afterMnemonic : List Byte → List Byte → Option (List Byte)
  | [], cs => some cs
  | _ :: _, [] => none
  | m :: ms, c :: cs => if m = c then afterMnemonic ms cs else none

/-- The operand characters of a matched row (30_encoding.md R95): three digits, one digit, or a pad of `HALT_PAD`. -/
def decodeOperands (pad : List Byte) : Format → List Byte → Except DecodeError Instr
  | .a make, [x, y, z] =>
    if isDigit x && isDigit y && isDigit z then .ok (make (digitVal x) (digitVal y) (digitVal z))
    else .error .invalidArguments
  | .b make, [x] => if isDigit x then .ok (make (digitVal x)) else .error .invalidArguments
  | .h cmd, [p] => if pad.contains p then .ok cmd else .error .invalidArguments
  | _, _ => .error .invalidArguments

/-- First match in order; a row whose operands are wrong ends the search (30_encoding.md R95). -/
def decodeRows (pad : List Byte) : List OpRow → List Byte → Except DecodeError Instr
  | [], _ => .error .unrecognized
  | r :: rs, cs =>
    match afterMnemonic r.mnemonic cs with
    | some rest => decodeOperands pad r.format rest
    | none => decodeRows pad rs cs

/-- `Decode(w)` (30_encoding.md R95), with `HALT_PAD` as an argument. -/
def decode (pad : List Byte) (w : Word) : Except DecodeError Instr := decodeRows pad opRows w.chars

/-- A Format A word (30_encoding.md R91). -/
def encodeA (m0 m1 : Char) (x y z : Nat) : Word :=
  ⟨charCode m0, charCode m1, digitChar x, digitChar y, digitChar z⟩

/-- A Format B word (30_encoding.md R92). -/
def encodeB (m0 m1 m2 m3 : Char) (n : Nat) : Word :=
  ⟨charCode m0, charCode m1, charCode m2, charCode m3, digitChar n⟩

/-- The serialized word of a well-formed command (30_encoding.md R103); HALT in its canonical form `HALT0`. -/
def encode : Instr → Word
  | .cr x y z => encodeA 'C' 'R' x y z
  | .cm x y z => encodeA 'C' 'M' x y z
  | .ad x y z => encodeA 'A' 'D' x y z
  | .sb x y z => encodeA 'S' 'B' x y z
  | .ml x y z => encodeA 'M' 'L' x y z
  | .md x y z => encodeA 'M' 'D' x y z
  | .dv x y z => encodeA 'D' 'V' x y z
  | .cp x y z => encodeA 'C' 'P' x y z
  | .jp x y z => encodeA 'J' 'P' x y z
  | .je x y z => encodeA 'J' 'E' x y z
  | .jl x y z => encodeA 'J' 'L' x y z
  | .jm x y z => encodeA 'J' 'M' x y z
  | .halt => encodeB 'H' 'A' 'L' 'T' 0
  | .gd x y z => encodeA 'G' 'D' x y z
  | .pd x y z => encodeA 'P' 'D' x y z
  | .rd x y z => encodeA 'R' 'D' x y z
  | .wd x y z => encodeA 'W' 'D' x y z
  | .sd x y z => encodeA 'S' 'D' x y z
  | .gt x y z => encodeA 'G' 'T' x y z
  | .pt x y z => encodeA 'P' 'T' x y z
  | .stvm n => encodeB 'S' 'T' 'V' 'M' n
  | .svrg n => encodeB 'S' 'V' 'R' 'G' n
  | .ldrg n => encodeB 'L' 'D' 'R' 'G' n

/-- The word whose character at position p is byte p of `w`, bits 8p+7..8p (entry 11). -/
def wordOfNat (w : Nat) : Word :=
  ⟨BitVec.ofNat 8 w, BitVec.ofNat 8 (w / 2 ^ 8), BitVec.ofNat 8 (w / 2 ^ 16), BitVec.ofNat 8 (w / 2 ^ 24),
   BitVec.ofNat 8 (w / 2 ^ 32)⟩

/-- The instruction the decoder reads from the `nbits` low bits of `w`, bits above them 0 (entry 11), under the
reference `HALT_PAD`. -/
def decodeTableWord (nbits w : Nat) : Option Instr :=
  match decode Config.digitChars (wordOfNat (w % 2 ^ nbits)) with
  | .ok i => some i
  | .error _ => none

end Sys2Proof
end

