-- ==== Sys2Proof/Machine/Interrupts.lean ====
section
/-! DEFINITION. The translator, the trap service, the timer tick and the dispatcher (20_memory.md R70, 40_cycle.md R129,
60_exceptions.md R255 to R261). -/

namespace Sys2Proof.Machine

open Sys2Proof

/-- How a translation ends (20_memory.md R70). -/
inductive Translation where
  | address (a : Nat)
  | outside
  | badEntry
  deriving DecidableEq, Repr

/-- `Translate(rel)` (20_memory.md R70). -/
def State.translate (s : State) (rel : Nat) : Translation :=
  let e := s.readM (s.ptr + rel / 10)
  if s.cfg.rmMemSize ≤ s.ptr + rel / 10 then .outside
  else if !isnum e then .badEntry
  else if s.cfg.rmMemSize ≤ num e + rel % 10 then .outside
  else .address (num e + rel % 10)

/-- `isInterrupted()` (60_exceptions.md R255). -/
def State.interrupted (s : State) : Bool :=
  decide (s.pi ≠ none) || decide (s.si ≠ none) || decide (s.ioi ≠ 0) || decide (s.ti = 0)

/-- `VEC(f)` (60_exceptions.md R257). -/
def vec : ProgramFault → Nat
  | .invAddress => 0
  | .invOp => 1
  | .overflow => 2

/-- `TrapFault(f)` (60_exceptions.md R259). -/
def State.trapFault (s : State) (f : ProgramFault) : Effect :=
  { s with si := none, pi := some f }.enterHandler (vec f) .pi

/-- The end of a trap service that completed (60_exceptions.md R258). -/
def State.trapDone (s : State) (n : Nat) : State :=
  { s.setSlot n ((s.slot n).map Bank.advance) with si := none }

/-- The operation of a trap service: translate, then perform the RM rule (60_exceptions.md R258). -/
def State.replay (s : State) (arg : Nat) (rule : ChannelRule) : Effect :=
  match s.translate arg with
  | .address a => rule a s
  | .outside => .raised .invAddress s
  | .badEntry => .fatal .badPageTable s

/-- The end of a trap service, from how its operation ended (60_exceptions.md R258, R259). -/
def Effect.endTrap (n : Nat) : Effect → Effect
  | .done s => .done (s.trapDone n)
  | .raised f s => s.trapFault f
  | .fatal r s => .fatal r s
  | .stuck f => .stuck f

/-- `ServiceSI()` for a channel trap (60_exceptions.md R258, R259). -/
def State.serviceTrap (s : State) : Effect :=
  match s.cur with
  | none => .stuck .inconsistent
  | some n =>
    match s.slot n with
    | none => .stuck .inconsistent
    | some b =>
      match decode s.cfg.haltPad (s.readM (s.cfg.win n + b.ic)) with
      | .error _ => .stuck .inconsistent
      | .ok i =>
        match channelOp i with
        | none => .stuck .inconsistent
        | some (arg, rule) =>
          (s.saveRegs n).andThen fun s1 => (s1.replay arg rule).endTrap n

/-- `ServiceSI()` for SI = HALT (60_exceptions.md R260). -/
def State.serviceHalt (s : State) : State := { s with mode := .supervisor, si := none }

/-- The lowest channel with its IOI bit set (60_exceptions.md R256, R257). -/
def lowestIo (ioi : BitVec 3) : Option Channel :=
  if bitOf ioi .keyboard then some .keyboard
  else if bitOf ioi .screen then some .screen
  else if bitOf ioi .external then some .external
  else none

/-- `Dispatch()` (60_exceptions.md R257): at most one cause is serviced, by priority. -/
def State.dispatch (s : State) : Effect :=
  match s.si with
  | some .halt => .done s.serviceHalt
  | some _ => s.serviceTrap
  | none =>
    match s.pi with
    | some f => s.enterHandler (vec f) .pi
    | none =>
      if s.ti = 0 then s.enterHandler 3 .timer
      else
        match lowestIo s.ioi with
        | some ch => s.enterHandler (4 + ch.index) (.io ch)
        | none => .done s

/-- The timer tick (40_cycle.md R129): TI stops at 0. -/
def State.tick (s : State) : State := { s with ti := s.ti - 1 }

end Sys2Proof.Machine
end

