-- ==== Sys2Proof/Machine/Cycle.lean ====
section
/-! DEFINITION. The RM step and the VM step (40_cycle.md R120 to R130), and where the next word is fetched. -/

namespace Sys2Proof.Machine

open Sys2Proof

/-- What a fetch gives: a command, or the program fault it raises (40_cycle.md R123, R125). -/
inductive Fetched where
  | command (i : Instr)
  | fault (f : ProgramFault)
  deriving DecidableEq, Repr

/-- Fetch and decode the word at IC of a context: outside its memory INV_ADDRESS, no instruction INV_OP
(40_cycle.md R123, R125). -/
def State.fetch (s : State) (ctx : Ctx) (ic : Nat) : Fetched :=
  match s.readCtx ctx ic with
  | none => .fault .invAddress
  | some w =>
    match decode s.cfg.haltPad w with
    | .ok i => .command i
    | .error _ => .fault .invOp

/-- `SupervisorStep` (40_cycle.md R123): no tick and no dispatch (R130). -/
def State.supervisorStep (s : State) : Result :=
  match s.fetch .rm s.rm.ic with
  | .fault f => .next (s.supervisorFault f)
  | .command i => exec i s

/-- The end of a VM step (40_cycle.md R125): unless the instruction was fatal, the tick (R129) and the dispatch
(60_exceptions.md R257). -/
def State.endUserStep (s : State) : Result :=
  match s.run with
  | .running => s.tick.dispatch.inVm
  | _ => .next s

/-- `UserStep(n)` for n = CUR (40_cycle.md R125). -/
def State.userStep (s : State) : Result :=
  s.withVm fun n b =>
    match s.fetch (.vm n) b.ic with
    | .fault f => (s.vmFault f).endUserStep
    | .command i =>
      match exec i s with
      | .next s1 => s1.endUserStep
      | .fault f => .fault f
      | .refused r => .refused r

/-- The absolute address of the word the next step fetches (40_cycle.md R122). -/
def State.fetchAddr (s : State) : Nat :=
  match s.mode, s.cur with
  | .user, some n => s.cfg.win n + ((s.slot n).map Bank.ic).getD 0
  | _, _ => s.rm.ic

end Sys2Proof.Machine
end

