-- ==== Sys2Proof/Machine/Step.lean ====
section
/-! DEFINITION. One step of the core (40_cycle.md R120 to R122), and placing the word it fetches next. -/

namespace Sys2Proof.Machine

open Sys2Proof

/-- One step (40_cycle.md R120). A configuration that breaks 00_scope.md R8 is refused (entry 4), and no step is taken
unless RUN = RUNNING (R121). -/
def step (s : State) : Host.Outcome State Fault Refusal :=
  if s.cfg.Ok then
    match s.run with
    | .running =>
      match s.mode with
      | .supervisor => s.supervisorStep
      | .user => s.userStep
    | _ => .fault .stopped
  else .refused .badConfiguration

/-- `s` with the word whose characters are the bytes of `w` (bits above `nbits` 0) at the address the next step fetches
from (entries 10 and 11). -/
def State.withFetchWord (s : State) (nbits w : Nat) : State := s.writeM s.fetchAddr (wordOfNat (w % 2 ^ nbits))

end Sys2Proof.Machine
end

