-- ==== Sys2Proof/Machine/HostInterface.lean ====
section
/-! DEFINITION. What the host may do to the core (70_reset_and_hazards.md R300 to R302, R313) and see of it (10_state.md
R31, R39, R46). -/

namespace Sys2Proof.Machine

open Sys2Proof

/-- The Word a text is: exactly five ASCII characters (10_state.md R21). -/
def wordOfText (text : List Byte) : Option Word :=
  if text.all (fun b => decide (isAscii b)) then Word.ofChars text else none

/-- The words of a loader image, or `none` if a text of it is no Word (70_reset_and_hazards.md R301). -/
def wordsOfTexts (texts : List (List Byte)) : Option (List Word) := texts.mapM wordOfText

/-- The external memory with these lines (70_reset_and_hazards.md R302), or `none` if they are not 1000 lines of 10
words. -/
def extOfLines (lines : List (List (List Byte))) : Option Memory :=
  if lines.length = Config.extLines ∧ ∀ l ∈ lines, l.length = 10 then
    (lines.flatten.mapM wordOfText).map (Memory.writeExtWords [] 0)
  else none

/-- `reset(config, image, ext?)` (70_reset_and_hazards.md R300, R313): every register at its reset value, M the image
from address 0 upwards, EXT as it was or as the host supplies it (R302). A broken configuration or image is refused. -/
def State.hostReset (s : State) (cfg : Config) (image : List (List Byte)) (ext : Option (List (List (List Byte)))) :
    Result :=
  if ¬ cfg.Ok then .refused .badConfiguration
  else
    match wordsOfTexts image, (match ext with | none => some s.ext | some lines => extOfLines lines) with
    | some ws, some e =>
      if ws.length ≤ cfg.rmMemSize then .next ((State.resetOf cfg e).writeWords 0 ws) else .refused .badImage
    | _, _ => .refused .badImage

/-- `setKeyboard(w)` (70_reset_and_hazards.md R313): the word replaces any pending one (10_state.md R41). -/
def State.setKeyboard (s : State) (text : List Byte) : Result :=
  match wordOfText text with
  | some w => .next { s with kbd := some w }
  | none => .refused .badKeyboardWord

/-- What the host's `step()` returns (70_reset_and_hazards.md R313). -/
inductive StepReport where
  | done
  | stalled
  | stopped
  deriving DecidableEq, Repr

/-- The host's `step()` (70_reset_and_hazards.md R313): the state is unchanged when the step stalls or RUN is not
RUNNING. `none` stands for the model's own stops, at states no run reaches. -/
def State.hostStep (s : State) : Option (State × StepReport) :=
  match step s with
  | .next s1 => some (s1, .done)
  | .fault (.stalled _) => some (s, .stalled)
  | .fault .stopped => some (s, .stopped)
  | .fault .inconsistent => none
  | .refused _ => none

/-- The host's code of PI (10_state.md R33). -/
def piCode : Option ProgramFault → Nat
  | none => 0
  | some .invAddress => 1
  | some .invOp => 2
  | some .overflow => 3

/-- The host's code of SI (10_state.md R34). -/
def siCode : Option Trap → Nat
  | none => 0
  | some .gd => 1
  | some .pd => 2
  | some .rd => 3
  | some .wd => 4
  | some .sd => 5
  | some .halt => 6

/-- The registers the host may read between steps: those of 10_state.md R46, LAST_SLOT (R31), whose only reader it is
(R45), and SVC (R39). M is read with `State.readM` and EXT with `State.readExt`. -/
structure HostView where
  rm : Bank
  pi : Nat
  si : Nat
  ioi : Nat
  ti : Nat
  mode : Mode
  busy : Nat
  current : Option Bank
  lastSlot : Option Nat
  svc : Service
  kbd : Option Word
  scr : Option Word
  deriving DecidableEq, Repr

/-- The host's read-only view (10_state.md R31, R39, R46). -/
def State.view (s : State) : HostView where
  rm := s.rm
  pi := piCode s.pi
  si := siCode s.si
  ioi := s.ioi.toNat
  ti := s.ti
  mode := s.mode
  busy := s.busy.toNat
  current := s.cur.bind s.slot
  lastSlot := s.lastSlot
  svc := s.svc
  kbd := s.kbd
  scr := s.scr

/-- Line `p` of EXT as the host persists it (70_reset_and_hazards.md R302): ten words separated by single spaces and
ended by a newline. -/
def State.extLineText (s : State) (p : Nat) : List Byte :=
  [charCode ' '].intercalate ((s.extLine p).map Word.chars) ++ [charCode '\n']

end Sys2Proof.Machine
end

