-- ==== Sys2Proof/Safety.lean ====
section
/-! DEFINITION. What the spec promises of every state between steps: the ranges and relations of 10_state.md. -/

namespace Sys2Proof.Machine

open Sys2Proof

/-- M and EXT are in canonical form and ASCII (10_state.md R21, R22, R43). -/
abbrev State.MemoryOk (s : State) : Prop := s.mem.wf s.cfg.rmMemSize ∧ s.ext.wfExt

/-- Every word held outside M and EXT is ASCII (10_state.md R21). -/
abbrev State.WordsOk (s : State) : Prop :=
  s.rm.tmp.Ascii ∧ (∀ n b, s.slot n = some b → b.tmp.Ascii) ∧
  (∀ w, s.kbd = some w → w.Ascii) ∧ (∀ w, s.scr = some w → w.Ascii)

/-- The integer registers lie in their ranges (10_state.md R24, R28, R30 to R32, R36, R44). -/
abbrev State.RangesOk (s : State) : Prop :=
  s.rm.ic ≤ s.cfg.rmMemSize ∧ (∀ n b, s.slot n = some b → b.ic ≤ 100) ∧ s.ptr < s.cfg.rmMemSize ∧ s.ti ≤ 99999 ∧
  s.extPtr ≤ Config.extLines ∧ (∀ n, s.cur = some n → n < s.cfg.nSlots) ∧ (∀ n, s.lastSlot = some n → n < s.cfg.nSlots)

/-- MODE = USER exactly when a VM is current, and the current VM is allocated; slots that do not exist are empty
(10_state.md R27, R30, R37). -/
abbrev State.ModeOk (s : State) : Prop :=
  (s.mode = .user ↔ s.cur ≠ none) ∧ (∀ n, s.cur = some n → s.slot n ≠ none) ∧ (∀ n, s.cfg.nSlots ≤ n → s.slot n = none)

/-- Between steps of a running core no trap is pending, PI is set exactly while its handler runs, no cause is in service
in USER mode, and the IOI bit of an I/O cause in service is still set (10_state.md R33, R34, R39, 60_exceptions.md
R258 to R261). -/
abbrev State.CausesOk (s : State) : Prop :=
  (s.mode = .user → s.svc = .none) ∧
  (s.run = .running → s.si = none ∧ (s.pi ≠ none ↔ s.svc = .pi) ∧ (∀ ch, s.svc = .io ch → bitOf s.ioi ch = true)) ∧
  (∀ f, s.run = .fatal (.supervisorFault f) → s.pi = some f)

/-- A BUSY bit is set between steps only by the operation that leaks it (10_state.md R38, 44_channel_io.md R198). -/
abbrev State.BusyOk (s : State) : Prop :=
  bitOf s.busy .keyboard = false ∧ (bitOf s.busy .screen = true → s.cfg.stuckBusyOp = .pd) ∧
  (bitOf s.busy .external = true → s.cfg.stuckBusyOp = .wd)

/-- Everything above, with a configuration that 00_scope.md R8 allows. -/
structure State.Inv (s : State) : Prop where
  cfg : s.cfg.Ok
  memory : s.MemoryOk
  words : s.WordsOk
  ranges : s.RangesOk
  mode : s.ModeOk
  causes : s.CausesOk
  busy : s.BusyOk

/-! ## Words that claims use -/

/-- The context `ctx`, with the registers `b`, executes an instruction whose hundreds digit is `x` (40_cycle.md R122);
in a VM the hundreds digit must be 0 (R125). -/
def State.Executes (s : State) : Ctx → Bank → Nat → Prop
  | .rm, b, _ => s.mode = .supervisor ∧ s.rm = b
  | .vm n, b, x => s.mode = .user ∧ s.cur = some n ∧ s.slot n = some b ∧ x = 0

/-- `t` is `s` with the registers of `ctx` become `b` and nothing else changed. -/
def State.RegistersBecome (s t : State) : Ctx → Bank → Prop
  | .rm, b => t = { s with rm := b }
  | .vm n, b => t = { s with slots := t.slots } ∧ t.slot n = some b ∧ ∀ k, k ≠ n → t.slot k = s.slot k

/-- What a program fault leaves, before the tick and the dispatch of a VM step: in the RM PI and a stopped core
(40_cycle.md R124), in a VM only PI (R125). -/
def State.faultTaken (s : State) (f : ProgramFault) : Ctx → State
  | .rm => { s with pi := some f, run := .fatal (.supervisorFault f) }
  | .vm _ => { s with pi := some f }

/-- Every character of M outside the `n` words from `a` upwards reads in `t` as in `s`. -/
def State.SameOutside (s t : State) (a n : Nat) : Prop :=
  ∀ k, k < 5 * a ∨ 5 * (a + n) ≤ k → t.mem.byte k = s.mem.byte k

/-- The two words of slot n's save area hold the bank `b` (45_system.md R228), and no other character of M changed. -/
def State.SavedAs (s t : State) (n : Nat) (b : Bank) : Prop :=
  t.readM (s.cfg.win n + s.cfg.saveOff) = b.tmp ∧
  t.readM (s.cfg.win n + s.cfg.saveOff + 1) =
    ⟨digitChar (b.ic / 10), digitChar (b.ic % 10), digitChar (match b.c with | .equal => 0 | .less => 1 | .more => 2),
     charCode '0', charCode '0'⟩ ∧
  s.SameOutside t (s.cfg.win n + s.cfg.saveOff) 2

/-- `a` is none of the two words of slot n's save area. -/
def State.NotSaveArea (s : State) (n a : Nat) : Prop :=
  a ≠ s.cfg.win n + s.cfg.saveOff ∧ a ≠ s.cfg.win n + s.cfg.saveOff + 1

/-- `t` is `s` after a handler for `cause` was entered from slot n with the bank `b` (60_exceptions.md R261): the bank
saved over whatever the save area held (entry 22), SUPERVISOR mode, the slot remembered, no VM current, the cause in
service, and RM.IC alone of the RM's registers changed. -/
def State.HandlerEntered (s t : State) (n : Nat) (b : Bank) (cause : Service) : Prop :=
  t = { s with
    mem := t.mem
    rm := { s.rm with ic := t.rm.ic }
    mode := .supervisor
    lastSlot := some n
    cur := none
    svc := cause } ∧
  s.SavedAs t n b

/-- What resuming leaves of the causes: the one in service is cleared and no other (45_system.md R225). -/
def State.CauseCleared (s t : State) : Prop :=
  (t.pi = if s.svc = .pi then none else s.pi) ∧
  ∀ ch, bitOf t.ioi ch = (bitOf s.ioi ch && decide (s.svc ≠ .io ch))

/-- A text that is a Word: exactly five characters, each ASCII (10_state.md R21). -/
abbrev IsWordText (text : List Byte) : Prop := text.length = 5 ∧ ∀ b ∈ text, isAscii b

/-- Texts that are a whole external memory: 1000 lines of 10 Words (10_state.md R43). -/
abbrev IsExtText (lines : List (List (List Byte))) : Prop :=
  lines.length = 1000 ∧ ∀ line ∈ lines, line.length = 10 ∧ ∀ text ∈ line, IsWordText text

/-- The command a fetch gave, if it gave one. -/
def Fetched.command? : Fetched → Option Instr
  | .command i => some i
  | .fault _ => none

/-- The instruction the next step runs, if the word it fetches is one (40_cycle.md R123, R125). -/
def State.nextInstr (s : State) : Option Instr :=
  match s.mode, s.cur with
  | .supervisor, _ => (s.fetch .rm s.rm.ic).command?
  | .user, some n => (s.slot n).bind fun b => (s.fetch (.vm n) b.ic).command?
  | .user, none => none

/-- A step that the spec gives a successor: from every state of the invariant, the only ways to have none are a stall
on a leaked busy bit and a core that has stopped (40_cycle.md R121, R133). -/
def State.StopsOnlyAsSpecified (s : State) : Prop :=
  (∃ t, step s = .next t) ∨ (∃ ch, step s = .fault (.stalled ch) ∧ bitOf s.busy ch = true) ∨
  (step s = .fault .stopped ∧ s.run ≠ .running)

end Sys2Proof.Machine
end

