-- ==== Sys2Proof/Certificates/Slice0/Obligations.lean ====
section
/-! DEFINITION. The statements for the provers. Each docstring names the rule of spec/ it formalises; where a clause rests
on a choice of the spec itself (D<n>, C<n>) or of the model (entry <n>), the docstring says so. -/

open Sys2Proof Sys2Proof.Machine

/-! ## Encoding -/

/-- 30_encoding.md section 5 (R103): decoding a serialized well-formed command gives it back, under every `HALT_PAD` that
holds the canonical pad '0'. The canonical HALT word is the spec's choice D8. -/
def Obligations.DecodeOfEncode : Prop :=
  ∀ (pad : List Byte) (i : Instr), charCode '0' ∈ pad → i.wellFormed = true → decode pad (encode i) = .ok i

/-- 30_encoding.md sections 2 and 3 (R95, R100, R102): a word that decodes is the serialized word of a well-formed
command, or a HALT word with another pad of `HALT_PAD` (D8). -/
def Obligations.EncodeOfDecode : Prop :=
  ∀ (pad : List Byte) (w : Word) (i : Instr), decode pad w = .ok i →
    i.wellFormed = true ∧
      (w = encode i ∨ (i = .halt ∧ ∃ p ∈ pad, w = ⟨charCode 'H', charCode 'A', charCode 'L', charCode 'T', p⟩))

/-- 30_encoding.md sections 1 and 3, 95_test_vectors.md section 2.1: words written out by character code, one of each
format and family, and illegal words. The accepted HALT pads are the spec's choice D8. -/
def Obligations.SampleWordsDecode : Prop :=
  decode Config.digitChars ⟨0x43, 0x52, 0x31, 0x32, 0x33⟩ = .ok (.cr 1 2 3) ∧       -- CR123
  decode Config.digitChars ⟨0x44, 0x56, 0x30, 0x34, 0x30⟩ = .ok (.dv 0 4 0) ∧       -- DV040
  decode Config.digitChars ⟨0x4A, 0x4D, 0x30, 0x30, 0x39⟩ = .ok (.jm 0 0 9) ∧       -- JM009
  decode Config.digitChars ⟨0x53, 0x44, 0x39, 0x39, 0x39⟩ = .ok (.sd 9 9 9) ∧       -- SD999
  decode Config.digitChars ⟨0x47, 0x54, 0x30, 0x36, 0x30⟩ = .ok (.gt 0 6 0) ∧       -- GT060
  decode Config.digitChars ⟨0x53, 0x54, 0x56, 0x4D, 0x33⟩ = .ok (.stvm 3) ∧         -- STVM3
  decode Config.digitChars ⟨0x48, 0x41, 0x4C, 0x54, 0x37⟩ = .ok .halt ∧             -- HALT7
  decode Config.digitChars ⟨0x48, 0x41, 0x4C, 0x54, 0x58⟩ = .error .invalidArguments ∧  -- HALTX
  decode Config.digitChars ⟨0x41, 0x44, 0x44, 0x30, 0x31⟩ = .error .invalidArguments ∧  -- ADD01
  decode Config.digitChars ⟨0x63, 0x72, 0x31, 0x32, 0x33⟩ = .error .unrecognized ∧      -- cr123
  decode Config.digitChars ⟨0x30, 0x30, 0x30, 0x34, 0x32⟩ = .error .unrecognized        -- 00042

/-- 30_encoding.md section 2 (R96): no mnemonic of ORDER is a text-prefix of another, and there are 23. -/
def Obligations.NoMnemonicBeginsAnother : Prop :=
  opRows.length = 23 ∧
  opRows.Pairwise fun r q => afterMnemonic r.mnemonic q.mnemonic = none ∧ afterMnemonic q.mnemonic r.mnemonic = none

/-! ## The step -/

/-- 40_cycle.md section 2: an RM step runs the decoded instruction, with no tick and no dispatch (R123; that the
dispatcher does not run is D10). -/
def Obligations.StepRunsTheInstructionInTheRm : Prop :=
  ∀ (s : State) (i : Instr), s.cfg.Ok → s.run = .running → s.mode = .supervisor → s.rm.ic < s.cfg.rmMemSize →
    decode s.cfg.haltPad (s.readM s.rm.ic) = .ok i → step s = exec i s

/-- 40_cycle.md section 3 (R125): a VM step runs the decoded instruction of the window word at V(n).IC; unless that was
fatal, TI ticks (D6) and the dispatcher runs. -/
def Obligations.StepRunsTheInstructionInAVm : Prop :=
  ∀ (s : State) (n : Nat) (b : Bank) (i : Instr), s.cfg.Ok → s.run = .running → s.mode = .user → s.cur = some n →
    s.slot n = some b → b.ic < 100 → decode s.cfg.haltPad (s.readM (s.cfg.vmBase + 100 * n + b.ic)) = .ok i →
    step s = match exec i s with
      | .next t => if t.run = .running then ({ t with ti := t.ti - 1 } : State).dispatch.inVm else .next t
      | .fault f => .fault f
      | .refused r => .refused r

/-- 40_cycle.md sections 2 (R123, R124): in the RM a fetch outside M, or of no instruction, sets PI and stops the core. That
it is fatal is D11. -/
def Obligations.BadFetchInTheRmIsFatal : Prop :=
  ∀ s : State, s.cfg.Ok → s.run = .running → s.mode = .supervisor →
    (s.cfg.rmMemSize ≤ s.rm.ic →
      step s = .next { s with pi := some .invAddress, run := .fatal (.supervisorFault .invAddress) }) ∧
    (∀ e, s.rm.ic < s.cfg.rmMemSize → decode s.cfg.haltPad (s.readM s.rm.ic) = .error e →
      step s = .next { s with pi := some .invOp, run := .fatal (.supervisorFault .invOp) })

/-- 60_exceptions.md sections 2 and 4 (R257, R261), 40_cycle.md section 3: an illegal word fetched by a VM enters the
INV_OP handler in the same step, with the bank saved at the illegal word (D19, D22), the tick taken (D6); and a fetch at
V(n).IC = 100 is fatal SAVE_IC_RANGE at that save (C7, D18). -/
def Obligations.BadFetchInAVm : Prop :=
  ∀ (s : State) (n : Nat) (b : Bank), s.cfg.Ok → s.run = .running → s.mode = .user → s.cur = some n →
    s.slot n = some b → s.si = none →
    (∀ e, b.ic < 100 → decode s.cfg.haltPad (s.readM (s.cfg.vmBase + 100 * n + b.ic)) = .error e →
      s.NotSaveArea n (s.cfg.ivtBase + 1) → isnum (s.readM (s.cfg.ivtBase + 1)) = true →
      num (s.readM (s.cfg.ivtBase + 1)) < s.cfg.rmMemSize →
      ∃ t, step s = .next t ∧
        State.HandlerEntered { s with pi := some .invOp, ti := s.ti - 1 } t n b .pi ∧
        t.rm.ic = num (s.readM (s.cfg.ivtBase + 1))) ∧
    (b.ic = 100 →
      step s = .next { s with pi := some .invAddress, ti := s.ti - 1, run := .fatal .saveIcRange })

/-- 40_cycle.md section 1 (R121), 70_reset_and_hazards.md section 3 (R313, D43): no step is taken unless RUN = RUNNING, and a
stalled step changes nothing. The two reports of the model are entry 7. -/
def Obligations.NoStepUnlessRunning : Prop :=
  (∀ s : State, s.cfg.Ok → s.run ≠ .running → step s = .fault .stopped ∧ s.hostStep = some (s, .stopped)) ∧
  (∀ s t : State, s.hostStep = some (t, .stalled) → t = s ∧ ∃ ch, step s = .fault (.stalled ch))

/-! ## Direct opcodes -/

/-- 30_encoding.md section 2 (R94), 40_cycle.md section 4 (R131), 20_memory.md section 3 (R66, whose offset formula is D3):
the operand value, and which word of M it names in each context. -/
def Obligations.OperandsNameWordsOfTheContext : Prop :=
  (∀ x y z, argument x y z = 100 * x + 10 * y + z) ∧
  (∀ (s : State) (a : Nat), s.sizeCtx .rm = s.cfg.rmMemSize ∧ s.absCtx .rm a = a) ∧
  (∀ (s : State) (n a : Nat), s.sizeCtx (.vm n) = 100 ∧ s.absCtx (.vm n) a = s.cfg.vmBase + 100 * n + a) ∧
  (∀ (s : State) (ctx : Ctx) (a : Nat),
    s.readCtx ctx a = if a < s.sizeCtx ctx then some (s.readM (s.absCtx ctx a)) else none)

/-- 41_transfer.md R140: the word `CRxyz` is a CR of the address 100x + 10y + z; CR copies the operand word to TMP
verbatim, advances IC and changes nothing else; outside the memory of the context its rule raises INV_ADDRESS and writes
nothing. -/
def Obligations.CrCopiesMemoryToTmp : Prop :=
  ∀ (s : State) (ctx : Ctx) (b : Bank) (x y z : Nat), s.Executes ctx b x →
    (x ≤ 9 → y ≤ 9 → z ≤ 9 →
      argument x y z = 100 * x + 10 * y + z ∧
      decode s.cfg.haltPad ⟨charCode 'C', charCode 'R', digitChar x, digitChar y, digitChar z⟩ = .ok (.cr x y z)) ∧
    (argument x y z < s.sizeCtx ctx →
      ∃ t, exec (.cr x y z) s = .next t ∧
        s.RegistersBecome t ctx ⟨s.readM (s.absCtx ctx (argument x y z)), b.ic + 1, b.c⟩) ∧
    (s.sizeCtx ctx ≤ argument x y z → loadTmp ctx b (argument x y z) s = .raised .invAddress s)

/-- 41_transfer.md R141: the word `CMxyz` is a CM to the address 100x + 10y + z; CM stores TMP in the operand word, in a VM
through the window, advances IC and changes nothing else; outside the memory of the context its rule raises INV_ADDRESS
and writes nothing. -/
def Obligations.CmCopiesTmpToMemory : Prop :=
  ∀ (s : State) (ctx : Ctx) (b : Bank) (x y z : Nat), s.Executes ctx b x →
    (x ≤ 9 → y ≤ 9 → z ≤ 9 →
      argument x y z = 100 * x + 10 * y + z ∧
      decode s.cfg.haltPad ⟨charCode 'C', charCode 'M', digitChar x, digitChar y, digitChar z⟩ = .ok (.cm x y z)) ∧
    (argument x y z < s.sizeCtx ctx →
      ∃ t, exec (.cm x y z) s = .next t ∧
        State.RegistersBecome { s with mem := t.mem } t ctx ⟨b.tmp, b.ic + 1, b.c⟩ ∧
        t.readM (s.absCtx ctx (argument x y z)) = b.tmp ∧
        s.SameOutside t (s.absCtx ctx (argument x y z)) 1) ∧
    (s.sizeCtx ctx ≤ argument x y z → storeTmp ctx b (argument x y z) s = .raised .invAddress s)

/-- 42_alu.md sections 1 to 3: on numeric operands, with a result of 0..99999 and no zero divisor, AD, SB, ML, MD and DV
put the exact result into TMP as five digits (exactness is D15), advance IC and change nothing else. -/
def Obligations.ArithmeticStoresTheExactResult : Prop :=
  ∀ (s : State) (ctx : Ctx) (b : Bank) (x y z : Nat), s.Executes ctx b x → argument x y z < s.sizeCtx ctx →
    ∀ m : Word, m = s.readM (s.absCtx ctx (argument x y z)) → isnum b.tmp = true → isnum m = true →
    let gives : Instr → Int → Prop := fun i r => 0 ≤ r → r ≤ 99999 →
      ∃ t w, exec i s = .next t ∧ isnum w = true ∧ (num w : Int) = r ∧ s.RegistersBecome t ctx ⟨w, b.ic + 1, b.c⟩
    gives (.ad x y z) (num b.tmp + num m) ∧
    gives (.sb x y z) (num b.tmp - num m) ∧
    gives (.ml x y z) (num b.tmp * num m) ∧
    (num m ≠ 0 → gives (.md x y z) ((num b.tmp : Int) % (num m : Int))) ∧
    (num m ≠ 0 → gives (.dv x y z) ((num b.tmp : Int) / (num m : Int)))

/-- 42_alu.md section 1, 60_exceptions.md section 1: AD and ML above 99999 and DV by "00000" raise OVERFLOW, and by the
spec's choices D13 and D14 so do a negative SB and MD by "00000"; division by zero regardless of TMP (D45). In the RM the
fault is fatal (D11). -/
def Obligations.ArithmeticOverflows : Prop :=
  ∀ (s : State) (ctx : Ctx) (b : Bank) (x y z : Nat), s.Executes ctx b x → argument x y z < s.sizeCtx ctx →
    ∀ m : Word, m = s.readM (s.absCtx ctx (argument x y z)) →
    (isnum b.tmp = true → isnum m = true →
      (99999 < num b.tmp + num m → exec (.ad x y z) s = .next (s.faultTaken .overflow ctx)) ∧
      (num b.tmp < num m → exec (.sb x y z) s = .next (s.faultTaken .overflow ctx)) ∧
      (99999 < num b.tmp * num m → exec (.ml x y z) s = .next (s.faultTaken .overflow ctx))) ∧
    (m = word "00000" →
      exec (.md x y z) s = .next (s.faultTaken .overflow ctx) ∧
      exec (.dv x y z) s = .next (s.faultTaken .overflow ctx))

/-- 42_alu.md section 1: the spec's choice D12, arithmetic on a word with a non-digit is fatal NON_NUMERIC, after the
division-by-zero check (D45). -/
def Obligations.ArithmeticOnTextIsFatal : Prop :=
  ∀ (s : State) (ctx : Ctx) (b : Bank) (x y z : Nat), s.Executes ctx b x → argument x y z < s.sizeCtx ctx →
    ∀ m : Word, m = s.readM (s.absCtx ctx (argument x y z)) → (isnum b.tmp = false ∨ isnum m = false) →
    exec (.ad x y z) s = .next { s with run := .fatal .nonNumeric } ∧
    exec (.sb x y z) s = .next { s with run := .fatal .nonNumeric } ∧
    exec (.ml x y z) s = .next { s with run := .fatal .nonNumeric } ∧
    (m ≠ word "00000" → exec (.md x y z) s = .next { s with run := .fatal .nonNumeric }) ∧
    (m ≠ word "00000" → exec (.dv x y z) s = .next { s with run := .fatal .nonNumeric })

/-- 40_cycle.md sections 2 and 4, 42_alu.md, 41_transfer.md, 45_system.md: an operand outside the memory of the context
raises INV_ADDRESS before any other check (D45) and does nothing else. In the RM the fault is fatal (D11). -/
def Obligations.OperandOutsideMemoryFaults : Prop :=
  (∀ (s : State) (ctx : Ctx) (b : Bank) (x y z : Nat), s.Executes ctx b x → s.sizeCtx ctx ≤ argument x y z →
    ∀ i ∈ [Instr.cr x y z, .cm x y z, .ad x y z, .sb x y z, .ml x y z, .md x y z, .dv x y z, .cp x y z],
      exec i s = .next (s.faultTaken .invAddress ctx)) ∧
  (∀ (s : State) (x y z : Nat), s.mode = .supervisor → s.cfg.rmMemSize ≤ argument x y z →
    ∀ i ∈ [Instr.gt x y z, .pt x y z], exec i s = .next (s.faultTaken .invAddress .rm))

/-- 42_alu.md R156 and 00_scope.md R9: CP sets C by the first position where the texts differ, in character-code order
(the spec's choice D38, entry 15), advances IC and changes nothing else. -/
def Obligations.CpComparesTexts : Prop :=
  ∀ (s : State) (ctx : Ctx) (b : Bank) (x y z : Nat), s.Executes ctx b x → argument x y z < s.sizeCtx ctx →
    ∀ m : Word, m = s.readM (s.absCtx ctx (argument x y z)) →
    ∃ t c, exec (.cp x y z) s = .next t ∧ s.RegistersBecome t ctx ⟨b.tmp, b.ic + 1, c⟩ ∧
      (c = .equal ↔ b.tmp = m) ∧
      (c = .less ↔ ∃ p < 5, (∀ q < p, b.tmp.chars[q]? = m.chars[q]?) ∧
        (b.tmp.chars.getD p 0).toNat < (m.chars.getD p 0).toNat) ∧
      (c = .more ↔ ∃ p < 5, (∀ q < p, b.tmp.chars[q]? = m.chars[q]?) ∧
        (m.chars.getD p 0).toNat < (b.tmp.chars.getD p 0).toNat)

/-- 42_alu.md R156, corner cases: on digit strings the lexicographic order is the numeric order. -/
def Obligations.CpOrdersNumbers : Prop :=
  ∀ v w : Word, isnum v = true → isnum w = true →
    compareWords v w = if num v = num w then .equal else if num v < num w then .less else .more

/-! ## Control transfer -/

/-- 43_control.md R170: JP writes IC alone, up to and including the size of the context's memory (the equality is D40);
above it the rule raises INV_ADDRESS, fatal in the RM (D11). -/
def Obligations.JpWritesIc : Prop :=
  ∀ (s : State) (ctx : Ctx) (b : Bank) (x y z : Nat), s.Executes ctx b x →
    (argument x y z ≤ s.sizeCtx ctx →
      ∃ t, exec (.jp x y z) s = .next t ∧ s.RegistersBecome t ctx ⟨b.tmp, argument x y z, b.c⟩) ∧
    (s.sizeCtx ctx < argument x y z → exec (.jp x y z) s = .next (s.faultTaken .invAddress ctx))

/-- 43_control.md R171 to R173: JE, JL and JM jump as JP when C is EQUAL, LESS or MORE; not taken they advance IC and
never fault, whatever the target. -/
def Obligations.ConditionalJumpsReadC : Prop :=
  ∀ (s : State) (ctx : Ctx) (b : Bank) (x y z : Nat), s.Executes ctx b x →
    ∀ p ∈ [(Instr.je x y z, Cmp.equal), (.jl x y z, .less), (.jm x y z, .more)],
      (b.c = p.2 → argument x y z ≤ s.sizeCtx ctx →
        ∃ t, exec p.1 s = .next t ∧ s.RegistersBecome t ctx ⟨b.tmp, argument x y z, b.c⟩) ∧
      (b.c = p.2 → s.sizeCtx ctx < argument x y z → exec p.1 s = .next (s.faultTaken .invAddress ctx)) ∧
      (b.c ≠ p.2 → ∃ t, exec p.1 s = .next t ∧ s.RegistersBecome t ctx ⟨b.tmp, b.ic + 1, b.c⟩)

/-- 43_control.md R174: HALT in the RM stops the core and changes nothing else; that RM.IC stays is D39. -/
def Obligations.HaltInTheRmStopsTheCore : Prop :=
  ∀ s : State, s.mode = .supervisor → exec .halt s = .next { s with run := .halted }

/-- 43_control.md R175: HALT in a VM raises SI = HALT, empties the slot and leaves no VM current; nothing else changes. -/
def Obligations.HaltInAVmFreesTheSlot : Prop :=
  ∀ (s : State) (n : Nat) (b : Bank), s.mode = .user → s.cur = some n → s.slot n = some b →
    ∃ t, exec .halt s = .next t ∧ t = { s with si := some .halt, cur := none, slots := t.slots } ∧
      t.slot n = none ∧ ∀ k, k ≠ n → t.slot k = s.slot k

/-- 60_exceptions.md R260 (the spec's choice D24) with 43_control.md R175: the whole step of a VM's HALT ends in
SUPERVISOR mode with SI cleared; RM.IC, M and the other slots are as they were, and TI has ticked (D6). -/
def Obligations.HaltStepReturnsToTheRm : Prop :=
  ∀ (s : State) (n : Nat) (b : Bank), s.cfg.Ok → s.run = .running → s.mode = .user → s.cur = some n →
    s.slot n = some b → b.ic < 100 → decode s.cfg.haltPad (s.readM (s.cfg.vmBase + 100 * n + b.ic)) = .ok .halt →
    ∃ t, step s = .next t ∧
      t = { s with slots := t.slots, si := none, mode := .supervisor, cur := none, ti := s.ti - 1 } ∧
      t.slot n = none ∧ ∀ k, k ≠ n → t.slot k = s.slot k

/-! ## Channels -/

/-- 44_channel_io.md R192: in the RM GD moves the pending keyboard word to memory, or leaves the target alone if there is
none (its completion then is D50), raises IOI bit 0 (D25) and advances RM.IC; a target outside M consumes nothing (D27). -/
def Obligations.GdTakesTheKeyboardWord : Prop :=
  ∀ (s : State) (x y z : Nat), s.mode = .supervisor → bitOf s.busy .keyboard = false →
    (argument x y z < s.cfg.rmMemSize →
      ∃ t, exec (.gd x y z) s = .next t ∧
        t = { s with mem := t.mem, rm := { s.rm with ic := s.rm.ic + 1 }, kbd := none, ioi := s.ioi ||| 1#3 } ∧
        (∀ w, s.kbd = some w → t.readM (argument x y z) = w ∧ s.SameOutside t (argument x y z) 1) ∧
        (s.kbd = none → t.mem = s.mem)) ∧
    (s.cfg.rmMemSize ≤ argument x y z → exec (.gd x y z) s = .next (s.faultTaken .invAddress .rm))

/-- 44_channel_io.md R193: in the RM PD publishes the operand word on the screen, raises IOI bit 1, advances RM.IC and
leaves its busy bit set only under STUCK_BUSY_OP = PD; it stalls on its busy bit, and raises INV_ADDRESS outside M. -/
def Obligations.PdPublishesAWord : Prop :=
  ∀ (s : State) (x y z : Nat), s.mode = .supervisor →
    (bitOf s.busy .screen = true → exec (.pd x y z) s = .fault (.stalled .screen)) ∧
    (bitOf s.busy .screen = false → s.cfg.rmMemSize ≤ argument x y z →
      pdRule (argument x y z) s = .raised .invAddress s ∧
      exec (.pd x y z) s = .next (s.faultTaken .invAddress .rm)) ∧
    (bitOf s.busy .screen = false → argument x y z < s.cfg.rmMemSize →
      exec (.pd x y z) s = .next { s with
        scr := some (s.readM (argument x y z))
        rm := { s.rm with ic := s.rm.ic + 1 }
        busy := if s.cfg.stuckBusyOp = .pd then s.busy ||| 2#3 else s.busy
        ioi := s.ioi ||| 2#3 })

/-- 44_channel_io.md R194: in the RM RD copies the ten words of the selected line to memory, raises IOI bit 2 (D25) and
advances RM.IC; the pointer, the line and every other word stay. -/
def Obligations.RdCopiesALineToMemory : Prop :=
  ∀ (s : State) (x y z : Nat), s.mode = .supervisor → bitOf s.busy .external = false → s.extPtr < 1000 →
    argument x y z + 10 ≤ s.cfg.rmMemSize →
    ∃ t, exec (.rd x y z) s = .next t ∧
      t = { s with mem := t.mem, rm := { s.rm with ic := s.rm.ic + 1 }, ioi := s.ioi ||| 4#3 } ∧
      (∀ i < 10, t.readM (argument x y z + i) = s.readExt s.extPtr i) ∧
      s.SameOutside t (argument x y z) 10

/-- 44_channel_io.md R194, 20_memory.md R65: an RD that runs past the top of M keeps the words before it, raises no I/O
interrupt and leaves no busy bit (D28); in the RM the fault is fatal (D11). -/
def Obligations.RdPastTheTopKeepsEarlierWords : Prop :=
  ∀ (s : State) (x y z : Nat), s.mode = .supervisor → bitOf s.busy .external = false → s.extPtr < 1000 →
    s.cfg.rmMemSize < argument x y z + 10 →
    ∃ t, exec (.rd x y z) s = .next t ∧
      t = { s with mem := t.mem, pi := some .invAddress, run := .fatal (.supervisorFault .invAddress) } ∧
      (∀ i < 10, argument x y z + i < s.cfg.rmMemSize → t.readM (argument x y z + i) = s.readExt s.extPtr i) ∧
      (∀ k, k < 5 * argument x y z ∨ 5 * s.cfg.rmMemSize ≤ k → t.mem.byte k = s.mem.byte k)

/-- 44_channel_io.md R195: in the RM WD replaces the selected line by ten memory words and no other line, raises IOI bit 2
(D25), advances RM.IC, and leaves its busy bit set only under STUCK_BUSY_OP = WD (OPEN, D26). -/
def Obligations.WdReplacesALine : Prop :=
  ∀ (s : State) (x y z : Nat), s.mode = .supervisor → bitOf s.busy .external = false → s.extPtr < 1000 →
    argument x y z + 10 ≤ s.cfg.rmMemSize →
    ∃ t, exec (.wd x y z) s = .next t ∧
      t = { s with
        ext := t.ext
        rm := { s.rm with ic := s.rm.ic + 1 }
        busy := if s.cfg.stuckBusyOp = .wd then s.busy ||| 4#3 else s.busy
        ioi := s.ioi ||| 4#3 } ∧
      ∀ q i, i < 10 → t.readExt q i = if q = s.extPtr then s.readM (argument x y z + i) else s.readExt q i

/-- 44_channel_io.md R194, R195, R199: RD and WD at the pointer 1000, a line that does not exist, are fatal EXT_RANGE (the
spec's choice D29); a WD whose block leaves M moves nothing and raises INV_ADDRESS, fatal in the RM (D11). -/
def Obligations.RdAndWdBounds : Prop :=
  ∀ (s : State) (x y z : Nat), s.mode = .supervisor → bitOf s.busy .external = false →
    (1000 ≤ s.extPtr →
      exec (.rd x y z) s = .next { s with run := .fatal .extRange } ∧
      exec (.wd x y z) s = .next { s with run := .fatal .extRange }) ∧
    (s.extPtr < 1000 → s.cfg.rmMemSize < argument x y z + 10 →
      exec (.wd x y z) s = .next (s.faultTaken .invAddress .rm))

/-- 44_channel_io.md R196: in the RM SD writes the pointer and advances RM.IC, without looking at BUSY (D27); above 1000 it
raises INV_ADDRESS (D31), fatal in the RM (D11). -/
def Obligations.SdWritesThePointer : Prop :=
  ∀ (s : State) (x y z : Nat), s.mode = .supervisor →
    (argument x y z ≤ 1000 →
      exec (.sd x y z) s =
        .next { s with extPtr := argument x y z, rm := { s.rm with ic := s.rm.ic + 1 } }) ∧
    (1000 < argument x y z → exec (.sd x y z) s = .next (s.faultTaken .invAddress .rm))

/-- 40_cycle.md R133, 44_channel_io.md R191 and R199: in the RM a channel operation that finds its busy bit set stalls,
whatever its operand (busy first is D27). -/
def Obligations.BusyChannelsStall : Prop :=
  ∀ (s : State) (x y z : Nat), s.mode = .supervisor →
    (bitOf s.busy .keyboard = true → exec (.gd x y z) s = .fault (.stalled .keyboard)) ∧
    (bitOf s.busy .screen = true → exec (.pd x y z) s = .fault (.stalled .screen)) ∧
    (bitOf s.busy .external = true →
      exec (.rd x y z) s = .fault (.stalled .external) ∧ exec (.wd x y z) s = .fault (.stalled .external))

/-! ## Timer and VM control -/

/-- 45_system.md R220: the word `GTxyz` is a GT to the address 100x + 10y + z; in the RM GT stores TI there as a
zero-padded number, advances RM.IC and changes nothing else (TI included); outside M its rule raises INV_ADDRESS and
writes nothing. -/
def Obligations.GtStoresTheTimer : Prop :=
  ∀ (s : State) (x y z : Nat), s.mode = .supervisor →
    (x ≤ 9 → y ≤ 9 → z ≤ 9 →
      argument x y z = 100 * x + 10 * y + z ∧
      decode s.cfg.haltPad ⟨charCode 'G', charCode 'T', digitChar x, digitChar y, digitChar z⟩ = .ok (.gt x y z)) ∧
    (argument x y z < s.cfg.rmMemSize →
      ∃ t, exec (.gt x y z) s = .next t ∧
        t = { s with mem := t.mem, rm := { s.rm with ic := s.rm.ic + 1 } } ∧
        (s.ti ≤ 99999 → isnum (t.readM (argument x y z)) = true ∧ num (t.readM (argument x y z)) = s.ti) ∧
        s.SameOutside t (argument x y z) 1) ∧
    (s.cfg.rmMemSize ≤ argument x y z → getTimer (argument x y z) s = .raised .invAddress s)

/-- 45_system.md R221: in the RM PT loads TI from a numeric word, advances RM.IC and changes nothing else; a non-digit word
is fatal NON_NUMERIC (the spec's choice D12). -/
def Obligations.PtLoadsTheTimer : Prop :=
  ∀ (s : State) (x y z : Nat), s.mode = .supervisor →
    (argument x y z < s.cfg.rmMemSize → isnum (s.readM (argument x y z)) = true →
      exec (.pt x y z) s =
        .next { s with ti := num (s.readM (argument x y z)), rm := { s.rm with ic := s.rm.ic + 1 } }) ∧
    (argument x y z < s.cfg.rmMemSize → isnum (s.readM (argument x y z)) = false →
      exec (.pt x y z) s = .next { s with run := .fatal .nonNumeric })

/-- 45_system.md R222, R223, R225: STVM of an empty slot writes the ten contiguous block bases, gives the slot a fresh
bank (D17) and enters USER mode with TI and PTR set; it clears the cause in service and no other (D23). The table's place
is D3, its word format D36. -/
def Obligations.StvmStartsAFreshVm : Prop :=
  ∀ (s : State) (n : Nat), s.cfg.Ok → s.mode = .supervisor → n < s.cfg.nSlots → s.slot n = none →
    ∃ t, exec (.stvm n) s = .next t ∧
      t = { s with
        mem := t.mem
        rm := { s.rm with ic := s.rm.ic + 1 }
        ptr := s.cfg.ptBase + 10 * n
        pi := t.pi
        ioi := t.ioi
        ti := s.cfg.timerDefault
        mode := .user
        slots := t.slots
        cur := some n
        svc := .none } ∧
      s.CauseCleared t ∧
      t.slot n = some ⟨word "00000", 0, .equal⟩ ∧ (∀ k, k ≠ n → t.slot k = s.slot k) ∧
      (∀ i < 10, t.readM (s.cfg.ptBase + 10 * n + i) = pad5 (s.cfg.vmBase + 100 * n + 10 * i)) ∧
      s.SameOutside t (s.cfg.ptBase + 10 * n) 10

/-- 45_system.md R224 with R225 and R229: STVM of an allocated slot restores the saved registers and neither allocates nor
writes any word of M; it enters USER mode and clears the cause in service and no other (D23). -/
def Obligations.StvmResumesASavedVm : Prop :=
  ∀ (s : State) (n : Nat) (b : Bank) (w : Word) (c : Cmp), s.cfg.Ok → s.mode = .supervisor → n < s.cfg.nSlots →
    s.slot n = some b → w = s.readM (s.cfg.vmBase + 100 * n + s.cfg.saveOff + 1) →
    isDigit w.c0 = true → isDigit w.c1 = true →
    (w.c2, c) ∈ [(charCode '0', Cmp.equal), (charCode '1', .less), (charCode '2', .more)] →
    ∃ t, exec (.stvm n) s = .next t ∧
      t = { s with
        rm := { s.rm with ic := s.rm.ic + 1 }
        ptr := s.cfg.ptBase + 10 * n
        pi := t.pi
        ioi := t.ioi
        ti := s.cfg.timerDefault
        mode := .user
        slots := t.slots
        cur := some n
        svc := .none } ∧
      s.CauseCleared t ∧
      t.slot n = some ⟨s.readM (s.cfg.vmBase + 100 * n + s.cfg.saveOff), 10 * digitVal w.c0 + digitVal w.c1, c⟩ ∧
      ∀ k, k ≠ n → t.slot k = s.slot k

/-- 45_system.md R226, R228: SVRG writes the bank of an allocated slot into its save area, advances RM.IC and changes
nothing else. The save area's place, the C digit and the reserved digits are D16 and D7. -/
def Obligations.SvrgSavesTheBank : Prop :=
  ∀ (s : State) (n : Nat) (b : Bank), s.mode = .supervisor → n < s.cfg.nSlots → s.slot n = some b → b.ic ≤ 99 →
    ∃ t, exec (.svrg n) s = .next t ∧ t = { s with mem := t.mem, rm := { s.rm with ic := s.rm.ic + 1 } } ∧
      s.SavedAs t n b

/-- 45_system.md R227, R229: LDRG loads the bank of an allocated slot from its save area, ignoring the reserved characters
(D49), advances RM.IC and changes nothing else. -/
def Obligations.LdrgLoadsTheBank : Prop :=
  ∀ (s : State) (n : Nat) (b : Bank) (w : Word) (c : Cmp), s.mode = .supervisor → n < s.cfg.nSlots →
    s.slot n = some b → w = s.readM (s.cfg.vmBase + 100 * n + s.cfg.saveOff + 1) →
    isDigit w.c0 = true → isDigit w.c1 = true →
    (w.c2, c) ∈ [(charCode '0', Cmp.equal), (charCode '1', .less), (charCode '2', .more)] →
    ∃ t, exec (.ldrg n) s = .next t ∧ t = { s with slots := t.slots, rm := { s.rm with ic := s.rm.ic + 1 } } ∧
      t.slot n = some ⟨s.readM (s.cfg.vmBase + 100 * n + s.cfg.saveOff), 10 * digitVal w.c0 + digitVal w.c1, c⟩ ∧
      ∀ k, k ≠ n → t.slot k = s.slot k

/-- 45_system.md section 3 (R229): a save followed by a restore with no write between them leaves the bank unchanged. -/
def Obligations.LdrgAfterSvrgKeepsTheBank : Prop :=
  ∀ (s : State) (n : Nat) (b : Bank), s.mode = .supervisor → n < s.cfg.nSlots → s.slot n = some b → b.ic ≤ 99 →
    ∃ t u, exec (.svrg n) s = .next t ∧ exec (.ldrg n) t = .next u ∧ u.slot n = some b ∧ u.mem = t.mem ∧
      ∀ k, k ≠ n → u.slot k = s.slot k

/-- 45_system.md R222, R226 to R229, 60_exceptions.md R254: the fatal ends of the slot instructions in the RM. BAD_SAVE_AREA
is D49, SAVE_IC_RANGE D18. -/
def Obligations.SlotInstructionErrors : Prop :=
  ∀ (s : State) (n : Nat), s.mode = .supervisor →
    (s.cfg.nSlots ≤ n → exec (.stvm n) s = .next { s with run := .fatal .argumentError }) ∧
    (s.cfg.nSlots ≤ n ∨ s.slot n = none →
      exec (.svrg n) s = .next { s with run := .fatal .argumentError } ∧
      exec (.ldrg n) s = .next { s with run := .fatal .argumentError }) ∧
    (∀ b, n < s.cfg.nSlots → s.slot n = some b → 99 < b.ic →
      exec (.svrg n) s = .next { s with run := .fatal .saveIcRange }) ∧
    (∀ b w, n < s.cfg.nSlots → s.slot n = some b → w = s.readM (s.cfg.vmBase + 100 * n + s.cfg.saveOff + 1) →
      (isDigit w.c0 = false ∨ isDigit w.c1 = false ∨ isDigit w.c2 = false ∨ 2 < digitVal w.c2) →
      exec (.stvm n) s = .next { s with run := .fatal .badSaveArea } ∧
      exec (.ldrg n) s = .next { s with run := .fatal .badSaveArea })

/-! ## Privilege -/

/-- 40_cycle.md R126, R127 (the order is D37, C4): in a VM STVM, SVRG and LDRG are fatal whatever their digit, and GT and PT
are fatal when the hundreds digit is 0; nothing else changes. -/
def Obligations.SupervisorOpcodesAreFatalInAVm : Prop :=
  ∀ (s : State) (y z n : Nat), s.mode = .user →
    ∀ i ∈ [Instr.stvm n, .svrg n, .ldrg n, .gt 0 y z, .pt 0 y z],
      exec i s = .next { s with run := .fatal .unhandledCommand }

/-- 40_cycle.md R125, R127: in a VM every Format A command whose hundreds digit is not 0 raises INV_ADDRESS and does
nothing else, taken or not (order: D37). -/
def Obligations.HundredsDigitFaultsInAVm : Prop :=
  ∀ (s : State) (n x y z : Nat) (b : Bank), s.mode = .user → s.cur = some n → s.slot n = some b → x ≠ 0 →
    ∀ i ∈ [Instr.cr x y z, .cm x y z, .ad x y z, .sb x y z, .ml x y z, .md x y z, .dv x y z, .cp x y z, .jp x y z,
        .je x y z, .jl x y z, .jm x y z, .gd x y z, .pd x y z, .rd x y z, .wd x y z, .sd x y z, .gt x y z, .pt x y z],
      exec i s = .next { s with pi := some .invAddress }

/-- 40_cycle.md R125, R126: in a VM GD, PD, RD, WD and SD only set SI; the VM itself never performs their effect. -/
def Obligations.ChannelOpcodesTrapInAVm : Prop :=
  ∀ (s : State) (y z : Nat), s.mode = .user →
    ∀ p ∈ [(Instr.gd 0 y z, Trap.gd), (.pd 0 y z, .pd), (.rd 0 y z, .rd), (.wd 0 y z, .wd), (.sd 0 y z, .sd)],
      exec p.1 s = .next { s with si := some p.2 }

/-! ## Traps, interrupts, translation -/

/-- 60_exceptions.md R258 (the spec's choice D20): the step of a trapped channel opcode saves the bank, translates the
operand and performs the RM rule at the absolute address, in the same step and in USER mode; then V(n).IC alone of the
VM's registers advances and SI is cleared. A stall or a fatal of the performed operation is the outcome of the whole step,
the only fatal being EXT_RANGE (D29). By R259 (D21) a fault of the performed operation, always INV_ADDRESS, enters handler 0
in the same step with SI cleared and the bank saved at the trapping word, or is fatal BAD_VECTOR at an unusable vector
(D42); it leaves M as it was but for the words a RD wrote before the top of M (44_channel_io.md R194). -/
def Obligations.TrappedOpcodesAreReplayed : Prop :=
  ∀ p ∈ ([(Instr.gd, Trap.gd, gdRule), (Instr.pd, Trap.pd, pdRule), (Instr.rd, Trap.rd, rdRule),
      (Instr.wd, Trap.wd, wdRule), (Instr.sd, Trap.sd, sdRule)] :
      List ((Nat → Nat → Nat → Instr) × Trap × ChannelRule)),
  ∀ (s s1 : State) (n y z a : Nat) (b : Bank), s.cfg.Ok → s.run = .running → s.mode = .user → s.cur = some n →
    s.slot n = some b → b.ic < 100 →
    decode s.cfg.haltPad (s.readM (s.cfg.vmBase + 100 * n + b.ic)) = .ok (p.1 0 y z) →
    State.saveRegs { s with si := some p.2.1, ti := s.ti - 1 } n = .done s1 →
    s1.translate (10 * y + z) = .address a →
    (s1 = { s with mem := s1.mem, si := some p.2.1, ti := s.ti - 1 } ∧ s.SavedAs s1 n b) ∧
    (∀ s2, p.2.2 a s1 = .done s2 →
      ∃ t, step s = .next t ∧ t = { s2 with si := none, slots := t.slots } ∧
        t.slot n = some ⟨b.tmp, b.ic + 1, b.c⟩ ∧ ∀ k, k ≠ n → t.slot k = s.slot k) ∧
    (∀ f, p.2.2 a s1 = .stuck f → step s = .fault f) ∧
    (∀ r s2, p.2.2 a s1 = .fatal r s2 → r = .extRange ∧ step s = .next { s1 with run := .fatal .extRange }) ∧
    (∀ f s2, p.2.2 a s1 = .raised f s2 →
      f = .invAddress ∧ s2 = { s1 with mem := s2.mem } ∧
      (p.2.1 = .rd → ∀ i < 10, a + i < s.cfg.rmMemSize → s2.readM (a + i) = s.readExt s.extPtr i) ∧
      (∀ k, p.2.1 ≠ .rd ∨ k < 5 * a ∨ 5 * s.cfg.rmMemSize ≤ k → s2.mem.byte k = s1.mem.byte k) ∧
      (s.NotSaveArea n s.cfg.ivtBase →
        (isnum (s2.readM s.cfg.ivtBase) = true → num (s2.readM s.cfg.ivtBase) < s.cfg.rmMemSize →
          ∃ t, step s = .next t ∧ State.HandlerEntered { s2 with si := none, pi := some .invAddress } t n b .pi ∧
            t.rm.ic = num (s2.readM s.cfg.ivtBase)) ∧
        (isnum (s2.readM s.cfg.ivtBase) = false ∨ s.cfg.rmMemSize ≤ num (s2.readM s.cfg.ivtBase) →
          ∃ t, step s = .next { t with run := .fatal .badVector } ∧
            State.HandlerEntered { s2 with si := none, pi := some .invAddress } t n b .pi ∧ t.rm = s.rm)))

/-- 60_exceptions.md R258 (D20), 44_channel_io.md R193, 20_memory.md R70: what a VM's PD does in one step, written out:
the screen takes the word at the translated address, the save area the bank, IOI its bit; MODE, CUR and the RM's
registers stay. -/
def Obligations.TrappedPdPublishesTheTranslatedWord : Prop :=
  ∀ (s : State) (n y z : Nat) (b : Bank) (e : Word), s.cfg.Ok → s.run = .running → s.mode = .user → s.cur = some n →
    s.slot n = some b → b.ic < 100 → y ≤ 9 → z ≤ 9 →
    decode s.cfg.haltPad (s.readM (s.cfg.vmBase + 100 * n + b.ic)) = .ok (.pd 0 y z) →
    bitOf s.busy .screen = false → s.ptr + y < s.cfg.rmMemSize → e = s.readM (s.ptr + y) → isnum e = true →
    num e + z < s.cfg.rmMemSize → s.NotSaveArea n (s.ptr + y) → s.NotSaveArea n (num e + z) →
    ∃ t, step s = .next t ∧
      t = { s with
        mem := t.mem
        slots := t.slots
        si := none
        scr := some (s.readM (num e + z))
        busy := if s.cfg.stuckBusyOp = .pd then s.busy ||| 2#3 else s.busy
        ioi := s.ioi ||| 2#3
        ti := s.ti - 1 } ∧
      t.slot n = some ⟨b.tmp, b.ic + 1, b.c⟩ ∧ (∀ k, k ≠ n → t.slot k = s.slot k) ∧ s.SavedAs t n b

/-- 20_memory.md R70, 60_exceptions.md R254, R258, R259: a trapped operand whose translation lies outside M enters the
INV_ADDRESS handler in the same step, with the saved IC at the trapping instruction and SI cleared (the spec's choice D21);
one whose table word is no number is fatal BAD_PAGE_TABLE (D36), after the tick and the register save, with SI as the trap
set it (the order of R258; entry 16). -/
def Obligations.TranslationFaultEntersTheHandler : Prop :=
  ∀ (s : State) (n y z : Nat) (b : Bank) (i : Instr) (op : Trap), s.cfg.Ok → s.run = .running → s.mode = .user →
    s.cur = some n → s.slot n = some b → b.ic < 100 → y ≤ 9 → z ≤ 9 →
    (i, op) ∈ [(Instr.gd 0 y z, Trap.gd), (.pd 0 y z, .pd), (.rd 0 y z, .rd), (.wd 0 y z, .wd), (.sd 0 y z, .sd)] →
    decode s.cfg.haltPad (s.readM (s.cfg.vmBase + 100 * n + b.ic)) = .ok i →
    ((s.cfg.rmMemSize ≤ s.ptr + y ∨
        s.NotSaveArea n (s.ptr + y) ∧ isnum (s.readM (s.ptr + y)) = true ∧
          s.cfg.rmMemSize ≤ num (s.readM (s.ptr + y)) + z) →
      s.NotSaveArea n s.cfg.ivtBase → isnum (s.readM s.cfg.ivtBase) = true →
      num (s.readM s.cfg.ivtBase) < s.cfg.rmMemSize →
      ∃ t, step s = .next t ∧
        State.HandlerEntered { s with si := none, pi := some .invAddress, ti := s.ti - 1 } t n b .pi ∧
        t.rm.ic = num (s.readM s.cfg.ivtBase)) ∧
    (s.ptr + y < s.cfg.rmMemSize → s.NotSaveArea n (s.ptr + y) → isnum (s.readM (s.ptr + y)) = false →
      ∃ t, step s = .next t ∧
        t = { s with mem := t.mem, si := some op, ti := s.ti - 1, run := .fatal .badPageTable } ∧ s.SavedAs t n b)

/-- 20_memory.md R69, R70, R72: with the table that STVM writes for a fresh slot, the translation of every relative address
is its window address. The places of tables and windows are D3. -/
def Obligations.FreshTableTranslatesToTheWindow : Prop :=
  ∀ (s : State) (n : Nat), s.cfg.Ok → s.mode = .supervisor → n < s.cfg.nSlots → s.slot n = none →
    s.cfg.rmMemSize ≤ 100000 →
    ∃ t, exec (.stvm n) s = .next t ∧ ∀ r < 100, t.translate r = .address (s.cfg.vmBase + 100 * n + r)

/-- 60_exceptions.md R261, R262 (the spec's choices D4, D22): entering a handler saves the bank, suspends the VM, records
the cause and takes RM.IC from the vector word; a vector word that is no address of M is fatal BAD_VECTOR with the VM
already suspended (D42). The save overwrites what the VM wrote to its save area: the model's choice between R261 and
70_reset_and_hazards.md R310 (entry 22). -/
def Obligations.HandlerEntrySavesAndVectors : Prop :=
  ∀ (s : State) (n v : Nat) (b : Bank) (cause : Service), s.cur = some n → s.slot n = some b → b.ic ≤ 99 →
    s.NotSaveArea n (s.cfg.ivtBase + v) →
    (isnum (s.readM (s.cfg.ivtBase + v)) = true → num (s.readM (s.cfg.ivtBase + v)) < s.cfg.rmMemSize →
      ∃ t, s.enterHandler v cause = .done t ∧ s.HandlerEntered t n b cause ∧
        t.rm.ic = num (s.readM (s.cfg.ivtBase + v))) ∧
    (isnum (s.readM (s.cfg.ivtBase + v)) = false ∨ s.cfg.rmMemSize ≤ num (s.readM (s.cfg.ivtBase + v)) →
      ∃ t, s.enterHandler v cause = .fatal .badVector t ∧ s.HandlerEntered t n b cause ∧ t.rm = s.rm)

/-- 60_exceptions.md R256, R257, R260, R262: one cause at most is serviced, trap before program fault before timer before
I/O, the lowest channel first (D25), each at its own vector (D4); with none pending nothing happens. -/
def Obligations.DispatchFollowsThePriority : Prop :=
  ∀ s : State,
    (s.si = some .halt → s.dispatch = .done { s with mode := .supervisor, si := none }) ∧
    (∀ op, s.si = some op → op ≠ .halt → s.dispatch = s.serviceTrap) ∧
    (s.si = none →
      (s.pi = some .invAddress → s.dispatch = s.enterHandler 0 .pi) ∧
      (s.pi = some .invOp → s.dispatch = s.enterHandler 1 .pi) ∧
      (s.pi = some .overflow → s.dispatch = s.enterHandler 2 .pi) ∧
      (s.pi = none → s.ti = 0 → s.dispatch = s.enterHandler 3 .timer) ∧
      (s.pi = none → s.ti ≠ 0 →
        (bitOf s.ioi .keyboard = true → s.dispatch = s.enterHandler 4 (.io .keyboard)) ∧
        (bitOf s.ioi .keyboard = false → bitOf s.ioi .screen = true →
          s.dispatch = s.enterHandler 5 (.io .screen)) ∧
        (bitOf s.ioi .keyboard = false → bitOf s.ioi .screen = false → bitOf s.ioi .external = true →
          s.dispatch = s.enterHandler 6 (.io .external)) ∧
        (s.ioi = 0 → s.dispatch = .done s)))

/-! ## Whole-machine rules -/

/-- 40_cycle.md R129, 10_state.md R36 (the tick is the spec's choice D6): a VM step that is not fatal takes one from TI,
which stops at 0; in the RM only STVM and PT change TI. -/
def Obligations.TimerCountsVmSteps : Prop :=
  (∀ s t : State, s.mode = .user → step s = .next t → t.run = .running → t.ti = s.ti - 1) ∧
  (∀ s t : State, s.mode = .supervisor → step s = .next t → t.ti ≠ s.ti →
    (∃ n, s.nextInstr = some (.stvm n)) ∨ ∃ x y z, s.nextInstr = some (.pt x y z))

/-- 60_exceptions.md R269 (D44): the core enters USER mode only by STVM, and leaves it only by entering a handler or by a
VM's HALT. -/
def Obligations.ModeChangesOnlyAsListed : Prop :=
  ∀ s t : State, s.Inv → step s = .next t →
    (s.mode = .supervisor → t.mode = .user → ∃ n, s.nextInstr = some (.stvm n)) ∧
    (s.mode = .user → t.mode = .supervisor →
      s.nextInstr = some .halt ∨ (t.svc ≠ .none ∧ t.lastSlot = s.cur ∧ t.cur = none))

/-- 20_memory.md R73, 60_exceptions.md R268: no step of a VM writes a word of M outside its window, but a trapped GD or RD,
whose target is translated. -/
def Obligations.VmWritesStayInItsWindow : Prop :=
  ∀ (s t : State) (n : Nat), s.Inv → s.mode = .user → s.cur = some n → step s = .next t →
    (∀ x y z, s.nextInstr ≠ some (.gd x y z)) → (∀ x y z, s.nextInstr ≠ some (.rd x y z)) →
    s.SameOutside t (s.cfg.vmBase + 100 * n) 100

/-- 60_exceptions.md R258, R270: no step of a VM changes RM.TMP, RM.C or the bank of another slot, and RM.IC changes only
when the step leaves USER mode. -/
def Obligations.VmStepLeavesOtherContextsAlone : Prop :=
  ∀ (s t : State) (n : Nat), s.Inv → s.mode = .user → s.cur = some n → step s = .next t →
    t.rm.tmp = s.rm.tmp ∧ t.rm.c = s.rm.c ∧ (t.mode = .user → t.rm = s.rm) ∧ ∀ k, k ≠ n → t.slot k = s.slot k

/-- 10_state.md R26, R29, R45: CP is the only instruction that changes the C of the context that executes it. -/
def Obligations.OnlyCpWritesC : Prop :=
  ∀ s t : State, s.Inv → step s = .next t →
    (s.mode = .supervisor → t.rm.c ≠ s.rm.c → ∃ x y z, s.nextInstr = some (.cp x y z)) ∧
    (∀ n b b', s.mode = .user → s.cur = some n → s.slot n = some b → t.slot n = some b' → b'.c ≠ b.c →
      ∃ x y z, s.nextInstr = some (.cp x y z))

/-- 10_state.md R32, R41 to R45: each device register and PTR has one writing instruction, in either context, and no step
changes the configuration. -/
def Obligations.DeviceRegistersHaveOneWriter : Prop :=
  ∀ s t : State, s.Inv → step s = .next t →
    (t.kbd ≠ s.kbd → ∃ x y z, s.nextInstr = some (.gd x y z)) ∧
    (t.scr ≠ s.scr → ∃ x y z, s.nextInstr = some (.pd x y z)) ∧
    (t.ext ≠ s.ext → ∃ x y z, s.nextInstr = some (.wd x y z)) ∧
    (t.extPtr ≠ s.extPtr → ∃ x y z, s.nextInstr = some (.sd x y z)) ∧
    (t.ptr ≠ s.ptr → ∃ n, s.nextInstr = some (.stvm n)) ∧
    t.cfg = s.cfg

/-- 10_state.md R21 to R44, 20_memory.md R65: every step keeps the invariant of Safety.lean: memories in canonical form,
ASCII words, registers in their ranges, MODE and CUR agreeing (D44), causes and the cause in service agreeing (D23), and
busy bits only where STUCK_BUSY_OP leaks one (D26). -/
def Obligations.EveryStepKeepsTheInvariant : Prop :=
  ∀ s t : State, s.Inv → step s = .next t → t.Inv

/-- 10_state.md R47: the state after reset has the invariant. Its values are the spec's D34 and entry 6. -/
def Obligations.ResetHasTheInvariant : Prop :=
  State.reset.Inv

/-- 40_cycle.md R121, R133: in the invariant a step has a next state, or it stalls on a busy bit that is set, or RUN is not
RUNNING. The model's own stops (entries 4 and 8) do not arise. -/
def Obligations.InvariantStatesStopOnlyAsSpecified : Prop :=
  ∀ s : State, s.Inv → s.StopsOnlyAsSpecified

/-! ## Reset and the host -/

/-- 10_state.md R47: what reset leaves in every register, for every configuration. PI, SI and the slots are the source's;
PTR is the model's choice (entry 6); every other value is the spec's own decision (D33, D34, entry 14). -/
def Obligations.ResetValues : Prop :=
  ∀ (cfg : Config) (ext : Memory),
    let s := State.resetOf cfg ext
    s.pi = none ∧ s.si = none ∧ (∀ n, s.slot n = none) ∧ s.ext = ext ∧ s.mem = [] ∧ s.cfg = cfg ∧
    s.rm = ⟨word "00000", cfg.resetIc, .equal⟩ ∧ s.ioi = 0 ∧ s.ti = cfg.timerDefault ∧ s.mode = .supervisor ∧
    s.busy = 0 ∧ s.cur = none ∧ s.lastSlot = none ∧ s.svc = .none ∧ s.run = .running ∧ s.kbd = none ∧
    s.scr = none ∧ s.extPtr = 0 ∧ s.ptr = cfg.ptBase

/-- 70_reset_and_hazards.md R300 to R302 (D34, D43): the host's reset puts the image at address 0 upwards and every
register at its reset value, and keeps EXT or puts the lines the host supplies there; it refuses a configuration that
breaks 00_scope.md R8, an image longer than M and a text that is no Word. Refusing lines that are not 1000 of 10 Words is
the model's (entry 17). -/
def Obligations.HostResetLoadsTheImage : Prop :=
  ∀ (s : State) (cfg : Config) (image : List (List Byte)) (ext : Option (List (List (List Byte)))),
    (cfg.Ok → (∀ text ∈ image, IsWordText text) → image.length ≤ cfg.rmMemSize →
      (∀ lines, ext = some lines → IsExtText lines) →
      ∃ t, s.hostReset cfg image ext = .next t ∧ t = { State.resetOf cfg t.ext with mem := t.mem } ∧
        (∀ a text, image[a]? = some text → (t.readM a).chars = text) ∧
        (∀ a, image.length ≤ a → t.readM a = (State.resetOf cfg s.ext).readM a) ∧
        (ext = none → t.ext = s.ext) ∧
        (∀ lines p ws i text, ext = some lines → lines[p]? = some ws → ws[i]? = some text →
          (t.readExt p i).chars = text)) ∧
    (¬ cfg.Ok → s.hostReset cfg image ext = .refused .badConfiguration) ∧
    (cfg.Ok → (cfg.rmMemSize < image.length ∨ (∃ text ∈ image, ¬ IsWordText text) ∨
        ∃ lines, ext = some lines ∧ ¬ IsExtText lines) →
      s.hostReset cfg image ext = .refused .badImage)

/-- 10_state.md R31, R33 to R42, R46, 70_reset_and_hazards.md R302, R313 (D7, D32, D43): what the host reads between
steps, LAST_SLOT and SVC among it, and how it reads a line of EXT to persist it; its keyboard word replaces the pending
one and changes nothing else. Refusing a text that is no Word by name is the model's (entry 17). -/
def Obligations.HostReadsAndSetsTheKeyboard : Prop :=
  ∀ s : State,
    (s.view.rm = s.rm ∧ s.view.ti = s.ti ∧ s.view.mode = s.mode ∧ s.view.kbd = s.kbd ∧ s.view.scr = s.scr ∧
      s.view.lastSlot = s.lastSlot ∧ s.view.svc = s.svc ∧
      (s.view.pi, s.pi) ∈ [(0, none), (1, some .invAddress), (2, some .invOp), (3, some .overflow)] ∧
      (s.view.si, s.si) ∈ [(0, none), (1, some .gd), (2, some .pd), (3, some .rd), (4, some .wd), (5, some .sd),
        (6, some .halt)] ∧
      s.view.ioi = s.ioi.toNat ∧ s.view.busy = s.busy.toNat ∧
      (s.cur = none → s.view.current = none) ∧ ∀ n, s.cur = some n → s.view.current = s.slot n) ∧
    (∀ p, (s.extLineText p).length = 60 ∧ ∀ i < 10,
      ((s.extLineText p).drop (6 * i)).take 5 = (s.readExt p i).chars ∧
      (s.extLineText p)[6 * i + 5]? = some (charCode (if i = 9 then '\n' else ' '))) ∧
    (∀ text, IsWordText text → ∃ w : Word, w.chars = text ∧ s.setKeyboard text = .next { s with kbd := some w }) ∧
    (∀ text, ¬ IsWordText text → s.setKeyboard text = .refused .badKeyboardWord)
end

