-- ==== Sys2Proof/Laws/Memory.lean ====
section
/-! SUPPORT. What the memory operations do to each character and word, and that they keep the canonical form. -/

namespace Sys2Proof.Machine

open Sys2Proof

/-! ## One character -/

@[simp] theorem Memory.get?_nil (k : Nat) : Memory.get? [] k = none := rfl

@[simp] theorem Memory.get?_put (m : Memory) (k j : Nat) (b : Byte) :
    (m.put k b).get? j = if j = k then some b else m.get? j := by
  induction m with
  | nil => simp only [Memory.put, Memory.get?, eq_comm]
  | cons c m ih =>
    obtain ⟨a, d⟩ := c
    simp only [Memory.put]
    split
    · simp only [Memory.get?]; grind
    · split
      · subst_vars; simp only [Memory.get?]; grind
      · simp only [Memory.get?, ih]; grind

@[simp] theorem Memory.get?_del (m : Memory) (k j : Nat) :
    (m.del k).get? j = if j = k then none else m.get? j := by
  induction m with
  | nil => simp [Memory.del]
  | cons c m ih =>
    obtain ⟨a, d⟩ := c
    simp only [Memory.del]
    split
    · subst_vars; simp only [Memory.get?, ih]; grind
    · simp only [Memory.get?, ih]; grind

/-- Reading a character of M after storing one. -/
@[simp] theorem Memory.byte_put (m : Memory) (k j : Nat) (b : Byte) :
    (m.put k b).byte j = if j = k then b else m.byte j := by
  simp only [Memory.byte, Memory.get?_put]; split <;> rfl

/-- Reading a character of EXT after storing one. -/
@[simp] theorem Memory.extByte_extPut (m : Memory) (k j : Nat) (b : Byte) :
    (m.extPut k b).extByte j = if j = k then b else m.extByte j := by
  unfold Memory.extPut Memory.extByte
  split
  · simp only [Memory.get?_del]; split <;> simp_all
  · simp only [Memory.get?_put]; split <;> simp_all

/-! ## The canonical form -/

theorem Memory.mem_put {m : Memory} {k : Nat} {b : Byte} {c : Host.Cell} (h : c ∈ m.put k b) :
    c = (k, b) ∨ c ∈ m := by
  induction m with
  | nil => simpa [Memory.put] using h
  | cons d m ih =>
    obtain ⟨a, e⟩ := d
    simp only [Memory.put] at h
    split at h
    · simpa using h
    · split at h <;> simp only [List.mem_cons] at h ⊢ <;> tauto

theorem Memory.mem_del {m : Memory} {k : Nat} {c : Host.Cell} (h : c ∈ m.del k) : c ∈ m := by
  induction m with
  | nil => simp [Memory.del] at h
  | cons d m ih =>
    obtain ⟨a, e⟩ := d
    simp only [Memory.del] at h
    split at h
    · exact List.mem_cons_of_mem _ (ih h)
    · simp only [List.mem_cons] at h ⊢; tauto

theorem Memory.sorted_put {m : Memory} (h : m.Sorted) (k : Nat) (b : Byte) : (m.put k b).Sorted := by
  induction m with
  | nil => simp [Memory.put]
  | cons d m ih =>
    obtain ⟨a, e⟩ := d
    obtain ⟨hd, hm⟩ := List.pairwise_cons.mp h
    simp only [Memory.put]
    split
    · rename_i hk
      refine List.pairwise_cons.mpr ⟨fun c hc => ?_, h⟩
      rcases List.mem_cons.mp hc with rfl | hc
      · exact hk
      · exact hk.trans (hd c hc)
    · split
      · subst_vars; exact List.pairwise_cons.mpr ⟨hd, hm⟩
      · refine List.pairwise_cons.mpr ⟨fun c hc => ?_, ih hm⟩
        rcases Memory.mem_put hc with rfl | hc
        · simp only; omega
        · exact hd c hc

theorem Memory.sorted_del {m : Memory} (h : m.Sorted) (k : Nat) : (m.del k).Sorted := by
  induction m with
  | nil => simp [Memory.del]
  | cons d m ih =>
    obtain ⟨a, e⟩ := d
    obtain ⟨hd, hm⟩ := List.pairwise_cons.mp h
    simp only [Memory.del]
    split
    · exact ih hm
    · exact List.pairwise_cons.mpr ⟨fun c hc => hd c (Memory.mem_del hc), ih hm⟩

/-- Storing a character inside the index domain keeps the canonical form of M. -/
theorem Memory.wf_put {m : Memory} {size k : Nat} {b : Byte} (h : m.wf size) (hk : k < 5 * size) (hb : isAscii b) :
    (m.put k b).wf size := by
  refine ⟨Memory.sorted_put h.1 k b, fun c hc => ?_⟩
  rcases Memory.mem_put hc with rfl | hc
  · exact ⟨hk, hb⟩
  · exact h.2 c hc

/-- Storing a character inside the index domain keeps the canonical form of EXT. -/
theorem Memory.wfExt_extPut {m : Memory} {k : Nat} {b : Byte} (h : m.wfExt) (hk : k < 5 * (10 * Config.extLines))
    (hb : isAscii b) : (m.extPut k b).wfExt := by
  unfold Memory.extPut
  split
  · exact ⟨⟨Memory.sorted_del h.1.1 k, fun c hc => h.1.2 c (Memory.mem_del hc)⟩, fun c hc => h.2 c (Memory.mem_del hc)⟩
  · refine ⟨Memory.wf_put h.1 hk hb, fun c hc => ?_⟩
    rcases Memory.mem_put hc with rfl | hc
    · assumption
    · exact h.2 c hc

/-! ## One word -/

/-- The characters of a word stored through `put`: five keys change, every other reads as before. -/
theorem writeWord_read {put : Memory → Nat → Byte → Memory} {byte : Memory → Nat → Byte}
    (hput : ∀ m k j b, byte (put m k b) j = if j = k then b else byte m j) (m : Memory) (a j : Nat) (w : Word) :
    byte (writeWord put m a w) j =
      if j = 5 * a then w.c0 else if j = 5 * a + 1 then w.c1 else if j = 5 * a + 2 then w.c2
      else if j = 5 * a + 3 then w.c3 else if j = 5 * a + 4 then w.c4 else byte m j := by
  simp only [writeWord, hput]; grind

/-- Reading a word after writing one. -/
theorem readWord_writeWord {put : Memory → Nat → Byte → Memory} {byte : Memory → Nat → Byte}
    (hput : ∀ m k j b, byte (put m k b) j = if j = k then b else byte m j) (m : Memory) (a j : Nat) (w : Word) :
    readWord (byte (writeWord put m a w)) j = if j = a then w else readWord (byte m) j := by
  by_cases hj : j = a
  · subst hj; simp [readWord, writeWord_read hput]
  · have key : ∀ p < 5, byte (writeWord put m a w) (5 * j + p) = byte m (5 * j + p) := by
      intro p hp
      rw [writeWord_read hput]
      repeat' split
      all_goals first | omega | rfl
    simp [readWord, hj, key 1, key 2, key 3, key 4, show byte (writeWord put m a w) (5 * j) = _ from key 0 (by omega)]

@[simp] theorem State.readM_writeM (s : State) (a j : Nat) (w : Word) :
    (s.writeM a w).readM j = if j = a then w else s.readM j :=
  readWord_writeWord (fun m k j b => Memory.byte_put m k j b) s.mem a j w

/-- A character of M outside the five of the word written reads as before. -/
theorem State.writeM_byte_other (s : State) {a k : Nat} (w : Word) (h : k < 5 * a ∨ 5 * a + 5 ≤ k) :
    (s.writeM a w).mem.byte k = s.mem.byte k := by
  have := writeWord_read (fun m k j b => Memory.byte_put m k j b) s.mem a k w
  unfold State.writeM
  rw [this]
  repeat' split
  all_goals first | omega | rfl

theorem writeWord_wf {m : Memory} {size a : Nat} {w : Word} (h : m.wf size) (ha : a < size) (hw : w.Ascii) :
    (writeWord Memory.put m a w).wf size := by
  simp only [Word.Ascii, Word.chars, List.mem_cons, List.not_mem_nil, or_false, forall_eq_or_imp, forall_eq] at hw
  obtain ⟨h0, h1, h2, h3, h4⟩ := hw
  exact Memory.wf_put (Memory.wf_put (Memory.wf_put (Memory.wf_put (Memory.wf_put h (by omega) h0) (by omega) h1)
    (by omega) h2) (by omega) h3) (by omega) h4

theorem writeWord_wfExt {m : Memory} {i : Nat} {w : Word} (h : m.wfExt) (hi : i < 10 * Config.extLines)
    (hw : w.Ascii) : (writeWord Memory.extPut m i w).wfExt := by
  simp only [Word.Ascii, Word.chars, List.mem_cons, List.not_mem_nil, or_false, forall_eq_or_imp, forall_eq] at hw
  obtain ⟨h0, h1, h2, h3, h4⟩ := hw
  exact Memory.wfExt_extPut (Memory.wfExt_extPut (Memory.wfExt_extPut (Memory.wfExt_extPut (Memory.wfExt_extPut h
    (by omega) h0) (by omega) h1) (by omega) h2) (by omega) h3) (by omega) h4

/-! ## Blocks of words -/

/-- `writeWords` stores word i of the list at `a + i` and leaves every other word alone. -/
theorem State.readM_writeWords (s : State) (a j : Nat) (ws : List Word) :
    (s.writeWords a ws).readM j = if a ≤ j then (ws[j - a]?).getD (s.readM j) else s.readM j := by
  induction ws generalizing s a with
  | nil => simp [State.writeWords]
  | cons w ws ih =>
    rw [State.writeWords, ih, State.readM_writeM]
    rcases Nat.lt_trichotomy j a with h | h | h
    · grind
    · grind
    · have : j - a = (j - (a + 1)) + 1 := by omega
      grind

theorem State.writeWords_eq (s : State) (a : Nat) (ws : List Word) :
    s.writeWords a ws = { s with mem := (s.writeWords a ws).mem } := by
  induction ws generalizing s a with
  | nil => rfl
  | cons w ws ih => rw [State.writeWords, ih]; rfl

theorem State.writeWords_wf {s : State} {a size : Nat} {ws : List Word} (h : s.mem.wf size) (ha : a + ws.length ≤ size)
    (hw : ∀ w ∈ ws, w.Ascii) : (s.writeWords a ws).mem.wf size := by
  induction ws generalizing s a with
  | nil => exact h
  | cons w ws ih =>
    simp only [List.length_cons] at ha
    exact ih (s := s.writeM a w) (writeWord_wf h (by omega) (hw w (by simp))) (by omega)
      fun v hv => hw v (List.mem_cons_of_mem _ hv)

/-- A block write leaves every character outside the block as it was. -/
theorem State.writeWords_byte_other (s : State) (a : Nat) (ws : List Word) {k : Nat}
    (h : k < 5 * a ∨ 5 * (a + ws.length) ≤ k) : (s.writeWords a ws).mem.byte k = s.mem.byte k := by
  induction ws generalizing s a with
  | nil => rfl
  | cons w ws ih =>
    rw [List.length_cons] at h
    exact (ih (s.writeM a w) (a + 1) (by omega)).trans (State.writeM_byte_other _ _ (by omega))

/-- What `memWrite` can do: it writes the words that fit and says whether all did (20_memory.md R65). -/
theorem State.memWrite_eq (s : State) (a : Nat) (ws : List Word) :
    s.memWrite a ws =
      (s.writeWords a (ws.take (s.cfg.rmMemSize - a)), decide (ws = [] ∨ a + ws.length ≤ s.cfg.rmMemSize)) := by
  induction ws generalizing s a with
  | nil => simp [State.memWrite, State.writeWords]
  | cons w ws ih =>
    rw [State.memWrite]
    split
    · rename_i h
      have hk : s.cfg.rmMemSize - a = (s.cfg.rmMemSize - (a + 1)) + 1 := by omega
      rw [ih, hk, List.take_succ_cons, State.writeWords]
      have hc : (s.writeM a w).cfg = s.cfg := rfl
      rw [hc]
      congr 1
      simp only [decide_eq_decide, List.length_cons, reduceCtorEq, false_or]
      constructor
      · rintro (rfl | h')
        · simp; omega
        · omega
      · intro h'; right; omega
    · rename_i h
      have hk : s.cfg.rmMemSize - a = 0 := by omega
      simp [hk, State.writeWords]; omega

/-- `memRead` gives the words, or nothing unless the whole block is inside M (20_memory.md R64). -/
theorem State.memRead_eq_some (s : State) (a n : Nat) (vs : List Word) :
    s.memRead a n = some vs ↔ (n = 0 ∨ a + n ≤ s.cfg.rmMemSize) ∧ vs = (List.range n).map fun i => s.readM (a + i) := by
  unfold State.memRead; split <;> simp_all [eq_comm]

theorem State.memRead_eq_none (s : State) (a n : Nat) :
    s.memRead a n = none ↔ n ≠ 0 ∧ s.cfg.rmMemSize < a + n := by
  unfold State.memRead
  split
  · simp only [reduceCtorEq, false_iff]; omega
  · simp only [true_iff]; omega

/-! ## External memory -/

theorem Memory.readExt_writeExtWords (m : Memory) (i j : Nat) (ws : List Word) :
    readWord (m.writeExtWords i ws).extByte j =
      if i ≤ j then (ws[j - i]?).getD (readWord m.extByte j) else readWord m.extByte j := by
  induction ws generalizing m i with
  | nil => simp [Memory.writeExtWords]
  | cons w ws ih =>
    rw [Memory.writeExtWords, ih, readWord_writeWord (fun m k j b => Memory.extByte_extPut m k j b)]
    rcases Nat.lt_trichotomy j i with h | h | h
    · grind
    · grind
    · have : j - i = (j - (i + 1)) + 1 := by omega
      grind

/-- Writing a line of ten words changes that line alone (44_channel_io.md R195). -/
theorem State.readExt_writeExtLine (s : State) (p q i : Nat) (vs : List Word) (hv : vs.length = 10) (hi : i < 10) :
    (s.writeExtLine p vs).readExt q i = if q = p then vs.getD i default else s.readExt q i := by
  unfold State.readExt State.writeExtLine
  rw [Memory.readExt_writeExtWords]
  split
  · split
    · have : 10 * q + i - 10 * p = i := by omega
      rw [this]
      have : i < vs.length := by omega
      simp [this]
    · have : vs.length ≤ 10 * q + i - 10 * p := by omega
      simp [List.getElem?_eq_none this]
  · split
    · omega
    · rfl

theorem Memory.writeExtWords_wfExt {m : Memory} {i : Nat} {ws : List Word} (h : m.wfExt)
    (hi : i + ws.length ≤ 10 * Config.extLines) (hw : ∀ w ∈ ws, w.Ascii) : (m.writeExtWords i ws).wfExt := by
  induction ws generalizing m i with
  | nil => exact h
  | cons w ws ih =>
    simp only [List.length_cons] at hi
    exact ih (writeWord_wfExt h (by omega) (hw w (by simp))) (by omega) fun v hv => hw v (List.mem_cons_of_mem _ hv)

/-! ## Characters read are ASCII -/

theorem Memory.get?_mem {m : Memory} {k : Nat} {b : Byte} (h : m.get? k = some b) : (k, b) ∈ m := by
  induction m with
  | nil => simp at h
  | cons d m ih =>
    obtain ⟨a, e⟩ := d
    simp only [Memory.get?] at h
    split at h
    · simp_all
    · exact List.mem_cons_of_mem _ (ih h)

theorem unlistedByte_ascii (k : Nat) : isAscii (unlistedByte k) := by
  have := (Config.freeChar k).isLt
  simp only [isAscii, unlistedByte, BitVec.toNat_setWidth]; omega

theorem Memory.byte_ascii {m : Memory} (h : ∀ c ∈ m, isAscii c.2) (k : Nat) : isAscii (m.byte k) := by
  unfold Memory.byte
  cases hg : m.get? k with
  | none => exact unlistedByte_ascii k
  | some b => exact h _ (Memory.get?_mem hg)

theorem Memory.extByte_ascii {m : Memory} (h : ∀ c ∈ m, isAscii c.2) (k : Nat) : isAscii (m.extByte k) := by
  unfold Memory.extByte
  cases hg : m.get? k with
  | none => decide
  | some b => exact h _ (Memory.get?_mem hg)

theorem readWord_ascii {byte : Nat → Byte} (h : ∀ k, isAscii (byte k)) (a : Nat) : (readWord byte a).Ascii := by
  simp [Word.Ascii, Word.chars, readWord, h]

theorem State.readM_ascii {s : State} {size : Nat} (h : s.mem.wf size) (a : Nat) : (s.readM a).Ascii :=
  readWord_ascii (Memory.byte_ascii fun c hc => (h.2 c hc).2) a

theorem State.readExt_ascii {s : State} (h : s.ext.wfExt) (p i : Nat) : (s.readExt p i).Ascii :=
  readWord_ascii (Memory.extByte_ascii fun c hc => (h.1.2 c hc).2) _

end Sys2Proof.Machine
end

