-- ==== Sys2Proof/Laws/Numbers.lean ====
section
/-! SUPPORT. Digits, numbers and their texts: reading back what `digitChar`, `pad5` and `saveWord` wrote. -/

namespace Sys2Proof.Machine

open Sys2Proof

/-! ## Digits -/

theorem digitChar_toNat {d : Nat} (h : d ≤ 9) : (digitChar d).toNat = 48 + d := by
  simp only [digitChar, BitVec.toNat_ofNat]; omega

@[simp] theorem isDigit_digitChar {d : Nat} (h : d ≤ 9) : isDigit (digitChar d) = true := by
  simp only [isDigit, digitChar_toNat h, Bool.and_eq_true, decide_eq_true_eq]; omega

@[simp] theorem digitVal_digitChar {d : Nat} (h : d ≤ 9) : digitVal (digitChar d) = d := by
  simp only [digitVal, digitChar_toNat h]; omega

theorem digitVal_le {b : Byte} (h : isDigit b = true) : digitVal b ≤ 9 := by
  simp only [isDigit, Bool.and_eq_true, decide_eq_true_eq] at h
  simp only [digitVal]; omega

theorem digitChar_digitVal {b : Byte} (h : isDigit b = true) : digitChar (digitVal b) = b := by
  have hd := digitVal_le h
  simp only [isDigit, Bool.and_eq_true, decide_eq_true_eq] at h
  apply BitVec.eq_of_toNat_eq
  rw [digitChar_toNat hd]
  simp only [digitVal]; omega

theorem digitChar_ascii {d : Nat} (h : d ≤ 9) : isAscii (digitChar d) := by
  simp only [isAscii, digitChar_toNat h]; omega

theorem isAscii_of_isDigit {b : Byte} (h : isDigit b = true) : isAscii b := by
  simp only [isDigit, Bool.and_eq_true, decide_eq_true_eq] at h
  simp only [isAscii]; omega

/-! ## Five digits -/

theorem isnum_iff (w : Word) : isnum w = true ↔
    isDigit w.c0 = true ∧ isDigit w.c1 = true ∧ isDigit w.c2 = true ∧ isDigit w.c3 = true ∧ isDigit w.c4 = true := by
  simp [isnum, Word.chars]

theorem num_eq (w : Word) : num w =
    10000 * digitVal w.c0 + 1000 * digitVal w.c1 + 100 * digitVal w.c2 + 10 * digitVal w.c3 + digitVal w.c4 := by
  simp only [num, numChars, Word.chars, List.foldl_cons, List.foldl_nil]; omega

theorem num_le {w : Word} (h : isnum w = true) : num w ≤ 99999 := by
  obtain ⟨h0, h1, h2, h3, h4⟩ := (isnum_iff w).mp h
  have := digitVal_le h0
  have := digitVal_le h1
  have := digitVal_le h2
  have := digitVal_le h3
  have := digitVal_le h4
  rw [num_eq]; omega

theorem pad5_of_le {v : Nat} (h : v ≤ 99999) : pad5 v =
    ⟨digitChar (v / 10000), digitChar (v / 1000 % 10), digitChar (v / 100 % 10), digitChar (v / 10 % 10),
     digitChar (v % 10)⟩ := by
  simp [pad5, h]

@[simp] theorem isnum_pad5 {v : Nat} (h : v ≤ 99999) : isnum (pad5 v) = true := by
  rw [isnum_iff, pad5_of_le h]
  refine ⟨isDigit_digitChar ?_, isDigit_digitChar ?_, isDigit_digitChar ?_, isDigit_digitChar ?_, isDigit_digitChar ?_⟩
    <;> omega

@[simp] theorem num_pad5 {v : Nat} (h : v ≤ 99999) : num (pad5 v) = v := by
  rw [num_eq, pad5_of_le h]
  simp only
  rw [digitVal_digitChar (by omega), digitVal_digitChar (by omega), digitVal_digitChar (by omega),
    digitVal_digitChar (by omega), digitVal_digitChar (by omega)]
  omega

/-- A word of five digits is the text of its number. -/
theorem pad5_num {w : Word} (h : isnum w = true) : pad5 (num w) = w := by
  obtain ⟨h0, h1, h2, h3, h4⟩ := (isnum_iff w).mp h
  have e := num_eq w
  have := digitVal_le h0
  have := digitVal_le h1
  have := digitVal_le h2
  have := digitVal_le h3
  have := digitVal_le h4
  rw [pad5_of_le (num_le h)]
  have e0 : num w / 10000 = digitVal w.c0 := by omega
  have e1 : num w / 1000 % 10 = digitVal w.c1 := by omega
  have e2 : num w / 100 % 10 = digitVal w.c2 := by omega
  have e3 : num w / 10 % 10 = digitVal w.c3 := by omega
  have e4 : num w % 10 = digitVal w.c4 := by omega
  rw [e0, e1, e2, e3, e4, digitChar_digitVal h0, digitChar_digitVal h1, digitChar_digitVal h2, digitChar_digitVal h3,
    digitChar_digitVal h4]

theorem Word.ascii_iff (w : Word) :
    w.Ascii ↔ isAscii w.c0 ∧ isAscii w.c1 ∧ isAscii w.c2 ∧ isAscii w.c3 ∧ isAscii w.c4 := by
  simp [Word.Ascii, Word.chars]

theorem freeWord_ascii (v : Nat) : (freeWord v).Ascii := by
  have h : ∀ b : BitVec 7, isAscii (b.setWidth 8) := by
    intro b; have := b.isLt; simp only [isAscii, BitVec.toNat_setWidth]; omega
  exact (Word.ascii_iff _).mpr ⟨h _, h _, h _, h _, h _⟩

theorem pad5_ascii (v : Nat) : (pad5 v).Ascii := by
  unfold pad5
  split
  · rw [Word.ascii_iff]
    refine ⟨digitChar_ascii ?_, digitChar_ascii ?_, digitChar_ascii ?_, digitChar_ascii ?_, digitChar_ascii ?_⟩ <;> omega
  · exact freeWord_ascii v

/-! ## The save area -/

@[simp] theorem Cmp.ofCode_code (c : Cmp) : Cmp.ofCode c.code = some c := by cases c <;> rfl

theorem Cmp.code_le (c : Cmp) : c.code ≤ 2 := by cases c <;> decide

/-- A bank saved and restored with nothing written between is unchanged (45_system.md R229). -/
theorem bankOfSave_saveWord {b : Bank} (h : b.ic ≤ 99) : bankOfSave b.tmp (saveWord b) = some b := by
  have hc := b.c.code_le
  have h0 : b.ic / 10 ≤ 9 := by omega
  have h1 : b.ic % 10 ≤ 9 := by omega
  have h2 : b.c.code ≤ 9 := by omega
  simp only [bankOfSave, saveWord, pad2Tens, pad2Units, isDigit_digitChar h0, isDigit_digitChar h1,
    isDigit_digitChar h2, digitVal_digitChar h2, Cmp.ofCode_code, Bool.and_self, if_true, Option.map_some, numChars,
    List.foldl_cons, List.foldl_nil, digitVal_digitChar h0, digitVal_digitChar h1]
  have : 10 * (10 * 0 + b.ic / 10) + b.ic % 10 = b.ic := by omega
  rw [this]

theorem saveWord_ascii {b : Bank} (h : b.ic ≤ 99) : (saveWord b).Ascii := by
  have hc := b.c.code_le
  rw [Word.ascii_iff]
  refine ⟨digitChar_ascii ?_, digitChar_ascii ?_, digitChar_ascii ?_, ?_, ?_⟩
  · omega
  · omega
  · omega
  · show isAscii zeroChar; decide
  · show isAscii zeroChar; decide

/-- What `bankOfSave` gives: the text of `w0`, an IC of two digits (45_system.md R229). -/
theorem bankOfSave_eq_some {w0 w1 : Word} {b : Bank} (h : bankOfSave w0 w1 = some b) : b.tmp = w0 ∧ b.ic ≤ 99 := by
  unfold bankOfSave at h
  split at h
  · rename_i hd
    simp only [Bool.and_eq_true] at hd
    obtain ⟨c, -, rfl⟩ := Option.map_eq_some_iff.mp h
    have := digitVal_le hd.1.1
    have := digitVal_le hd.1.2
    refine ⟨rfl, ?_⟩
    simp only [numChars, List.foldl_cons, List.foldl_nil]; omega
  · simp at h

theorem argument_le {x y z : Nat} (h : x ≤ 9 ∧ y ≤ 9 ∧ z ≤ 9) : x * 100 + y * 10 + z ≤ 999 := by omega

end Sys2Proof.Machine
end

