-- ==== Sys2Proof/Laws/State.lean ====
section
/-! SUPPORT. One lemma per field per named update of State, each true by rfl, and the slot and word reads through them. -/

namespace Sys2Proof.Machine

open Sys2Proof

/-! ## writeM -/

@[simp] theorem State.writeM_cfg (s : State) (a : Nat) (w : Word) : (s.writeM a w).cfg = s.cfg := rfl
@[simp] theorem State.writeM_mem (s : State) (a : Nat) (w : Word) : (s.writeM a w).mem = writeWord Memory.put s.mem a w := rfl
@[simp] theorem State.writeM_rm (s : State) (a : Nat) (w : Word) : (s.writeM a w).rm = s.rm := rfl
@[simp] theorem State.writeM_ptr (s : State) (a : Nat) (w : Word) : (s.writeM a w).ptr = s.ptr := rfl
@[simp] theorem State.writeM_pi (s : State) (a : Nat) (w : Word) : (s.writeM a w).pi = s.pi := rfl
@[simp] theorem State.writeM_si (s : State) (a : Nat) (w : Word) : (s.writeM a w).si = s.si := rfl
@[simp] theorem State.writeM_ioi (s : State) (a : Nat) (w : Word) : (s.writeM a w).ioi = s.ioi := rfl
@[simp] theorem State.writeM_ti (s : State) (a : Nat) (w : Word) : (s.writeM a w).ti = s.ti := rfl
@[simp] theorem State.writeM_mode (s : State) (a : Nat) (w : Word) : (s.writeM a w).mode = s.mode := rfl
@[simp] theorem State.writeM_busy (s : State) (a : Nat) (w : Word) : (s.writeM a w).busy = s.busy := rfl
@[simp] theorem State.writeM_slots (s : State) (a : Nat) (w : Word) : (s.writeM a w).slots = s.slots := rfl
@[simp] theorem State.writeM_cur (s : State) (a : Nat) (w : Word) : (s.writeM a w).cur = s.cur := rfl
@[simp] theorem State.writeM_lastSlot (s : State) (a : Nat) (w : Word) : (s.writeM a w).lastSlot = s.lastSlot := rfl
@[simp] theorem State.writeM_svc (s : State) (a : Nat) (w : Word) : (s.writeM a w).svc = s.svc := rfl
@[simp] theorem State.writeM_run (s : State) (a : Nat) (w : Word) : (s.writeM a w).run = s.run := rfl
@[simp] theorem State.writeM_kbd (s : State) (a : Nat) (w : Word) : (s.writeM a w).kbd = s.kbd := rfl
@[simp] theorem State.writeM_scr (s : State) (a : Nat) (w : Word) : (s.writeM a w).scr = s.scr := rfl
@[simp] theorem State.writeM_ext (s : State) (a : Nat) (w : Word) : (s.writeM a w).ext = s.ext := rfl
@[simp] theorem State.writeM_extPtr (s : State) (a : Nat) (w : Word) : (s.writeM a w).extPtr = s.extPtr := rfl
@[simp] theorem State.writeM_slot (s : State) (a : Nat) (w : Word) (k : Nat) : (s.writeM a w).slot k = s.slot k := rfl
@[simp] theorem State.writeM_readExt (s : State) (a : Nat) (w : Word) (p' i' : Nat) : (s.writeM a w).readExt p' i' = s.readExt p' i' := rfl

/-! ## writeExtLine -/

@[simp] theorem State.writeExtLine_cfg (s : State) (p : Nat) (vs : List Word) : (s.writeExtLine p vs).cfg = s.cfg := rfl
@[simp] theorem State.writeExtLine_mem (s : State) (p : Nat) (vs : List Word) : (s.writeExtLine p vs).mem = s.mem := rfl
@[simp] theorem State.writeExtLine_rm (s : State) (p : Nat) (vs : List Word) : (s.writeExtLine p vs).rm = s.rm := rfl
@[simp] theorem State.writeExtLine_ptr (s : State) (p : Nat) (vs : List Word) : (s.writeExtLine p vs).ptr = s.ptr := rfl
@[simp] theorem State.writeExtLine_pi (s : State) (p : Nat) (vs : List Word) : (s.writeExtLine p vs).pi = s.pi := rfl
@[simp] theorem State.writeExtLine_si (s : State) (p : Nat) (vs : List Word) : (s.writeExtLine p vs).si = s.si := rfl
@[simp] theorem State.writeExtLine_ioi (s : State) (p : Nat) (vs : List Word) : (s.writeExtLine p vs).ioi = s.ioi := rfl
@[simp] theorem State.writeExtLine_ti (s : State) (p : Nat) (vs : List Word) : (s.writeExtLine p vs).ti = s.ti := rfl
@[simp] theorem State.writeExtLine_mode (s : State) (p : Nat) (vs : List Word) : (s.writeExtLine p vs).mode = s.mode := rfl
@[simp] theorem State.writeExtLine_busy (s : State) (p : Nat) (vs : List Word) : (s.writeExtLine p vs).busy = s.busy := rfl
@[simp] theorem State.writeExtLine_slots (s : State) (p : Nat) (vs : List Word) : (s.writeExtLine p vs).slots = s.slots := rfl
@[simp] theorem State.writeExtLine_cur (s : State) (p : Nat) (vs : List Word) : (s.writeExtLine p vs).cur = s.cur := rfl
@[simp] theorem State.writeExtLine_lastSlot (s : State) (p : Nat) (vs : List Word) : (s.writeExtLine p vs).lastSlot = s.lastSlot := rfl
@[simp] theorem State.writeExtLine_svc (s : State) (p : Nat) (vs : List Word) : (s.writeExtLine p vs).svc = s.svc := rfl
@[simp] theorem State.writeExtLine_run (s : State) (p : Nat) (vs : List Word) : (s.writeExtLine p vs).run = s.run := rfl
@[simp] theorem State.writeExtLine_kbd (s : State) (p : Nat) (vs : List Word) : (s.writeExtLine p vs).kbd = s.kbd := rfl
@[simp] theorem State.writeExtLine_scr (s : State) (p : Nat) (vs : List Word) : (s.writeExtLine p vs).scr = s.scr := rfl
@[simp] theorem State.writeExtLine_ext (s : State) (p : Nat) (vs : List Word) : (s.writeExtLine p vs).ext = s.ext.writeExtWords (10 * p) vs := rfl
@[simp] theorem State.writeExtLine_extPtr (s : State) (p : Nat) (vs : List Word) : (s.writeExtLine p vs).extPtr = s.extPtr := rfl
@[simp] theorem State.writeExtLine_slot (s : State) (p : Nat) (vs : List Word) (k : Nat) : (s.writeExtLine p vs).slot k = s.slot k := rfl
@[simp] theorem State.writeExtLine_readM (s : State) (p : Nat) (vs : List Word) (k : Nat) : (s.writeExtLine p vs).readM k = s.readM k := rfl

/-! ## setSlot -/

@[simp] theorem State.setSlot_cfg (s : State) (n : Nat) (b : Option Bank) : (s.setSlot n b).cfg = s.cfg := rfl
@[simp] theorem State.setSlot_mem (s : State) (n : Nat) (b : Option Bank) : (s.setSlot n b).mem = s.mem := rfl
@[simp] theorem State.setSlot_rm (s : State) (n : Nat) (b : Option Bank) : (s.setSlot n b).rm = s.rm := rfl
@[simp] theorem State.setSlot_ptr (s : State) (n : Nat) (b : Option Bank) : (s.setSlot n b).ptr = s.ptr := rfl
@[simp] theorem State.setSlot_pi (s : State) (n : Nat) (b : Option Bank) : (s.setSlot n b).pi = s.pi := rfl
@[simp] theorem State.setSlot_si (s : State) (n : Nat) (b : Option Bank) : (s.setSlot n b).si = s.si := rfl
@[simp] theorem State.setSlot_ioi (s : State) (n : Nat) (b : Option Bank) : (s.setSlot n b).ioi = s.ioi := rfl
@[simp] theorem State.setSlot_ti (s : State) (n : Nat) (b : Option Bank) : (s.setSlot n b).ti = s.ti := rfl
@[simp] theorem State.setSlot_mode (s : State) (n : Nat) (b : Option Bank) : (s.setSlot n b).mode = s.mode := rfl
@[simp] theorem State.setSlot_busy (s : State) (n : Nat) (b : Option Bank) : (s.setSlot n b).busy = s.busy := rfl
@[simp] theorem State.setSlot_slots (s : State) (n : Nat) (b : Option Bank) : (s.setSlot n b).slots = s.slots.setIfInBounds n b := rfl
@[simp] theorem State.setSlot_cur (s : State) (n : Nat) (b : Option Bank) : (s.setSlot n b).cur = s.cur := rfl
@[simp] theorem State.setSlot_lastSlot (s : State) (n : Nat) (b : Option Bank) : (s.setSlot n b).lastSlot = s.lastSlot := rfl
@[simp] theorem State.setSlot_svc (s : State) (n : Nat) (b : Option Bank) : (s.setSlot n b).svc = s.svc := rfl
@[simp] theorem State.setSlot_run (s : State) (n : Nat) (b : Option Bank) : (s.setSlot n b).run = s.run := rfl
@[simp] theorem State.setSlot_kbd (s : State) (n : Nat) (b : Option Bank) : (s.setSlot n b).kbd = s.kbd := rfl
@[simp] theorem State.setSlot_scr (s : State) (n : Nat) (b : Option Bank) : (s.setSlot n b).scr = s.scr := rfl
@[simp] theorem State.setSlot_ext (s : State) (n : Nat) (b : Option Bank) : (s.setSlot n b).ext = s.ext := rfl
@[simp] theorem State.setSlot_extPtr (s : State) (n : Nat) (b : Option Bank) : (s.setSlot n b).extPtr = s.extPtr := rfl
@[simp] theorem State.setSlot_readM (s : State) (n : Nat) (b : Option Bank) (k : Nat) : (s.setSlot n b).readM k = s.readM k := rfl
@[simp] theorem State.setSlot_readExt (s : State) (n : Nat) (b : Option Bank) (p' i' : Nat) : (s.setSlot n b).readExt p' i' = s.readExt p' i' := rfl

/-! ## advanceRm -/

@[simp] theorem State.advanceRm_cfg (s : State) : (s.advanceRm).cfg = s.cfg := rfl
@[simp] theorem State.advanceRm_mem (s : State) : (s.advanceRm).mem = s.mem := rfl
@[simp] theorem State.advanceRm_rm (s : State) : (s.advanceRm).rm = s.rm.advance := rfl
@[simp] theorem State.advanceRm_ptr (s : State) : (s.advanceRm).ptr = s.ptr := rfl
@[simp] theorem State.advanceRm_pi (s : State) : (s.advanceRm).pi = s.pi := rfl
@[simp] theorem State.advanceRm_si (s : State) : (s.advanceRm).si = s.si := rfl
@[simp] theorem State.advanceRm_ioi (s : State) : (s.advanceRm).ioi = s.ioi := rfl
@[simp] theorem State.advanceRm_ti (s : State) : (s.advanceRm).ti = s.ti := rfl
@[simp] theorem State.advanceRm_mode (s : State) : (s.advanceRm).mode = s.mode := rfl
@[simp] theorem State.advanceRm_busy (s : State) : (s.advanceRm).busy = s.busy := rfl
@[simp] theorem State.advanceRm_slots (s : State) : (s.advanceRm).slots = s.slots := rfl
@[simp] theorem State.advanceRm_cur (s : State) : (s.advanceRm).cur = s.cur := rfl
@[simp] theorem State.advanceRm_lastSlot (s : State) : (s.advanceRm).lastSlot = s.lastSlot := rfl
@[simp] theorem State.advanceRm_svc (s : State) : (s.advanceRm).svc = s.svc := rfl
@[simp] theorem State.advanceRm_run (s : State) : (s.advanceRm).run = s.run := rfl
@[simp] theorem State.advanceRm_kbd (s : State) : (s.advanceRm).kbd = s.kbd := rfl
@[simp] theorem State.advanceRm_scr (s : State) : (s.advanceRm).scr = s.scr := rfl
@[simp] theorem State.advanceRm_ext (s : State) : (s.advanceRm).ext = s.ext := rfl
@[simp] theorem State.advanceRm_extPtr (s : State) : (s.advanceRm).extPtr = s.extPtr := rfl
@[simp] theorem State.advanceRm_slot (s : State) (k : Nat) : (s.advanceRm).slot k = s.slot k := rfl
@[simp] theorem State.advanceRm_readM (s : State) (k : Nat) : (s.advanceRm).readM k = s.readM k := rfl
@[simp] theorem State.advanceRm_readExt (s : State) (p' i' : Nat) : (s.advanceRm).readExt p' i' = s.readExt p' i' := rfl

/-! ## markBusy -/

@[simp] theorem State.markBusy_cfg (s : State) (ch : Channel) : (s.markBusy ch).cfg = s.cfg := rfl
@[simp] theorem State.markBusy_mem (s : State) (ch : Channel) : (s.markBusy ch).mem = s.mem := rfl
@[simp] theorem State.markBusy_rm (s : State) (ch : Channel) : (s.markBusy ch).rm = s.rm := rfl
@[simp] theorem State.markBusy_ptr (s : State) (ch : Channel) : (s.markBusy ch).ptr = s.ptr := rfl
@[simp] theorem State.markBusy_pi (s : State) (ch : Channel) : (s.markBusy ch).pi = s.pi := rfl
@[simp] theorem State.markBusy_si (s : State) (ch : Channel) : (s.markBusy ch).si = s.si := rfl
@[simp] theorem State.markBusy_ioi (s : State) (ch : Channel) : (s.markBusy ch).ioi = s.ioi := rfl
@[simp] theorem State.markBusy_ti (s : State) (ch : Channel) : (s.markBusy ch).ti = s.ti := rfl
@[simp] theorem State.markBusy_mode (s : State) (ch : Channel) : (s.markBusy ch).mode = s.mode := rfl
@[simp] theorem State.markBusy_busy (s : State) (ch : Channel) : (s.markBusy ch).busy = s.busy ||| ch.mask := rfl
@[simp] theorem State.markBusy_slots (s : State) (ch : Channel) : (s.markBusy ch).slots = s.slots := rfl
@[simp] theorem State.markBusy_cur (s : State) (ch : Channel) : (s.markBusy ch).cur = s.cur := rfl
@[simp] theorem State.markBusy_lastSlot (s : State) (ch : Channel) : (s.markBusy ch).lastSlot = s.lastSlot := rfl
@[simp] theorem State.markBusy_svc (s : State) (ch : Channel) : (s.markBusy ch).svc = s.svc := rfl
@[simp] theorem State.markBusy_run (s : State) (ch : Channel) : (s.markBusy ch).run = s.run := rfl
@[simp] theorem State.markBusy_kbd (s : State) (ch : Channel) : (s.markBusy ch).kbd = s.kbd := rfl
@[simp] theorem State.markBusy_scr (s : State) (ch : Channel) : (s.markBusy ch).scr = s.scr := rfl
@[simp] theorem State.markBusy_ext (s : State) (ch : Channel) : (s.markBusy ch).ext = s.ext := rfl
@[simp] theorem State.markBusy_extPtr (s : State) (ch : Channel) : (s.markBusy ch).extPtr = s.extPtr := rfl
@[simp] theorem State.markBusy_slot (s : State) (ch : Channel) (k : Nat) : (s.markBusy ch).slot k = s.slot k := rfl
@[simp] theorem State.markBusy_readM (s : State) (ch : Channel) (k : Nat) : (s.markBusy ch).readM k = s.readM k := rfl
@[simp] theorem State.markBusy_readExt (s : State) (ch : Channel) (p' i' : Nat) : (s.markBusy ch).readExt p' i' = s.readExt p' i' := rfl

/-! ## clearBusy -/

@[simp] theorem State.clearBusy_cfg (s : State) (ch : Channel) : (s.clearBusy ch).cfg = s.cfg := rfl
@[simp] theorem State.clearBusy_mem (s : State) (ch : Channel) : (s.clearBusy ch).mem = s.mem := rfl
@[simp] theorem State.clearBusy_rm (s : State) (ch : Channel) : (s.clearBusy ch).rm = s.rm := rfl
@[simp] theorem State.clearBusy_ptr (s : State) (ch : Channel) : (s.clearBusy ch).ptr = s.ptr := rfl
@[simp] theorem State.clearBusy_pi (s : State) (ch : Channel) : (s.clearBusy ch).pi = s.pi := rfl
@[simp] theorem State.clearBusy_si (s : State) (ch : Channel) : (s.clearBusy ch).si = s.si := rfl
@[simp] theorem State.clearBusy_ioi (s : State) (ch : Channel) : (s.clearBusy ch).ioi = s.ioi := rfl
@[simp] theorem State.clearBusy_ti (s : State) (ch : Channel) : (s.clearBusy ch).ti = s.ti := rfl
@[simp] theorem State.clearBusy_mode (s : State) (ch : Channel) : (s.clearBusy ch).mode = s.mode := rfl
@[simp] theorem State.clearBusy_busy (s : State) (ch : Channel) : (s.clearBusy ch).busy = s.busy &&& ~~~ ch.mask := rfl
@[simp] theorem State.clearBusy_slots (s : State) (ch : Channel) : (s.clearBusy ch).slots = s.slots := rfl
@[simp] theorem State.clearBusy_cur (s : State) (ch : Channel) : (s.clearBusy ch).cur = s.cur := rfl
@[simp] theorem State.clearBusy_lastSlot (s : State) (ch : Channel) : (s.clearBusy ch).lastSlot = s.lastSlot := rfl
@[simp] theorem State.clearBusy_svc (s : State) (ch : Channel) : (s.clearBusy ch).svc = s.svc := rfl
@[simp] theorem State.clearBusy_run (s : State) (ch : Channel) : (s.clearBusy ch).run = s.run := rfl
@[simp] theorem State.clearBusy_kbd (s : State) (ch : Channel) : (s.clearBusy ch).kbd = s.kbd := rfl
@[simp] theorem State.clearBusy_scr (s : State) (ch : Channel) : (s.clearBusy ch).scr = s.scr := rfl
@[simp] theorem State.clearBusy_ext (s : State) (ch : Channel) : (s.clearBusy ch).ext = s.ext := rfl
@[simp] theorem State.clearBusy_extPtr (s : State) (ch : Channel) : (s.clearBusy ch).extPtr = s.extPtr := rfl
@[simp] theorem State.clearBusy_slot (s : State) (ch : Channel) (k : Nat) : (s.clearBusy ch).slot k = s.slot k := rfl
@[simp] theorem State.clearBusy_readM (s : State) (ch : Channel) (k : Nat) : (s.clearBusy ch).readM k = s.readM k := rfl
@[simp] theorem State.clearBusy_readExt (s : State) (ch : Channel) (p' i' : Nat) : (s.clearBusy ch).readExt p' i' = s.readExt p' i' := rfl

/-! ## raiseIo -/

@[simp] theorem State.raiseIo_cfg (s : State) (ch : Channel) : (s.raiseIo ch).cfg = s.cfg := rfl
@[simp] theorem State.raiseIo_mem (s : State) (ch : Channel) : (s.raiseIo ch).mem = s.mem := rfl
@[simp] theorem State.raiseIo_rm (s : State) (ch : Channel) : (s.raiseIo ch).rm = s.rm := rfl
@[simp] theorem State.raiseIo_ptr (s : State) (ch : Channel) : (s.raiseIo ch).ptr = s.ptr := rfl
@[simp] theorem State.raiseIo_pi (s : State) (ch : Channel) : (s.raiseIo ch).pi = s.pi := rfl
@[simp] theorem State.raiseIo_si (s : State) (ch : Channel) : (s.raiseIo ch).si = s.si := rfl
@[simp] theorem State.raiseIo_ioi (s : State) (ch : Channel) : (s.raiseIo ch).ioi = s.ioi ||| ch.mask := rfl
@[simp] theorem State.raiseIo_ti (s : State) (ch : Channel) : (s.raiseIo ch).ti = s.ti := rfl
@[simp] theorem State.raiseIo_mode (s : State) (ch : Channel) : (s.raiseIo ch).mode = s.mode := rfl
@[simp] theorem State.raiseIo_busy (s : State) (ch : Channel) : (s.raiseIo ch).busy = s.busy := rfl
@[simp] theorem State.raiseIo_slots (s : State) (ch : Channel) : (s.raiseIo ch).slots = s.slots := rfl
@[simp] theorem State.raiseIo_cur (s : State) (ch : Channel) : (s.raiseIo ch).cur = s.cur := rfl
@[simp] theorem State.raiseIo_lastSlot (s : State) (ch : Channel) : (s.raiseIo ch).lastSlot = s.lastSlot := rfl
@[simp] theorem State.raiseIo_svc (s : State) (ch : Channel) : (s.raiseIo ch).svc = s.svc := rfl
@[simp] theorem State.raiseIo_run (s : State) (ch : Channel) : (s.raiseIo ch).run = s.run := rfl
@[simp] theorem State.raiseIo_kbd (s : State) (ch : Channel) : (s.raiseIo ch).kbd = s.kbd := rfl
@[simp] theorem State.raiseIo_scr (s : State) (ch : Channel) : (s.raiseIo ch).scr = s.scr := rfl
@[simp] theorem State.raiseIo_ext (s : State) (ch : Channel) : (s.raiseIo ch).ext = s.ext := rfl
@[simp] theorem State.raiseIo_extPtr (s : State) (ch : Channel) : (s.raiseIo ch).extPtr = s.extPtr := rfl
@[simp] theorem State.raiseIo_slot (s : State) (ch : Channel) (k : Nat) : (s.raiseIo ch).slot k = s.slot k := rfl
@[simp] theorem State.raiseIo_readM (s : State) (ch : Channel) (k : Nat) : (s.raiseIo ch).readM k = s.readM k := rfl
@[simp] theorem State.raiseIo_readExt (s : State) (ch : Channel) (p' i' : Nat) : (s.raiseIo ch).readExt p' i' = s.readExt p' i' := rfl

/-! ## clearIo -/

@[simp] theorem State.clearIo_cfg (s : State) (ch : Channel) : (s.clearIo ch).cfg = s.cfg := rfl
@[simp] theorem State.clearIo_mem (s : State) (ch : Channel) : (s.clearIo ch).mem = s.mem := rfl
@[simp] theorem State.clearIo_rm (s : State) (ch : Channel) : (s.clearIo ch).rm = s.rm := rfl
@[simp] theorem State.clearIo_ptr (s : State) (ch : Channel) : (s.clearIo ch).ptr = s.ptr := rfl
@[simp] theorem State.clearIo_pi (s : State) (ch : Channel) : (s.clearIo ch).pi = s.pi := rfl
@[simp] theorem State.clearIo_si (s : State) (ch : Channel) : (s.clearIo ch).si = s.si := rfl
@[simp] theorem State.clearIo_ioi (s : State) (ch : Channel) : (s.clearIo ch).ioi = s.ioi &&& ~~~ ch.mask := rfl
@[simp] theorem State.clearIo_ti (s : State) (ch : Channel) : (s.clearIo ch).ti = s.ti := rfl
@[simp] theorem State.clearIo_mode (s : State) (ch : Channel) : (s.clearIo ch).mode = s.mode := rfl
@[simp] theorem State.clearIo_busy (s : State) (ch : Channel) : (s.clearIo ch).busy = s.busy := rfl
@[simp] theorem State.clearIo_slots (s : State) (ch : Channel) : (s.clearIo ch).slots = s.slots := rfl
@[simp] theorem State.clearIo_cur (s : State) (ch : Channel) : (s.clearIo ch).cur = s.cur := rfl
@[simp] theorem State.clearIo_lastSlot (s : State) (ch : Channel) : (s.clearIo ch).lastSlot = s.lastSlot := rfl
@[simp] theorem State.clearIo_svc (s : State) (ch : Channel) : (s.clearIo ch).svc = s.svc := rfl
@[simp] theorem State.clearIo_run (s : State) (ch : Channel) : (s.clearIo ch).run = s.run := rfl
@[simp] theorem State.clearIo_kbd (s : State) (ch : Channel) : (s.clearIo ch).kbd = s.kbd := rfl
@[simp] theorem State.clearIo_scr (s : State) (ch : Channel) : (s.clearIo ch).scr = s.scr := rfl
@[simp] theorem State.clearIo_ext (s : State) (ch : Channel) : (s.clearIo ch).ext = s.ext := rfl
@[simp] theorem State.clearIo_extPtr (s : State) (ch : Channel) : (s.clearIo ch).extPtr = s.extPtr := rfl
@[simp] theorem State.clearIo_slot (s : State) (ch : Channel) (k : Nat) : (s.clearIo ch).slot k = s.slot k := rfl
@[simp] theorem State.clearIo_readM (s : State) (ch : Channel) (k : Nat) : (s.clearIo ch).readM k = s.readM k := rfl
@[simp] theorem State.clearIo_readExt (s : State) (ch : Channel) (p' i' : Nat) : (s.clearIo ch).readExt p' i' = s.readExt p' i' := rfl

/-! ## fatal -/

@[simp] theorem State.fatal_cfg (s : State) (r : FatalReason) : (s.fatal r).cfg = s.cfg := rfl
@[simp] theorem State.fatal_mem (s : State) (r : FatalReason) : (s.fatal r).mem = s.mem := rfl
@[simp] theorem State.fatal_rm (s : State) (r : FatalReason) : (s.fatal r).rm = s.rm := rfl
@[simp] theorem State.fatal_ptr (s : State) (r : FatalReason) : (s.fatal r).ptr = s.ptr := rfl
@[simp] theorem State.fatal_pi (s : State) (r : FatalReason) : (s.fatal r).pi = s.pi := rfl
@[simp] theorem State.fatal_si (s : State) (r : FatalReason) : (s.fatal r).si = s.si := rfl
@[simp] theorem State.fatal_ioi (s : State) (r : FatalReason) : (s.fatal r).ioi = s.ioi := rfl
@[simp] theorem State.fatal_ti (s : State) (r : FatalReason) : (s.fatal r).ti = s.ti := rfl
@[simp] theorem State.fatal_mode (s : State) (r : FatalReason) : (s.fatal r).mode = s.mode := rfl
@[simp] theorem State.fatal_busy (s : State) (r : FatalReason) : (s.fatal r).busy = s.busy := rfl
@[simp] theorem State.fatal_slots (s : State) (r : FatalReason) : (s.fatal r).slots = s.slots := rfl
@[simp] theorem State.fatal_cur (s : State) (r : FatalReason) : (s.fatal r).cur = s.cur := rfl
@[simp] theorem State.fatal_lastSlot (s : State) (r : FatalReason) : (s.fatal r).lastSlot = s.lastSlot := rfl
@[simp] theorem State.fatal_svc (s : State) (r : FatalReason) : (s.fatal r).svc = s.svc := rfl
@[simp] theorem State.fatal_run (s : State) (r : FatalReason) : (s.fatal r).run = .fatal r := rfl
@[simp] theorem State.fatal_kbd (s : State) (r : FatalReason) : (s.fatal r).kbd = s.kbd := rfl
@[simp] theorem State.fatal_scr (s : State) (r : FatalReason) : (s.fatal r).scr = s.scr := rfl
@[simp] theorem State.fatal_ext (s : State) (r : FatalReason) : (s.fatal r).ext = s.ext := rfl
@[simp] theorem State.fatal_extPtr (s : State) (r : FatalReason) : (s.fatal r).extPtr = s.extPtr := rfl
@[simp] theorem State.fatal_slot (s : State) (r : FatalReason) (k : Nat) : (s.fatal r).slot k = s.slot k := rfl
@[simp] theorem State.fatal_readM (s : State) (r : FatalReason) (k : Nat) : (s.fatal r).readM k = s.readM k := rfl
@[simp] theorem State.fatal_readExt (s : State) (r : FatalReason) (p' i' : Nat) : (s.fatal r).readExt p' i' = s.readExt p' i' := rfl

/-! ## supervisorFault -/

@[simp] theorem State.supervisorFault_cfg (s : State) (f : ProgramFault) : (s.supervisorFault f).cfg = s.cfg := rfl
@[simp] theorem State.supervisorFault_mem (s : State) (f : ProgramFault) : (s.supervisorFault f).mem = s.mem := rfl
@[simp] theorem State.supervisorFault_rm (s : State) (f : ProgramFault) : (s.supervisorFault f).rm = s.rm := rfl
@[simp] theorem State.supervisorFault_ptr (s : State) (f : ProgramFault) : (s.supervisorFault f).ptr = s.ptr := rfl
@[simp] theorem State.supervisorFault_pi (s : State) (f : ProgramFault) : (s.supervisorFault f).pi = some f := rfl
@[simp] theorem State.supervisorFault_si (s : State) (f : ProgramFault) : (s.supervisorFault f).si = s.si := rfl
@[simp] theorem State.supervisorFault_ioi (s : State) (f : ProgramFault) : (s.supervisorFault f).ioi = s.ioi := rfl
@[simp] theorem State.supervisorFault_ti (s : State) (f : ProgramFault) : (s.supervisorFault f).ti = s.ti := rfl
@[simp] theorem State.supervisorFault_mode (s : State) (f : ProgramFault) : (s.supervisorFault f).mode = s.mode := rfl
@[simp] theorem State.supervisorFault_busy (s : State) (f : ProgramFault) : (s.supervisorFault f).busy = s.busy := rfl
@[simp] theorem State.supervisorFault_slots (s : State) (f : ProgramFault) : (s.supervisorFault f).slots = s.slots := rfl
@[simp] theorem State.supervisorFault_cur (s : State) (f : ProgramFault) : (s.supervisorFault f).cur = s.cur := rfl
@[simp] theorem State.supervisorFault_lastSlot (s : State) (f : ProgramFault) : (s.supervisorFault f).lastSlot = s.lastSlot := rfl
@[simp] theorem State.supervisorFault_svc (s : State) (f : ProgramFault) : (s.supervisorFault f).svc = s.svc := rfl
@[simp] theorem State.supervisorFault_run (s : State) (f : ProgramFault) : (s.supervisorFault f).run = .fatal (.supervisorFault f) := rfl
@[simp] theorem State.supervisorFault_kbd (s : State) (f : ProgramFault) : (s.supervisorFault f).kbd = s.kbd := rfl
@[simp] theorem State.supervisorFault_scr (s : State) (f : ProgramFault) : (s.supervisorFault f).scr = s.scr := rfl
@[simp] theorem State.supervisorFault_ext (s : State) (f : ProgramFault) : (s.supervisorFault f).ext = s.ext := rfl
@[simp] theorem State.supervisorFault_extPtr (s : State) (f : ProgramFault) : (s.supervisorFault f).extPtr = s.extPtr := rfl
@[simp] theorem State.supervisorFault_slot (s : State) (f : ProgramFault) (k : Nat) : (s.supervisorFault f).slot k = s.slot k := rfl
@[simp] theorem State.supervisorFault_readM (s : State) (f : ProgramFault) (k : Nat) : (s.supervisorFault f).readM k = s.readM k := rfl
@[simp] theorem State.supervisorFault_readExt (s : State) (f : ProgramFault) (p' i' : Nat) : (s.supervisorFault f).readExt p' i' = s.readExt p' i' := rfl

/-! ## vmFault -/

@[simp] theorem State.vmFault_cfg (s : State) (f : ProgramFault) : (s.vmFault f).cfg = s.cfg := rfl
@[simp] theorem State.vmFault_mem (s : State) (f : ProgramFault) : (s.vmFault f).mem = s.mem := rfl
@[simp] theorem State.vmFault_rm (s : State) (f : ProgramFault) : (s.vmFault f).rm = s.rm := rfl
@[simp] theorem State.vmFault_ptr (s : State) (f : ProgramFault) : (s.vmFault f).ptr = s.ptr := rfl
@[simp] theorem State.vmFault_pi (s : State) (f : ProgramFault) : (s.vmFault f).pi = some f := rfl
@[simp] theorem State.vmFault_si (s : State) (f : ProgramFault) : (s.vmFault f).si = s.si := rfl
@[simp] theorem State.vmFault_ioi (s : State) (f : ProgramFault) : (s.vmFault f).ioi = s.ioi := rfl
@[simp] theorem State.vmFault_ti (s : State) (f : ProgramFault) : (s.vmFault f).ti = s.ti := rfl
@[simp] theorem State.vmFault_mode (s : State) (f : ProgramFault) : (s.vmFault f).mode = s.mode := rfl
@[simp] theorem State.vmFault_busy (s : State) (f : ProgramFault) : (s.vmFault f).busy = s.busy := rfl
@[simp] theorem State.vmFault_slots (s : State) (f : ProgramFault) : (s.vmFault f).slots = s.slots := rfl
@[simp] theorem State.vmFault_cur (s : State) (f : ProgramFault) : (s.vmFault f).cur = s.cur := rfl
@[simp] theorem State.vmFault_lastSlot (s : State) (f : ProgramFault) : (s.vmFault f).lastSlot = s.lastSlot := rfl
@[simp] theorem State.vmFault_svc (s : State) (f : ProgramFault) : (s.vmFault f).svc = s.svc := rfl
@[simp] theorem State.vmFault_run (s : State) (f : ProgramFault) : (s.vmFault f).run = s.run := rfl
@[simp] theorem State.vmFault_kbd (s : State) (f : ProgramFault) : (s.vmFault f).kbd = s.kbd := rfl
@[simp] theorem State.vmFault_scr (s : State) (f : ProgramFault) : (s.vmFault f).scr = s.scr := rfl
@[simp] theorem State.vmFault_ext (s : State) (f : ProgramFault) : (s.vmFault f).ext = s.ext := rfl
@[simp] theorem State.vmFault_extPtr (s : State) (f : ProgramFault) : (s.vmFault f).extPtr = s.extPtr := rfl
@[simp] theorem State.vmFault_slot (s : State) (f : ProgramFault) (k : Nat) : (s.vmFault f).slot k = s.slot k := rfl
@[simp] theorem State.vmFault_readM (s : State) (f : ProgramFault) (k : Nat) : (s.vmFault f).readM k = s.readM k := rfl
@[simp] theorem State.vmFault_readExt (s : State) (f : ProgramFault) (p' i' : Nat) : (s.vmFault f).readExt p' i' = s.readExt p' i' := rfl

/-! ## suspend -/

@[simp] theorem State.suspend_cfg (s : State) (n : Nat) (cause : Service) : (s.suspend n cause).cfg = s.cfg := rfl
@[simp] theorem State.suspend_mem (s : State) (n : Nat) (cause : Service) : (s.suspend n cause).mem = s.mem := rfl
@[simp] theorem State.suspend_rm (s : State) (n : Nat) (cause : Service) : (s.suspend n cause).rm = s.rm := rfl
@[simp] theorem State.suspend_ptr (s : State) (n : Nat) (cause : Service) : (s.suspend n cause).ptr = s.ptr := rfl
@[simp] theorem State.suspend_pi (s : State) (n : Nat) (cause : Service) : (s.suspend n cause).pi = s.pi := rfl
@[simp] theorem State.suspend_si (s : State) (n : Nat) (cause : Service) : (s.suspend n cause).si = s.si := rfl
@[simp] theorem State.suspend_ioi (s : State) (n : Nat) (cause : Service) : (s.suspend n cause).ioi = s.ioi := rfl
@[simp] theorem State.suspend_ti (s : State) (n : Nat) (cause : Service) : (s.suspend n cause).ti = s.ti := rfl
@[simp] theorem State.suspend_mode (s : State) (n : Nat) (cause : Service) : (s.suspend n cause).mode = .supervisor := rfl
@[simp] theorem State.suspend_busy (s : State) (n : Nat) (cause : Service) : (s.suspend n cause).busy = s.busy := rfl
@[simp] theorem State.suspend_slots (s : State) (n : Nat) (cause : Service) : (s.suspend n cause).slots = s.slots := rfl
@[simp] theorem State.suspend_cur (s : State) (n : Nat) (cause : Service) : (s.suspend n cause).cur = none := rfl
@[simp] theorem State.suspend_lastSlot (s : State) (n : Nat) (cause : Service) : (s.suspend n cause).lastSlot = some n := rfl
@[simp] theorem State.suspend_svc (s : State) (n : Nat) (cause : Service) : (s.suspend n cause).svc = cause := rfl
@[simp] theorem State.suspend_run (s : State) (n : Nat) (cause : Service) : (s.suspend n cause).run = s.run := rfl
@[simp] theorem State.suspend_kbd (s : State) (n : Nat) (cause : Service) : (s.suspend n cause).kbd = s.kbd := rfl
@[simp] theorem State.suspend_scr (s : State) (n : Nat) (cause : Service) : (s.suspend n cause).scr = s.scr := rfl
@[simp] theorem State.suspend_ext (s : State) (n : Nat) (cause : Service) : (s.suspend n cause).ext = s.ext := rfl
@[simp] theorem State.suspend_extPtr (s : State) (n : Nat) (cause : Service) : (s.suspend n cause).extPtr = s.extPtr := rfl
@[simp] theorem State.suspend_slot (s : State) (n : Nat) (cause : Service) (k : Nat) : (s.suspend n cause).slot k = s.slot k := rfl
@[simp] theorem State.suspend_readM (s : State) (n : Nat) (cause : Service) (k : Nat) : (s.suspend n cause).readM k = s.readM k := rfl
@[simp] theorem State.suspend_readExt (s : State) (n : Nat) (cause : Service) (p' i' : Nat) : (s.suspend n cause).readExt p' i' = s.readExt p' i' := rfl

/-! ## tick -/

@[simp] theorem State.tick_cfg (s : State) : (s.tick).cfg = s.cfg := rfl
@[simp] theorem State.tick_mem (s : State) : (s.tick).mem = s.mem := rfl
@[simp] theorem State.tick_rm (s : State) : (s.tick).rm = s.rm := rfl
@[simp] theorem State.tick_ptr (s : State) : (s.tick).ptr = s.ptr := rfl
@[simp] theorem State.tick_pi (s : State) : (s.tick).pi = s.pi := rfl
@[simp] theorem State.tick_si (s : State) : (s.tick).si = s.si := rfl
@[simp] theorem State.tick_ioi (s : State) : (s.tick).ioi = s.ioi := rfl
@[simp] theorem State.tick_ti (s : State) : (s.tick).ti = s.ti - 1 := rfl
@[simp] theorem State.tick_mode (s : State) : (s.tick).mode = s.mode := rfl
@[simp] theorem State.tick_busy (s : State) : (s.tick).busy = s.busy := rfl
@[simp] theorem State.tick_slots (s : State) : (s.tick).slots = s.slots := rfl
@[simp] theorem State.tick_cur (s : State) : (s.tick).cur = s.cur := rfl
@[simp] theorem State.tick_lastSlot (s : State) : (s.tick).lastSlot = s.lastSlot := rfl
@[simp] theorem State.tick_svc (s : State) : (s.tick).svc = s.svc := rfl
@[simp] theorem State.tick_run (s : State) : (s.tick).run = s.run := rfl
@[simp] theorem State.tick_kbd (s : State) : (s.tick).kbd = s.kbd := rfl
@[simp] theorem State.tick_scr (s : State) : (s.tick).scr = s.scr := rfl
@[simp] theorem State.tick_ext (s : State) : (s.tick).ext = s.ext := rfl
@[simp] theorem State.tick_extPtr (s : State) : (s.tick).extPtr = s.extPtr := rfl
@[simp] theorem State.tick_slot (s : State) (k : Nat) : (s.tick).slot k = s.slot k := rfl
@[simp] theorem State.tick_readM (s : State) (k : Nat) : (s.tick).readM k = s.readM k := rfl
@[simp] theorem State.tick_readExt (s : State) (p' i' : Nat) : (s.tick).readExt p' i' = s.readExt p' i' := rfl

/-! ## serviceHalt -/

@[simp] theorem State.serviceHalt_cfg (s : State) : (s.serviceHalt).cfg = s.cfg := rfl
@[simp] theorem State.serviceHalt_mem (s : State) : (s.serviceHalt).mem = s.mem := rfl
@[simp] theorem State.serviceHalt_rm (s : State) : (s.serviceHalt).rm = s.rm := rfl
@[simp] theorem State.serviceHalt_ptr (s : State) : (s.serviceHalt).ptr = s.ptr := rfl
@[simp] theorem State.serviceHalt_pi (s : State) : (s.serviceHalt).pi = s.pi := rfl
@[simp] theorem State.serviceHalt_si (s : State) : (s.serviceHalt).si = none := rfl
@[simp] theorem State.serviceHalt_ioi (s : State) : (s.serviceHalt).ioi = s.ioi := rfl
@[simp] theorem State.serviceHalt_ti (s : State) : (s.serviceHalt).ti = s.ti := rfl
@[simp] theorem State.serviceHalt_mode (s : State) : (s.serviceHalt).mode = .supervisor := rfl
@[simp] theorem State.serviceHalt_busy (s : State) : (s.serviceHalt).busy = s.busy := rfl
@[simp] theorem State.serviceHalt_slots (s : State) : (s.serviceHalt).slots = s.slots := rfl
@[simp] theorem State.serviceHalt_cur (s : State) : (s.serviceHalt).cur = s.cur := rfl
@[simp] theorem State.serviceHalt_lastSlot (s : State) : (s.serviceHalt).lastSlot = s.lastSlot := rfl
@[simp] theorem State.serviceHalt_svc (s : State) : (s.serviceHalt).svc = s.svc := rfl
@[simp] theorem State.serviceHalt_run (s : State) : (s.serviceHalt).run = s.run := rfl
@[simp] theorem State.serviceHalt_kbd (s : State) : (s.serviceHalt).kbd = s.kbd := rfl
@[simp] theorem State.serviceHalt_scr (s : State) : (s.serviceHalt).scr = s.scr := rfl
@[simp] theorem State.serviceHalt_ext (s : State) : (s.serviceHalt).ext = s.ext := rfl
@[simp] theorem State.serviceHalt_extPtr (s : State) : (s.serviceHalt).extPtr = s.extPtr := rfl
@[simp] theorem State.serviceHalt_slot (s : State) (k : Nat) : (s.serviceHalt).slot k = s.slot k := rfl
@[simp] theorem State.serviceHalt_readM (s : State) (k : Nat) : (s.serviceHalt).readM k = s.readM k := rfl
@[simp] theorem State.serviceHalt_readExt (s : State) (p' i' : Nat) : (s.serviceHalt).readExt p' i' = s.readExt p' i' := rfl

/-! ## setBank, slots -/

@[simp] theorem State.setBank_rm (s : State) (b : Bank) : s.setBank .rm b = { s with rm := b } := rfl
@[simp] theorem State.setBank_vm (s : State) (n : Nat) (b : Bank) : s.setBank (.vm n) b = s.setSlot n (some b) := rfl

theorem State.slot_setSlot (s : State) (n k : Nat) (b : Option Bank) :
    (s.setSlot n b).slot k = if k = n ∧ n < 10 then b else s.slot k := by
  simp only [State.slot, State.setSlot]
  split
  · rw [Vector.getElem_setIfInBounds]; grind
  · grind

@[simp] theorem State.slot_setSlot_same (s : State) {n : Nat} (b : Option Bank) (h : n < 10) :
    (s.setSlot n b).slot n = b := by
  simp [State.slot_setSlot, h]

@[simp] theorem State.slot_setSlot_other (s : State) {n k : Nat} (b : Option Bank) (h : k ≠ n) :
    (s.setSlot n b).slot k = s.slot k := by
  simp [State.slot_setSlot, h]

theorem State.slot_eq_some_lt {s : State} {n : Nat} {b : Bank} (h : s.slot n = some b) : n < 10 := by
  unfold State.slot at h; split at h
  · assumption
  · simp at h

/-- A property of every allocated slot is one of the ten places. -/
theorem State.forall_slot {s : State} {P : Nat → Bank → Prop} (h : ∀ i : Fin 10, ∀ b ∈ s.slots[i], P i b) :
    ∀ n b, s.slot n = some b → P n b := by
  intro n b hb
  unfold State.slot at hb
  split at hb
  · rename_i hn; exact h ⟨n, hn⟩ b hb
  · cases hb

@[simp] theorem Bank.advance_tmp (b : Bank) : b.advance.tmp = b.tmp := rfl
@[simp] theorem Bank.advance_ic (b : Bank) : b.advance.ic = b.ic + 1 := rfl
@[simp] theorem Bank.advance_c (b : Bank) : b.advance.c = b.c := rfl

/-! ## Channel bits -/

@[simp] theorem bitOf_or_mask (m : BitVec 3) (ch d : Channel) : bitOf (m ||| ch.mask) d = (bitOf m d || decide (d = ch)) := by
  cases ch <;> cases d <;> simp [bitOf, Channel.mask, Channel.index]

@[simp] theorem bitOf_and_not_mask (m : BitVec 3) (ch d : Channel) :
    bitOf (m &&& ~~~ ch.mask) d = (bitOf m d && decide (d ≠ ch)) := by
  cases ch <;> cases d <;> simp [bitOf, Channel.mask, Channel.index]

end Sys2Proof.Machine
end

