-- ==== Sys2Proof/Laws/Ops.lean ====
section
/-! SUPPORT. Once for each shared operation: everything it can do. -/

namespace Sys2Proof.Machine

open Sys2Proof

/-! ## Channel bits -/

theorem mask_keyboard : Channel.keyboard.mask = 1#3 := rfl
theorem mask_screen : Channel.screen.mask = 2#3 := rfl
theorem mask_external : Channel.external.mask = 4#3 := rfl

/-- A busy bit set and cleared again, which was clear before, leaves BUSY as it was. -/
theorem busy_set_clear {m : BitVec 3} {ch : Channel} (h : bitOf m ch = false) :
    (m ||| ch.mask) &&& ~~~ ch.mask = m := by
  cases ch <;> revert m <;> decide

/-- An operation that does not leak ends with BUSY as before and the channel's IOI bit raised (44_channel_io.md R191). -/
theorem completeIo_markBusy {s : State} {ch : Channel} (h : bitOf s.busy ch = false) :
    (s.markBusy ch).completeIo ch false = { s with ioi := s.ioi ||| ch.mask } := by
  show ({ s with busy := (s.busy ||| ch.mask) &&& ~~~ ch.mask, ioi := _ } : State) = _
  rw [busy_set_clear h]; rfl

theorem lowestIo_some {m : BitVec 3} {ch : Channel} (h : lowestIo m = some ch) : bitOf m ch = true := by
  unfold lowestIo at h; repeat' split at h
  all_goals (first | (cases h; assumption) | cases h)

theorem lowestIo_none {m : BitVec 3} : lowestIo m = none ↔ m = 0 := by revert m; decide

/-! ## Contexts -/

theorem State.readCtx_some {s : State} {ctx : Ctx} {a : Nat} (h : a < s.sizeCtx ctx) :
    s.readCtx ctx a = some (s.readM (s.absCtx ctx a)) := by simp [State.readCtx, h]

theorem State.readCtx_none {s : State} {ctx : Ctx} {a : Nat} (h : s.sizeCtx ctx ≤ a) : s.readCtx ctx a = none := by
  simp [State.readCtx, Nat.not_lt.mpr h]

/-- A direct opcode in the RM (40_cycle.md R123). -/
theorem State.direct_rm {s : State} (h : s.mode = .supervisor) (x y z : Nat) (rule : DirectRule) :
    s.direct x y z rule = (rule .rm s.rm (argument x y z) s).inRm := by simp [State.direct, h]

/-- A direct opcode in a VM whose hundreds digit is 0 (40_cycle.md R125). -/
theorem State.direct_vm {s : State} {n : Nat} {b : Bank} (h : s.mode = .user) (hc : s.cur = some n)
    (hb : s.slot n = some b) (y z : Nat) (rule : DirectRule) :
    s.direct 0 y z rule = (rule (.vm n) b (argument 0 y z) s).inVm := by
  simp [State.direct, State.withVm, h, hc, hb]

/-- A direct opcode in a VM whose hundreds digit is not 0 (40_cycle.md R125). -/
theorem State.direct_hundreds {s : State} {n : Nat} {b : Bank} (h : s.mode = .user) (hc : s.cur = some n)
    (hb : s.slot n = some b) {x : Nat} (hx : x ≠ 0) (y z : Nat) (rule : DirectRule) :
    s.direct x y z rule = .next (s.vmFault .invAddress) := by
  simp [State.direct, State.withVm, h, hc, hb, hx]

/-- `setBank` changes the registers of its context and nothing else. -/
theorem State.setBank_slot {s : State} {n k : Nat} {b : Bank} (hn : n < 10) :
    (s.setBank (.vm n) b).slot k = if k = n then some b else s.slot k := by
  rw [State.setBank_vm, State.slot_setSlot]; simp [hn]

/-! ## Channel rules -/

/-- All that GD's rule does (44_channel_io.md R192). -/
theorem gdRule_cases (a : Nat) (s : State) :
    (bitOf s.busy .keyboard = true ∧ gdRule a s = .stuck (.stalled .keyboard)) ∨
    (bitOf s.busy .keyboard = false ∧ s.cfg.rmMemSize ≤ a ∧ gdRule a s = .raised .invAddress s) ∨
    (bitOf s.busy .keyboard = false ∧ a < s.cfg.rmMemSize ∧
      gdRule a s = .done { s with
        mem := (s.takeKeyboard a).mem, kbd := none, ioi := s.ioi ||| Channel.keyboard.mask }) := by
  cases hb : bitOf s.busy .keyboard with
  | true => left; simp [gdRule, State.unlessBusy, hb]
  | false =>
    right
    by_cases ha : s.cfg.rmMemSize ≤ a
    · left; simp [gdRule, State.unlessBusy, hb, ha]
    · right
      refine ⟨rfl, Nat.lt_of_not_le ha, ?_⟩
      have e : (s.markBusy .keyboard).takeKeyboard a = (s.takeKeyboard a).markBusy .keyboard := by
        simp only [State.takeKeyboard, State.markBusy_kbd]; split <;> rfl
      have h : bitOf (s.takeKeyboard a).busy .keyboard = false := by
        simp only [State.takeKeyboard]; split <;> exact hb
      simp only [gdRule, State.unlessBusy, hb, ha, if_false, Bool.false_eq_true, e, completeIo_markBusy h]
      cases hk : s.kbd with
      | some w => simp [State.takeKeyboard, hk, State.writeM]
      | none => simp only [State.takeKeyboard, hk]

/-- All that PD's rule does (44_channel_io.md R193). -/
theorem pdRule_cases (a : Nat) (s : State) :
    (bitOf s.busy .screen = true ∧ pdRule a s = .stuck (.stalled .screen)) ∨
    (bitOf s.busy .screen = false ∧ s.cfg.rmMemSize ≤ a ∧ pdRule a s = .raised .invAddress s) ∨
    (bitOf s.busy .screen = false ∧ a < s.cfg.rmMemSize ∧
      pdRule a s = .done { s with
        scr := some (s.readM a)
        busy := if s.cfg.stuckBusyOp = .pd then s.busy ||| Channel.screen.mask else s.busy
        ioi := s.ioi ||| Channel.screen.mask }) := by
  cases hb : bitOf s.busy .screen with
  | true => left; simp [pdRule, State.unlessBusy, hb]
  | false =>
    right
    by_cases ha : s.cfg.rmMemSize ≤ a
    · left; simp [pdRule, State.unlessBusy, hb, ha]
    · right
      refine ⟨rfl, Nat.lt_of_not_le ha, ?_⟩
      by_cases hp : s.cfg.stuckBusyOp = .pd
      · simp [pdRule, State.unlessBusy, hb, ha, hp, State.completeIo, State.raiseIo, State.markBusy]
      · simp [pdRule, State.unlessBusy, hb, ha, hp, State.completeIo, State.raiseIo, State.markBusy,
          busy_set_clear hb]

/-- The block write that starts with `s`'s BUSY marked writes the same words. -/
theorem State.writeWords_markBusy (s : State) (ch : Channel) (a : Nat) (ws : List Word) :
    (s.markBusy ch).writeWords a ws = State.markBusy { s with mem := (s.writeWords a ws).mem } ch := by
  have h : ∀ (ws : List Word) (s : State) (a : Nat),
      (s.markBusy ch).writeWords a ws = (s.writeWords a ws).markBusy ch := by
    intro ws
    induction ws with
    | nil => intros; rfl
    | cons w ws ih => intro s a; exact ih (s.writeM a w) (a + 1)
  rw [h]; conv_lhs => rw [State.writeWords_eq]

/-- The characters that a block write of the first `n` words of a line leaves. -/
theorem State.writeWords_extLine (s : State) (a p n : Nat) :
    let m := (s.writeWords a ((s.extLine p).take n)).mem
    (∀ i < 10, i < n → readWord m.byte (a + i) = s.readExt p i) ∧
    (∀ k, k < 5 * a ∨ 5 * (a + min n 10) ≤ k → m.byte k = s.mem.byte k) ∧
    (∀ size, a + min n 10 ≤ size → s.mem.wf size → s.ext.wfExt → m.wf size) := by
  have hl : ((s.extLine p).take n).length = min n 10 := by simp [State.extLine]
  refine ⟨fun i hi hn => ?_, fun k hk => s.writeWords_byte_other a _ (by rw [hl]; exact hk), fun size hs hm he => ?_⟩
  · show (s.writeWords a ((s.extLine p).take n)).readM (a + i) = s.readExt p i
    rw [State.readM_writeWords]
    simp [State.extLine, hi, hn]
  · refine State.writeWords_wf hm (by rw [hl]; exact hs) fun w hw => ?_
    have hw := List.mem_of_mem_take hw
    simp only [State.extLine, List.mem_map] at hw
    obtain ⟨i, -, rfl⟩ := hw
    exact State.readExt_ascii he _ _

/-- All that RD's rule does (44_channel_io.md R194): the words that fit are written in either end. -/
theorem rdRule_cases (a : Nat) (s : State) :
    (bitOf s.busy .external = true ∧ rdRule a s = .stuck (.stalled .external)) ∨
    (bitOf s.busy .external = false ∧ 1000 ≤ s.extPtr ∧ rdRule a s = .fatal .extRange s) ∨
    (bitOf s.busy .external = false ∧ s.extPtr < 1000 ∧ s.cfg.rmMemSize < a + 10 ∧
      ∃ m, rdRule a s = .raised .invAddress { s with mem := m } ∧
        (∀ i < 10, a + i < s.cfg.rmMemSize → readWord m.byte (a + i) = s.readExt s.extPtr i) ∧
        (∀ k, k < 5 * a ∨ 5 * s.cfg.rmMemSize ≤ k → m.byte k = s.mem.byte k) ∧
        (s.mem.wf s.cfg.rmMemSize → s.ext.wfExt → m.wf s.cfg.rmMemSize)) ∨
    (bitOf s.busy .external = false ∧ s.extPtr < 1000 ∧ a + 10 ≤ s.cfg.rmMemSize ∧
      ∃ m, rdRule a s = .done { s with mem := m, ioi := s.ioi ||| Channel.external.mask } ∧
        (∀ i < 10, readWord m.byte (a + i) = s.readExt s.extPtr i) ∧
        (∀ k, k < 5 * a ∨ 5 * (a + 10) ≤ k → m.byte k = s.mem.byte k) ∧
        (s.mem.wf s.cfg.rmMemSize → s.ext.wfExt → m.wf s.cfg.rmMemSize)) := by
  have hl : (s.extLine s.extPtr).length = 10 := by simp [State.extLine]
  have hne : s.extLine s.extPtr ≠ [] := by intro h; simp [h] at hl
  obtain ⟨h1, h2, h3⟩ := s.writeWords_extLine a s.extPtr (s.cfg.rmMemSize - a)
  have e := s.writeWords_markBusy .external a ((s.extLine s.extPtr).take (s.cfg.rmMemSize - a))
  generalize (s.writeWords a ((s.extLine s.extPtr).take (s.cfg.rmMemSize - a))).mem = m at e h1 h2 h3
  cases hb : bitOf s.busy .external with
  | true => left; simp [rdRule, State.unlessBusy, hb]
  | false =>
    right
    by_cases hp : 1000 ≤ s.extPtr
    · left; simp [rdRule, State.unlessBusy, hb, hp]
    · right
      by_cases ha : s.cfg.rmMemSize < a + 10
      · left
        refine ⟨rfl, by omega, ha, m, ?_, fun i hi hi2 => h1 i hi (by omega), fun k hk => ?_, fun hm he => ?_⟩
        · simp only [rdRule, State.unlessBusy, hb, hp, if_false, Bool.false_eq_true, State.memWrite_eq, hne, hl, false_or,
            State.markBusy_cfg, decide_eq_false (show ¬ a + 10 ≤ s.cfg.rmMemSize by omega), e]
          simp [State.clearBusy, State.markBusy, busy_set_clear hb]
        · by_cases hs : a ≤ s.cfg.rmMemSize
          · exact h2 k (by omega)
          · rw [show s.cfg.rmMemSize - a = 0 by omega] at h2; exact h2 k (by omega)
        · by_cases hs : a ≤ s.cfg.rmMemSize
          · exact h3 _ (by omega) hm he
          · rw [show s.cfg.rmMemSize - a = 0 by omega] at e
            have : m = s.mem := congrArg State.mem e.symm
            rw [this]; exact hm
      · right
        refine ⟨rfl, by omega, by omega, m, ?_, fun i hi => h1 i hi (by omega), fun k hk => h2 k (by omega),
          fun hm he => h3 _ (by omega) hm he⟩
        simp only [rdRule, State.unlessBusy, hb, hp, if_false, Bool.false_eq_true, State.memWrite_eq, hne, hl, false_or,
          State.markBusy_cfg, decide_eq_true (show a + 10 ≤ s.cfg.rmMemSize by omega), e]
        have hb2 : bitOf ({ s with mem := m } : State).busy .external = false := hb
        rw [completeIo_markBusy hb2]

/-- All that WD's rule does (44_channel_io.md R195). -/
theorem wdRule_cases (a : Nat) (s : State) :
    (bitOf s.busy .external = true ∧ wdRule a s = .stuck (.stalled .external)) ∨
    (bitOf s.busy .external = false ∧ 1000 ≤ s.extPtr ∧ wdRule a s = .fatal .extRange s) ∨
    (bitOf s.busy .external = false ∧ s.extPtr < 1000 ∧ s.cfg.rmMemSize < a + 10 ∧
      wdRule a s = .raised .invAddress s) ∨
    (bitOf s.busy .external = false ∧ s.extPtr < 1000 ∧ a + 10 ≤ s.cfg.rmMemSize ∧
      wdRule a s = .done { s with
        ext := s.ext.writeExtWords (10 * s.extPtr) ((List.range 10).map fun i => s.readM (a + i))
        busy := if s.cfg.stuckBusyOp = .wd then s.busy ||| Channel.external.mask else s.busy
        ioi := s.ioi ||| Channel.external.mask }) := by
  cases hb : bitOf s.busy .external with
  | true => left; simp [wdRule, State.unlessBusy, hb]
  | false =>
    right
    by_cases hp : 1000 ≤ s.extPtr
    · left; simp [wdRule, State.unlessBusy, hb, hp]
    · right
      by_cases ha : s.cfg.rmMemSize < a + 10
      · left
        refine ⟨rfl, by omega, ha, ?_⟩
        simp [wdRule, State.unlessBusy, hb, hp, (State.memRead_eq_none s a 10).mpr ⟨by omega, ha⟩]
      · right
        refine ⟨rfl, by omega, by omega, ?_⟩
        simp only [wdRule, State.unlessBusy, hb, hp, if_false, Bool.false_eq_true,
          (State.memRead_eq_some s a 10 _).mpr ⟨.inr (by omega), rfl⟩]
        by_cases hw : s.cfg.stuckBusyOp = .wd
        · simp [hw, State.completeIo, State.raiseIo, State.markBusy, State.writeExtLine]
        · simp [hw, State.completeIo, State.raiseIo, State.markBusy, State.writeExtLine,
            busy_set_clear hb]

/-- All that SD's rule does (44_channel_io.md R196). -/
theorem sdRule_cases (a : Nat) (s : State) :
    (1000 < a ∧ sdRule a s = .raised .invAddress s) ∨ (a ≤ 1000 ∧ sdRule a s = .done { s with extPtr := a }) := by
  by_cases h : 1000 < a
  · exact .inl ⟨h, by simp [sdRule, h]⟩
  · exact .inr ⟨by omega, by simp [sdRule, h]⟩

/-! ## Saving and restoring -/

/-- All that saving does (45_system.md R228). -/
theorem State.saveRegs_cases (s : State) (n : Nat) :
    (s.slot n = none ∧ s.saveRegs n = .stuck .inconsistent) ∨
    (∃ b, s.slot n = some b ∧ 99 < b.ic ∧ s.saveRegs n = .fatal .saveIcRange s) ∨
    (∃ b, s.slot n = some b ∧ b.ic ≤ 99 ∧
      s.saveRegs n = .done ((s.writeM (s.saveAddr n) b.tmp).writeM (s.saveAddr n + 1) (saveWord b))) := by
  unfold State.saveRegs
  cases h : s.slot n with
  | none => simp
  | some b => by_cases hb : 99 < b.ic <;> simp [hb]; omega

/-- A save changes only M, and there only the two words of the save area (45_system.md R228). -/
theorem State.saveRegs_done {s t : State} {n : Nat} (h : s.saveRegs n = .done t) :
    ∃ b, s.slot n = some b ∧ b.ic ≤ 99 ∧ t = { s with mem := t.mem } ∧
      t.readM (s.saveAddr n) = b.tmp ∧ t.readM (s.saveAddr n + 1) = saveWord b ∧
      ∀ k, k < 5 * s.saveAddr n ∨ 5 * (s.saveAddr n + 2) ≤ k → t.mem.byte k = s.mem.byte k := by
  rcases s.saveRegs_cases n with ⟨-, e⟩ | ⟨b, -, -, e⟩ | ⟨b, hb, hi, e⟩
  · rw [e] at h; cases h
  · rw [e] at h; cases h
  · rw [e] at h; cases h
    refine ⟨b, hb, hi, rfl, by simp, by simp, fun k hk => ?_⟩
    rw [State.writeM_byte_other _ _ (by omega), State.writeM_byte_other _ _ (by omega)]

/-- Every word but the two of the save area reads as before a save. -/
theorem State.saveRegs_readM {s t : State} {n a : Nat} (h : s.saveRegs n = .done t)
    (h0 : a ≠ s.saveAddr n) (h1 : a ≠ s.saveAddr n + 1) : t.readM a = s.readM a := by
  rcases s.saveRegs_cases n with ⟨-, e⟩ | ⟨b, -, -, e⟩ | ⟨b, hb, hi, e⟩
  · rw [e] at h; cases h
  · rw [e] at h; cases h
  · rw [e] at h; cases h; simp [h0, h1]

/-- A save of a bank whose IC fits goes through, and leaves exactly the save area changed (45_system.md R228). -/
theorem State.saveRegs_ok {s : State} {n : Nat} {b : Bank} (hb : s.slot n = some b) (hi : b.ic ≤ 99) :
    ∃ t, s.saveRegs n = .done t ∧ t = { s with mem := t.mem } ∧
      t.readM (s.saveAddr n) = b.tmp ∧ t.readM (s.saveAddr n + 1) = saveWord b ∧
      (∀ k, k < 5 * s.saveAddr n ∨ 5 * (s.saveAddr n + 2) ≤ k → t.mem.byte k = s.mem.byte k) ∧
      ∀ a, a ≠ s.saveAddr n → a ≠ s.saveAddr n + 1 → t.readM a = s.readM a := by
  rcases s.saveRegs_cases n with ⟨h, -⟩ | ⟨b', h, hl, -⟩ | ⟨b', h, -, e⟩ <;> rw [hb] at h <;> cases h
  · omega
  · obtain ⟨b', h1, -, h2, h3, h4, h5⟩ := State.saveRegs_done e
    rw [hb] at h1; cases h1
    exact ⟨_, e, h2, h3, h4, h5, fun a h6 h7 => State.saveRegs_readM e h6 h7⟩

/-- All that restoring does (45_system.md R229). -/
theorem State.restoreRegs_cases (s : State) (n : Nat) :
    (bankOfSave (s.readM (s.saveAddr n)) (s.readM (s.saveAddr n + 1)) = none ∧
      s.restoreRegs n = .fatal .badSaveArea s) ∨
    (∃ b, bankOfSave (s.readM (s.saveAddr n)) (s.readM (s.saveAddr n + 1)) = some b ∧
      s.restoreRegs n = .done (s.setSlot n (some b))) := by
  unfold State.restoreRegs
  cases bankOfSave (s.readM (s.saveAddr n)) (s.readM (s.saveAddr n + 1)) <;> simp

/-- A save area is two digits of IC, a digit 0 to 2 of C, and two characters that are ignored (45_system.md R229). -/
theorem bankOfSave_eq {w0 w1 : Word} (h0 : isDigit w1.c0 = true) (h1 : isDigit w1.c1 = true) {c : Cmp}
    (hc : w1.c2 = digitChar c.code) : bankOfSave w0 w1 = some ⟨w0, 10 * digitVal w1.c0 + digitVal w1.c1, c⟩ := by
  have h2 := c.code_le
  simp [bankOfSave, h0, h1, hc, isDigit_digitChar (show c.code ≤ 9 by omega),
    digitVal_digitChar (show c.code ≤ 9 by omega), numChars]

/-- The malformed save areas (45_system.md R229). -/
theorem bankOfSave_eq_none {w0 w1 : Word}
    (h : isDigit w1.c0 = false ∨ isDigit w1.c1 = false ∨ isDigit w1.c2 = false ∨ 2 < digitVal w1.c2) :
    bankOfSave w0 w1 = none := by
  unfold bankOfSave
  split
  · rename_i hd
    simp only [Bool.and_eq_true] at hd
    obtain ⟨⟨h0, h1⟩, h2⟩ := hd
    simp only [h0, h1, h2, Bool.true_eq_false, false_or] at h
    obtain ⟨k, hk⟩ : ∃ k, digitVal w1.c2 = k + 3 := ⟨digitVal w1.c2 - 3, by omega⟩
    rw [hk]; rfl
  · rfl

/-! ## Entering a handler and resuming -/

/-- All that reading a vector does (60_exceptions.md R261, R262). -/
theorem State.jumpToVector_cases (s : State) (v : Nat) :
    (isnum (s.readM (s.cfg.ivtBase + v)) = true ∧ num (s.readM (s.cfg.ivtBase + v)) < s.cfg.rmMemSize ∧
      s.jumpToVector v = .done { s with rm := { s.rm with ic := num (s.readM (s.cfg.ivtBase + v)) } }) ∨
    ((isnum (s.readM (s.cfg.ivtBase + v)) = false ∨ s.cfg.rmMemSize ≤ num (s.readM (s.cfg.ivtBase + v))) ∧
      s.jumpToVector v = .fatal .badVector s) := by
  unfold State.jumpToVector
  dsimp only
  split
  · rename_i h; exact .inl ⟨h.1, h.2, rfl⟩
  · rename_i h; rw [not_and_or, Bool.not_eq_true, Nat.not_lt] at h; exact .inr ⟨h, rfl⟩

/-- All that entering a handler does (60_exceptions.md R261). -/
theorem State.enterHandler_cases {s : State} {n : Nat} {b : Bank} (hc : s.cur = some n) (hb : s.slot n = some b)
    (v : Nat) (cause : Service) :
    (99 < b.ic ∧ s.enterHandler v cause = .fatal .saveIcRange s) ∨
    (b.ic ≤ 99 ∧ ∃ t, s.saveRegs n = .done t ∧
      ((isnum (t.readM (s.cfg.ivtBase + v)) = true ∧ num (t.readM (s.cfg.ivtBase + v)) < s.cfg.rmMemSize ∧
        s.enterHandler v cause = .done
          { t.suspend n cause with rm := { s.rm with ic := num (t.readM (s.cfg.ivtBase + v)) } }) ∨
       ((isnum (t.readM (s.cfg.ivtBase + v)) = false ∨ s.cfg.rmMemSize ≤ num (t.readM (s.cfg.ivtBase + v))) ∧
        s.enterHandler v cause = .fatal .badVector (t.suspend n cause)))) := by
  rcases s.saveRegs_cases n with ⟨h, -⟩ | ⟨b', h, hi, e⟩ | ⟨b', h, hi, e⟩
  · rw [hb] at h; cases h
  · rw [hb] at h; cases h
    exact .inl ⟨hi, by simp [State.enterHandler, hc, e, Effect.andThen]⟩
  · rw [hb] at h; cases h
    have hcfg : ((s.writeM (s.saveAddr n) b.tmp).writeM (s.saveAddr n + 1) (saveWord b)).cfg = s.cfg := rfl
    have hrm : ((s.writeM (s.saveAddr n) b.tmp).writeM (s.saveAddr n + 1) (saveWord b)).rm = s.rm := rfl
    refine .inr ⟨hi, _, e, ?_⟩
    generalize (s.writeM (s.saveAddr n) b.tmp).writeM (s.saveAddr n + 1) (saveWord b) = t at *
    have j := (t.suspend n cause).jumpToVector_cases v
    simp only [State.suspend_readM, State.suspend_cfg, State.suspend_rm, hcfg, hrm] at j
    simpa only [State.enterHandler, hc, e, Effect.andThen, State.suspend_cfg, hcfg] using j

/-- Resuming clears the cause in service and nothing else (45_system.md R225). -/
theorem State.clearServiced_causes (s : State) :
    (s.clearServiced.pi = if s.svc = .pi then none else s.pi) ∧
    ∀ ch, bitOf s.clearServiced.ioi ch = (bitOf s.ioi ch && decide (s.svc ≠ .io ch)) := by
  unfold State.clearServiced
  cases h : s.svc with
  | none => simp
  | pi => simp
  | timer => simp
  | io d => simp [State.clearIo, eq_comm]

/-- All that resuming does (45_system.md R225). -/
theorem State.enter_eq (s : State) (n : Nat) :
    s.enter n = { s with
      rm := { s.rm with ic := s.rm.ic + 1 }
      ptr := s.cfg.ptb n
      pi := s.clearServiced.pi
      ioi := s.clearServiced.ioi
      ti := s.cfg.timerDefault
      mode := .user
      cur := some n
      svc := .none } := by
  unfold State.enter State.clearServiced
  cases s.svc <;> rfl

/-- The table STVM writes lies inside M (00_scope.md R8). -/
theorem Config.Ok.table {c : Config} (h : c.Ok) {n : Nat} (hn : n < c.nSlots) : c.ptb n + 10 ≤ c.rmMemSize := by
  obtain ⟨-, -, h3, -⟩ := h
  simp only [Config.ptb]; omega

/-- A window lies inside M (20_memory.md R66). -/
theorem Config.Ok.window {c : Config} (h : c.Ok) {n : Nat} (hn : n < c.nSlots) : c.win n + 100 ≤ c.rmMemSize := by
  obtain ⟨-, -, -, h4, -⟩ := h
  simp only [Config.win]; omega

/-- A save area lies inside its window (00_scope.md R8). -/
theorem Config.Ok.saveArea {s : State} (h : s.cfg.Ok) {n : Nat} :
    s.cfg.win n + 90 ≤ s.saveAddr n ∧ s.saveAddr n + 1 < s.cfg.win n + 100 := by
  obtain ⟨-, -, -, -, h5, -⟩ := h
  simp only [State.saveAddr]; omega

/-- All that allocating does (45_system.md R223): the ten table words, and a fresh bank. -/
theorem State.allocate_cases (s : State) (n : Nat) :
    ∃ m, s.allocate n = State.setSlot { s with mem := m } n (some (Bank.fresh 0)) ∧
      (∀ i < 10, readWord m.byte (s.cfg.ptb n + i) = pad5 (s.cfg.win n + 10 * i)) ∧
      (∀ k, k < 5 * s.cfg.ptb n ∨ 5 * (s.cfg.ptb n + 10) ≤ k → m.byte k = s.mem.byte k) ∧
      (s.cfg.ptb n + 10 ≤ s.cfg.rmMemSize → s.mem.wf s.cfg.rmMemSize → m.wf s.cfg.rmMemSize) := by
  have hl : (freshTable s.cfg n).length = 10 := by simp [freshTable]
  refine ⟨(s.writeWords (s.cfg.ptb n) (freshTable s.cfg n)).mem, ?_, fun i hi => ?_, fun k hk => ?_, fun ht hm => ?_⟩
  · unfold State.allocate; conv_lhs => rw [State.writeWords_eq]
  · show (s.writeWords (s.cfg.ptb n) (freshTable s.cfg n)).readM (s.cfg.ptb n + i) = _
    rw [State.readM_writeWords]; simp [freshTable, hi]
  · exact s.writeWords_byte_other _ _ (by rw [hl]; exact hk)
  · refine State.writeWords_wf hm (by rw [hl]; exact ht) fun w hw => ?_
    simp only [freshTable, List.mem_map] at hw
    obtain ⟨i, -, rfl⟩ := hw
    exact pad5_ascii _

/-! ## Translation, trap service, dispatch -/

/-- All that translating answers (20_memory.md R70). -/
theorem State.translate_cases (s : State) (rel : Nat) :
    ((s.cfg.rmMemSize ≤ s.ptr + rel / 10 ∨ isnum (s.readM (s.ptr + rel / 10)) = true ∧
        s.cfg.rmMemSize ≤ num (s.readM (s.ptr + rel / 10)) + rel % 10) ∧ s.translate rel = .outside) ∨
    (s.ptr + rel / 10 < s.cfg.rmMemSize ∧ isnum (s.readM (s.ptr + rel / 10)) = false ∧ s.translate rel = .badEntry) ∨
    (s.ptr + rel / 10 < s.cfg.rmMemSize ∧ isnum (s.readM (s.ptr + rel / 10)) = true ∧
      num (s.readM (s.ptr + rel / 10)) + rel % 10 < s.cfg.rmMemSize ∧
      s.translate rel = .address (num (s.readM (s.ptr + rel / 10)) + rel % 10)) := by
  unfold State.translate
  dsimp only
  split
  · exact .inl ⟨.inl (by assumption), rfl⟩
  · rename_i h0
    cases h1 : isnum (s.readM (s.ptr + rel / 10)) with
    | false => exact .inr (.inl ⟨by omega, rfl, by simp⟩)
    | true =>
      simp only [Bool.not_true, Bool.false_eq_true, if_false]
      split
      · exact .inl ⟨.inr ⟨trivial, by assumption⟩, rfl⟩
      · exact .inr (.inr ⟨by omega, trivial, by omega, rfl⟩)

/-- A trap service of a channel command saves, replays and ends as the replay does (60_exceptions.md R258, R259). -/
theorem State.serviceTrap_eq {s : State} {n : Nat} {b : Bank} {i : Instr} {a : Nat} {rule : ChannelRule}
    (hc : s.cur = some n) (hb : s.slot n = some b)
    (hd : decode s.cfg.haltPad (s.readM (s.cfg.win n + b.ic)) = .ok i) (hi : channelOp i = some (a, rule)) :
    s.serviceTrap = (s.saveRegs n).andThen fun s1 =>
      (s1.replay a rule).endTrap n := by
  simp only [State.serviceTrap, hc, hb, hd, hi]

/-- All that the dispatcher chooses (60_exceptions.md R257). -/
theorem State.dispatch_cases (s : State) :
    (s.si = some .halt ∧ s.dispatch = .done s.serviceHalt) ∨
    (s.si ≠ none ∧ s.si ≠ some .halt ∧ s.dispatch = s.serviceTrap) ∨
    (s.si = none ∧ ∃ f, s.pi = some f ∧ s.dispatch = s.enterHandler (vec f) .pi) ∨
    (s.si = none ∧ s.pi = none ∧ s.ti = 0 ∧ s.dispatch = s.enterHandler 3 .timer) ∨
    (s.si = none ∧ s.pi = none ∧ s.ti ≠ 0 ∧
      ∃ ch, lowestIo s.ioi = some ch ∧ s.dispatch = s.enterHandler (4 + ch.index) (.io ch)) ∨
    (s.si = none ∧ s.pi = none ∧ s.ti ≠ 0 ∧ s.ioi = 0 ∧ s.dispatch = .done s) := by
  unfold State.dispatch
  cases hs : s.si with
  | some op => cases op <;> simp
  | none =>
    cases hp : s.pi with
    | some f => simp
    | none =>
      by_cases ht : s.ti = 0
      · simp [ht]
      · cases hl : lowestIo s.ioi with
        | some ch => simp [ht]
        | none => simp [ht, lowestIo_none.mp hl]

/-! ## Fetch and step -/

theorem State.fetch_command {s : State} {ctx : Ctx} {ic : Nat} {i : Instr} :
    s.fetch ctx ic = .command i ↔
      ic < s.sizeCtx ctx ∧ decode s.cfg.haltPad (s.readM (s.absCtx ctx ic)) = .ok i := by
  unfold State.fetch
  by_cases h : ic < s.sizeCtx ctx
  · rw [State.readCtx_some h]
    cases hd : decode s.cfg.haltPad (s.readM (s.absCtx ctx ic)) <;> simp [h, hd]
  · rw [State.readCtx_none (Nat.le_of_not_lt h)]; simp [h]

theorem State.fetch_outside {s : State} {ctx : Ctx} {ic : Nat} (h : s.sizeCtx ctx ≤ ic) :
    s.fetch ctx ic = .fault .invAddress := by simp [State.fetch, State.readCtx_none h]

theorem State.fetch_error {s : State} {ctx : Ctx} {ic : Nat} {e : DecodeError} (h : ic < s.sizeCtx ctx)
    (hd : decode s.cfg.haltPad (s.readM (s.absCtx ctx ic)) = .error e) : s.fetch ctx ic = .fault .invOp := by
  simp [State.fetch, State.readCtx_some h, hd]

theorem step_rm {s : State} (h : s.cfg.Ok) (hr : s.run = .running) (hm : s.mode = .supervisor) :
    step s = s.supervisorStep := by simp only [step, if_pos h, hr, hm]

theorem step_vm {s : State} (h : s.cfg.Ok) (hr : s.run = .running) (hm : s.mode = .user) :
    step s = s.userStep := by simp only [step, if_pos h, hr, hm]

/-- A VM step ends with the tick and the dispatch, unless the instruction stopped the core (40_cycle.md R125). -/
theorem State.endUserStep_running {s : State} (h : s.run = .running) : s.endUserStep = s.tick.dispatch.inVm := by
  simp [State.endUserStep, h]

/-- A step that answers a next state ran the core: the configuration is allowed and RUN was RUNNING. -/
theorem step_next {s t : State} (h : step s = .next t) : s.cfg.Ok ∧ s.run = .running := by
  unfold step at h
  split at h
  · rename_i hk
    refine ⟨hk, ?_⟩
    split at h
    · assumption
    · cases h
  · cases h

end Sys2Proof.Machine
end

