-- ==== Sys2Proof/Laws/Exec.lean ====
section
/-! SUPPORT. Once for each rule and each context: everything an instruction can do. -/

namespace Sys2Proof.Machine

open Sys2Proof

/-! ## The rules of the direct opcodes -/

/-- All that CR's rule does (41_transfer.md R140). -/
theorem loadTmp_cases (ctx : Ctx) (b : Bank) (a : Nat) (s : State) :
    (s.sizeCtx ctx ≤ a ∧ loadTmp ctx b a s = .raised .invAddress s) ∨
    (a < s.sizeCtx ctx ∧
      loadTmp ctx b a s = .done (s.setBank ctx ⟨s.readM (s.absCtx ctx a), b.ic + 1, b.c⟩)) := by
  by_cases h : a < s.sizeCtx ctx
  · exact .inr ⟨h, by rw [loadTmp, State.readCtx_some h]; rfl⟩
  · exact .inl ⟨Nat.le_of_not_lt h, by rw [loadTmp, State.readCtx_none (Nat.le_of_not_lt h)]⟩

/-- All that CM's rule does (41_transfer.md R141). -/
theorem storeTmp_cases (ctx : Ctx) (b : Bank) (a : Nat) (s : State) :
    (s.sizeCtx ctx ≤ a ∧ storeTmp ctx b a s = .raised .invAddress s) ∨
    (a < s.sizeCtx ctx ∧ storeTmp ctx b a s = .done ((s.writeM (s.absCtx ctx a) b.tmp).setBank ctx b.advance)) := by
  by_cases h : a < s.sizeCtx ctx
  · exact .inr ⟨h, by rw [storeTmp, if_pos h]⟩
  · exact .inl ⟨Nat.le_of_not_lt h, by rw [storeTmp, if_neg h]⟩

/-- All that the arithmetic rules do (42_alu.md R150). -/
theorem arith_cases (op : ArithOp) (ctx : Ctx) (b : Bank) (a : Nat) (s : State) :
    (s.sizeCtx ctx ≤ a ∧ arith op ctx b a s = .raised .invAddress s) ∨
    (a < s.sizeCtx ctx ∧ op.divides = true ∧ s.readM (s.absCtx ctx a) = word "00000" ∧
      arith op ctx b a s = .raised .overflow s) ∨
    (a < s.sizeCtx ctx ∧ (op.divides = true → s.readM (s.absCtx ctx a) ≠ word "00000") ∧
      (isnum b.tmp = false ∨ isnum (s.readM (s.absCtx ctx a)) = false) ∧ arith op ctx b a s = .fatal .nonNumeric s) ∨
    (a < s.sizeCtx ctx ∧ (op.divides = true → s.readM (s.absCtx ctx a) ≠ word "00000") ∧
      isnum b.tmp = true ∧ isnum (s.readM (s.absCtx ctx a)) = true ∧
      (op.apply (num b.tmp) (num (s.readM (s.absCtx ctx a))) < 0 ∨
        99999 < op.apply (num b.tmp) (num (s.readM (s.absCtx ctx a)))) ∧
      arith op ctx b a s = .raised .overflow s) ∨
    (a < s.sizeCtx ctx ∧ (op.divides = true → s.readM (s.absCtx ctx a) ≠ word "00000") ∧
      isnum b.tmp = true ∧ isnum (s.readM (s.absCtx ctx a)) = true ∧
      ∃ r : Nat, op.apply (num b.tmp) (num (s.readM (s.absCtx ctx a))) = r ∧ r ≤ 99999 ∧
        arith op ctx b a s = .done (s.setBank ctx ⟨pad5 r, b.ic + 1, b.c⟩)) := by
  by_cases h : a < s.sizeCtx ctx
  · right
    simp only [arith, State.readCtx_some h, h, true_and]
    generalize s.readM (s.absCtx ctx a) = m
    by_cases hz : op.divides = true ∧ m = word "00000"
    · left; simp [hz.1, hz.2]
    · right
      have hz1 : (op.divides && decide (m = word "00000")) = false := by
        cases hd : op.divides <;> simp_all
      have hz2 : op.divides = true → m ≠ word "00000" := fun h1 h2 => hz ⟨h1, h2⟩
      simp only [hz1, Bool.false_eq_true, if_false]
      cases hb : isnum b.tmp with
      | false => left; exact ⟨hz2, .inl rfl, rfl⟩
      | true =>
        cases hm : isnum m with
        | false => left; exact ⟨hz2, .inr rfl, rfl⟩
        | true =>
          right
          simp only [Bool.and_self, Bool.not_true, Bool.false_eq_true, if_false, true_and]
          by_cases h1 : 99999 < op.apply (num b.tmp) (num m)
          · left; exact ⟨hz2, .inr h1, by rw [if_pos h1]⟩
          · by_cases h2 : op.apply (num b.tmp) (num m) < 0
            · left; exact ⟨hz2, .inl h2, by rw [if_neg h1, if_pos h2]⟩
            · right
              obtain ⟨r, hr⟩ := Int.eq_ofNat_of_zero_le (Int.not_lt.mp h2)
              refine ⟨hz2, r, hr, by omega, ?_⟩
              rw [if_neg h1, if_neg h2, hr]; rfl
  · exact .inl ⟨Nat.le_of_not_lt h, by rw [arith, State.readCtx_none (Nat.le_of_not_lt h)]⟩

/-- All that CP's rule does (42_alu.md R156). -/
theorem compareTmp_cases (ctx : Ctx) (b : Bank) (a : Nat) (s : State) :
    (s.sizeCtx ctx ≤ a ∧ compareTmp ctx b a s = .raised .invAddress s) ∨
    (a < s.sizeCtx ctx ∧
      compareTmp ctx b a s =
        .done (s.setBank ctx ⟨b.tmp, b.ic + 1, compareWords b.tmp (s.readM (s.absCtx ctx a))⟩)) := by
  by_cases h : a < s.sizeCtx ctx
  · exact .inr ⟨h, by rw [compareTmp, State.readCtx_some h]; rfl⟩
  · exact .inl ⟨Nat.le_of_not_lt h, by rw [compareTmp, State.readCtx_none (Nat.le_of_not_lt h)]⟩

/-- All that a jump does (43_control.md R170). -/
theorem jump_cases (ctx : Ctx) (b : Bank) (a : Nat) (s : State) :
    (s.sizeCtx ctx < a ∧ jump ctx b a s = .raised .invAddress s) ∨
    (a ≤ s.sizeCtx ctx ∧ jump ctx b a s = .done (s.setBank ctx ⟨b.tmp, a, b.c⟩)) := by
  by_cases h : s.sizeCtx ctx < a
  · exact .inl ⟨h, by rw [jump, if_pos h]⟩
  · exact .inr ⟨Nat.le_of_not_lt h, by rw [jump, if_neg h]⟩

/-- All that a conditional jump does (43_control.md R171 to R173). -/
theorem jumpIf_cases (want : Cmp) (ctx : Ctx) (b : Bank) (a : Nat) (s : State) :
    (b.c = want ∧ jumpIf want ctx b a s = jump ctx b a s) ∨
    (b.c ≠ want ∧ jumpIf want ctx b a s = .done (s.setBank ctx ⟨b.tmp, b.ic + 1, b.c⟩)) := by
  by_cases h : b.c = want
  · exact .inl ⟨h, by rw [jumpIf, if_pos h]⟩
  · exact .inr ⟨h, by rw [jumpIf, if_neg h]; rfl⟩

/-- What a direct opcode can do in any context: fault, be fatal, write the registers of its context (C only if it is
CP), or store TMP in the memory of its context. -/
inductive DirectOutcome (i : Instr) (s : State) (ctx : Ctx) (b : Bank) : Effect → Prop
  | raised (f : ProgramFault) : DirectOutcome i s ctx b (.raised f s)
  | fatal : DirectOutcome i s ctx b (.fatal .nonNumeric s)
  | bank (c : Bank) (h : c.c = b.c ∨ ∃ x y z, i = .cp x y z) : DirectOutcome i s ctx b (.done (s.setBank ctx c))
  | store (a : Nat) (h : a < s.sizeCtx ctx) (hi : ∃ x y z, i = .cm x y z) :
    DirectOutcome i s ctx b (.done ((s.writeM (s.absCtx ctx a) b.tmp).setBank ctx b.advance))

/-- The rule of a direct opcode. -/
def directRule : Instr → Option (Nat × Nat × Nat × DirectRule)
  | .cr x y z => some (x, y, z, loadTmp)
  | .cm x y z => some (x, y, z, storeTmp)
  | .ad x y z => some (x, y, z, arith .add)
  | .sb x y z => some (x, y, z, arith .sub)
  | .ml x y z => some (x, y, z, arith .mul)
  | .md x y z => some (x, y, z, arith .rem)
  | .dv x y z => some (x, y, z, arith .div)
  | .cp x y z => some (x, y, z, compareTmp)
  | .jp x y z => some (x, y, z, jump)
  | .je x y z => some (x, y, z, jumpIf .equal)
  | .jl x y z => some (x, y, z, jumpIf .less)
  | .jm x y z => some (x, y, z, jumpIf .more)
  | _ => none

/-- A direct opcode runs its rule in its context. -/
theorem exec_direct {i : Instr} {x y z : Nat} {rule : DirectRule} (h : directRule i = some (x, y, z, rule))
    (s : State) : exec i s = s.direct x y z rule := by
  cases i <;> simp only [directRule, Option.some.injEq, Prod.mk.injEq, reduceCtorEq] at h
  all_goals (obtain ⟨rfl, rfl, rfl, rfl⟩ := h; rfl)

/-- Everything a direct opcode's rule can do. -/
theorem directRule_outcome {i : Instr} {x y z : Nat} {rule : DirectRule} (h : directRule i = some (x, y, z, rule))
    (ctx : Ctx) (b : Bank) (a : Nat) (s : State) : DirectOutcome i s ctx b (rule ctx b a s) := by
  have ar : ∀ i op, DirectOutcome i s ctx b (arith op ctx b a s) := by
    intro i op
    rcases arith_cases op ctx b a s with
      ⟨-, e⟩ | ⟨-, -, -, e⟩ | ⟨-, -, -, e⟩ | ⟨-, -, -, -, -, e⟩ | ⟨-, -, -, -, r, -, -, e⟩ <;> rw [e]
    · exact .raised _
    · exact .raised _
    · exact .fatal
    · exact .raised _
    · exact .bank _ (.inl rfl)
  have ju : ∀ i, DirectOutcome i s ctx b (jump ctx b a s) := by
    intro i
    rcases jump_cases ctx b a s with ⟨-, e⟩ | ⟨-, e⟩ <;> rw [e]
    · exact .raised _
    · exact .bank _ (.inl rfl)
  have ji : ∀ i w, DirectOutcome i s ctx b (jumpIf w ctx b a s) := by
    intro i w
    rcases jumpIf_cases w ctx b a s with ⟨-, e⟩ | ⟨-, e⟩ <;> rw [e]
    · exact ju i
    · exact .bank _ (.inl rfl)
  cases i <;> simp only [directRule, Option.some.injEq, Prod.mk.injEq, reduceCtorEq] at h
  all_goals obtain ⟨rfl, rfl, rfl, rfl⟩ := h
  case cr =>
    rcases loadTmp_cases ctx b a s with ⟨-, e⟩ | ⟨-, e⟩ <;> rw [e]
    · exact .raised _
    · exact .bank _ (.inl rfl)
  case cm =>
    rcases storeTmp_cases ctx b a s with ⟨-, e⟩ | ⟨h, e⟩ <;> rw [e]
    · exact .raised _
    · exact .store _ h ⟨_, _, _, rfl⟩
  case cp =>
    rcases compareTmp_cases ctx b a s with ⟨-, e⟩ | ⟨h, e⟩ <;> rw [e]
    · exact .raised _
    · exact .bank _ (.inr ⟨_, _, _, rfl⟩)
  case jp => exact ju _
  case je => exact ji _ _
  case jl => exact ji _ _
  case jm => exact ji _ _
  all_goals exact ar _ _

/-! ## What an instruction can do in each context -/

/-- All that an instruction does when a VM executes it, before the tick and the dispatch (40_cycle.md R125). -/
inductive VmOutcome (i : Instr) (s : State) (n : Nat) (b : Bank) : State → Prop
  | fault (f : ProgramFault) : VmOutcome i s n b (s.vmFault f)
  | fatal (r : FatalReason) (h : ∀ f, r ≠ .supervisorFault f) : VmOutcome i s n b (s.fatal r)
  | trap (op : Trap) (a : Nat) (rule : ChannelRule) (h : channelOp i = some (a, rule)) (ho : op ≠ .halt) :
    VmOutcome i s n b { s with si := some op }
  | halt (h : i = .halt) : VmOutcome i s n b { s.setSlot n none with si := some .halt, cur := none }
  | bank (c : Bank) (h : c.c = b.c ∨ ∃ x y z, i = .cp x y z) : VmOutcome i s n b (s.setSlot n (some c))
  | store (a : Nat) (h : a < 100) (hi : ∃ x y z, i = .cm x y z) :
    VmOutcome i s n b ((s.writeM (s.cfg.win n + a) b.tmp).setSlot n (some b.advance))

theorem exec_vm {s : State} {n : Nat} {b : Bank} (hm : s.mode = .user) (hc : s.cur = some n) (hb : s.slot n = some b)
    (i : Instr) : ∃ t, exec i s = .next t ∧ VmOutcome i s n b t := by
  have direct : ∀ x y z rule, directRule i = some (x, y, z, rule) →
      ∃ t, s.direct x y z rule = .next t ∧ VmOutcome i s n b t := by
    intro x y z rule h
    by_cases hx : x = 0
    · subst hx
      rw [State.direct_vm hm hc hb]
      have o := directRule_outcome h (.vm n) b (argument 0 y z) s
      generalize rule (.vm n) b (argument 0 y z) s = e at o
      cases o with
      | raised f => exact ⟨_, rfl, .fault f⟩
      | fatal => exact ⟨_, rfl, .fatal _ (by simp)⟩
      | bank c h => exact ⟨_, rfl, .bank c h⟩
      | store a h hi => exact ⟨_, rfl, .store a h hi⟩
    · rw [State.direct_hundreds hm hc hb hx]; exact ⟨_, rfl, .fault _⟩
  have trap : ∀ op x r a rule, channelOp i = some (a, rule) → op ≠ .halt →
      ∃ t, s.trapOr op x r = .next t ∧ VmOutcome i s n b t := by
    intro op x r a rule h ho
    by_cases hx : x = 0
    · exact ⟨_, by simp [State.trapOr, hm, hx], .trap op a rule h ho⟩
    · exact ⟨_, by simp [State.trapOr, hm, hx], .fault .invAddress⟩
  have supA : ∀ x r, ∃ t, s.supervisorOnlyA x r = .next t ∧ VmOutcome i s n b t := by
    intro x r
    by_cases hx : x = 0
    · exact ⟨_, by simp [State.supervisorOnlyA, hm, hx], .fatal .unhandledCommand (by simp)⟩
    · exact ⟨_, by simp [State.supervisorOnlyA, hm, hx], .fault .invAddress⟩
  have supB : ∀ r, ∃ t, s.supervisorOnlyB r = .next t ∧ VmOutcome i s n b t := by
    intro r
    exact ⟨_, by simp [State.supervisorOnlyB, hm], .fatal .unhandledCommand (by simp)⟩
  cases i with
  | cr x y z => exact direct _ _ _ _ rfl
  | cm x y z => exact direct _ _ _ _ rfl
  | ad x y z => exact direct _ _ _ _ rfl
  | sb x y z => exact direct _ _ _ _ rfl
  | ml x y z => exact direct _ _ _ _ rfl
  | md x y z => exact direct _ _ _ _ rfl
  | dv x y z => exact direct _ _ _ _ rfl
  | cp x y z => exact direct _ _ _ _ rfl
  | jp x y z => exact direct _ _ _ _ rfl
  | je x y z => exact direct _ _ _ _ rfl
  | jl x y z => exact direct _ _ _ _ rfl
  | jm x y z => exact direct _ _ _ _ rfl
  | halt => exact ⟨_, by simp only [exec, execHalt, hm, hc], .halt rfl⟩
  | gd x y z => exact trap _ _ _ _ _ rfl (by simp)
  | pd x y z => exact trap _ _ _ _ _ rfl (by simp)
  | rd x y z => exact trap _ _ _ _ _ rfl (by simp)
  | wd x y z => exact trap _ _ _ _ _ rfl (by simp)
  | sd x y z => exact trap _ _ _ _ _ rfl (by simp)
  | gt x y z => exact supA _ _
  | pt x y z => exact supA _ _
  | stvm n => exact supB _
  | svrg n => exact supB _
  | ldrg n => exact supB _

/-- In the RM a channel opcode runs its rule and then advances RM.IC (44_channel_io.md R192). -/
theorem exec_channel_rm {i : Instr} {a : Nat} {rule : ChannelRule} (h : channelOp i = some (a, rule)) {s : State}
    (hm : s.mode = .supervisor) : exec i s = s.channelInRm rule a := by
  cases i <;> simp only [channelOp, Option.some.injEq, Prod.mk.injEq, reduceCtorEq] at h
  all_goals
    obtain ⟨rfl, rfl⟩ := h
    simp [exec, execGd, execPd, execRd, execWd, execSd, State.trapOr, hm]

/-- What a channel rule writes when it ends, whichever it is: M, the device registers, BUSY and IOI, and each device
register only by its own opcode. -/
theorem channelOp_done {i : Instr} {a k : Nat} {rule : ChannelRule} (h : channelOp i = some (a, rule)) {s t : State}
    (hd : rule k s = .done t ∨ ∃ f, rule k s = .raised f t) :
    t = { s with
      mem := t.mem, kbd := t.kbd, scr := t.scr, ext := t.ext, extPtr := t.extPtr, busy := t.busy, ioi := t.ioi } ∧
    (t.mem = s.mem ∨ (∃ x y z, i = .gd x y z) ∨ ∃ x y z, i = .rd x y z) ∧
    (t.kbd = s.kbd ∨ ∃ x y z, i = .gd x y z) ∧ (t.scr = s.scr ∨ ∃ x y z, i = .pd x y z) ∧
    (t.ext = s.ext ∨ ∃ x y z, i = .wd x y z) ∧ (t.extPtr = s.extPtr ∨ ∃ x y z, i = .sd x y z) := by
  cases i <;> simp only [channelOp, Option.some.injEq, Prod.mk.injEq, reduceCtorEq] at h
  all_goals obtain ⟨rfl, rfl⟩ := h
  case gd =>
    rcases gdRule_cases k s with ⟨-, e⟩ | ⟨-, -, e⟩ | ⟨-, -, e⟩ <;> rw [e] at hd <;> simp at hd <;> subst hd <;> simp
  case pd =>
    rcases pdRule_cases k s with ⟨-, e⟩ | ⟨-, -, e⟩ | ⟨-, -, e⟩ <;> rw [e] at hd <;> simp at hd <;> subst hd <;> simp
  case rd =>
    rcases rdRule_cases k s with ⟨-, e⟩ | ⟨-, -, e⟩ | ⟨-, -, -, m, e, -⟩ | ⟨-, -, -, m, e, -⟩ <;> rw [e] at hd <;>
      simp at hd <;> subst hd <;> simp
  case wd =>
    rcases wdRule_cases k s with ⟨-, e⟩ | ⟨-, -, e⟩ | ⟨-, -, -, e⟩ | ⟨-, -, -, e⟩ <;> rw [e] at hd <;>
      simp at hd <;> subst hd <;> simp
  case sd =>
    rcases sdRule_cases k s with ⟨-, e⟩ | ⟨-, e⟩ <;> rw [e] at hd <;> simp at hd <;> subst hd <;> simp

/-- What a channel rule leaves when it raises a fault: INV_ADDRESS, and only a RD has written words (40_cycle.md R134,
44_channel_io.md R194; which words, `rdRule_cases` says). -/
theorem channelOp_raised {i : Instr} {a k : Nat} {rule : ChannelRule} (h : channelOp i = some (a, rule)) {s t : State}
    {f : ProgramFault} (hr : rule k s = .raised f t) :
    f = .invAddress ∧ t = { s with mem := t.mem } ∧ (t = s ∨ ∃ x y z, i = .rd x y z) := by
  cases i <;> simp only [channelOp, Option.some.injEq, Prod.mk.injEq, reduceCtorEq] at h
  all_goals obtain ⟨rfl, rfl⟩ := h
  case gd =>
    rcases gdRule_cases k s with ⟨-, e⟩ | ⟨-, -, e⟩ | ⟨-, -, e⟩ <;> rw [e] at hr <;> cases hr
    simp
  case pd =>
    rcases pdRule_cases k s with ⟨-, e⟩ | ⟨-, -, e⟩ | ⟨-, -, e⟩ <;> rw [e] at hr <;> cases hr
    simp
  case rd =>
    rcases rdRule_cases k s with ⟨-, e⟩ | ⟨-, -, e⟩ | ⟨-, -, -, m, e, -⟩ | ⟨-, -, -, m, e, -⟩ <;> rw [e] at hr <;> cases hr
    simp
  case wd =>
    rcases wdRule_cases k s with ⟨-, e⟩ | ⟨-, -, e⟩ | ⟨-, -, -, e⟩ | ⟨-, -, -, e⟩ <;> rw [e] at hr <;> cases hr
    simp
  case sd =>
    rcases sdRule_cases k s with ⟨-, e⟩ | ⟨-, e⟩ <;> rw [e] at hr <;> cases hr
    simp

/-- A channel rule that is fatal changes nothing, and one that is stuck stalls on its busy bit. -/
theorem channelOp_stops {i : Instr} {a k : Nat} {rule : ChannelRule} (h : channelOp i = some (a, rule)) (s : State) :
    (∀ r t, rule k s = .fatal r t → r = .extRange ∧ t = s) ∧
    (∀ f, rule k s = .stuck f → ∃ ch, f = .stalled ch ∧ bitOf s.busy ch = true) := by
  cases i <;> simp only [channelOp, Option.some.injEq, Prod.mk.injEq, reduceCtorEq] at h
  all_goals obtain ⟨rfl, rfl⟩ := h
  case gd =>
    rcases gdRule_cases k s with ⟨hb, e⟩ | ⟨-, -, e⟩ | ⟨-, -, e⟩ <;> rw [e] <;>
      refine ⟨fun r t h => ?_, fun f h => ?_⟩ <;> cases h
    exact ⟨_, rfl, hb⟩
  case pd =>
    rcases pdRule_cases k s with ⟨hb, e⟩ | ⟨-, -, e⟩ | ⟨-, -, e⟩ <;> rw [e] <;>
      refine ⟨fun r t h => ?_, fun f h => ?_⟩ <;> cases h
    exact ⟨_, rfl, hb⟩
  case rd =>
    rcases rdRule_cases k s with ⟨hb, e⟩ | ⟨-, -, e⟩ | ⟨-, -, -, m, e, -⟩ | ⟨-, -, -, m, e, -⟩ <;> rw [e] <;>
      refine ⟨fun r t h => ?_, fun f h => ?_⟩ <;> cases h
    · exact ⟨_, rfl, hb⟩
    · exact ⟨rfl, rfl⟩
  case wd =>
    rcases wdRule_cases k s with ⟨hb, e⟩ | ⟨-, -, e⟩ | ⟨-, -, -, e⟩ | ⟨-, -, -, e⟩ <;> rw [e] <;>
      refine ⟨fun r t h => ?_, fun f h => ?_⟩ <;> cases h
    · exact ⟨_, rfl, hb⟩
    · exact ⟨rfl, rfl⟩
  case sd =>
    rcases sdRule_cases k s with ⟨-, e⟩ | ⟨-, e⟩ <;> rw [e] <;>
      refine ⟨fun r t h => ?_, fun f h => ?_⟩ <;> cases h

end Sys2Proof.Machine
end

