-- ==== Sys2Proof/Laws/Host.lean ====
section
/-! SUPPORT. What the host's operations can do: texts as words, a supplied external memory, reset, the keyboard, the view. -/

namespace Sys2Proof.Machine

open Sys2Proof

/-! ## Texts -/

/-- A text of five ASCII characters is the word of those characters (10_state.md R21). -/
theorem wordOfText_some {text : List Byte} (h : IsWordText text) : ∃ w, wordOfText text = some w ∧ w.chars = text := by
  obtain ⟨hl, ha⟩ := h
  match text, hl with
  | [a, b, c, d, e], _ => exact ⟨⟨a, b, c, d, e⟩, by unfold wordOfText; rw [if_pos (by simpa using ha)]; rfl, rfl⟩

/-- Any other text is no word. -/
theorem wordOfText_none {text : List Byte} (h : ¬ IsWordText text) : wordOfText text = none := by
  unfold wordOfText
  split
  · rename_i ha
    have hl : text.length ≠ 5 := fun hl => h ⟨hl, by simpa using ha⟩
    match text, hl with
    | [], _ | [_], _ | [_, _], _ | [_, _, _], _ | [_, _, _, _], _ | _ :: _ :: _ :: _ :: _ :: _ :: _, _ => rfl
    | [_, _, _, _, _], hl => exact absurd rfl hl
  · rfl

theorem wordsOfTexts_some {texts : List (List Byte)} (h : ∀ text ∈ texts, IsWordText text) :
    ∃ ws, wordsOfTexts texts = some ws ∧ ws.map Word.chars = texts := by
  induction texts with
  | nil => exact ⟨[], rfl, rfl⟩
  | cons t ts ih =>
    obtain ⟨w, h1, h2⟩ := wordOfText_some (h t (by simp))
    obtain ⟨ws, h3, h4⟩ := ih fun u hu => h u (by simp [hu])
    unfold wordsOfTexts at h3
    exact ⟨w :: ws, by simp [wordsOfTexts, List.mapM_cons, h1, h3], by simp [h2, h4]⟩

theorem wordsOfTexts_none {texts : List (List Byte)} (h : ∃ text ∈ texts, ¬ IsWordText text) :
    wordsOfTexts texts = none := by
  obtain ⟨u, hu, hn⟩ := h
  induction texts with
  | nil => cases hu
  | cons t ts ih =>
    unfold wordsOfTexts at ih ⊢
    rw [List.mapM_cons]
    rcases List.mem_cons.mp hu with rfl | hu
    · simp [wordOfText_none hn]
    · simp [ih hu]

/-! ## A supplied external memory -/

/-- Word `i` of line `p` is word 10p + i of the lines joined. -/
theorem flatten_lines {α : Type} {lines : List (List α)} (h : ∀ line ∈ lines, line.length = 10) {p i : Nat}
    {l : List α} {x : α} (hp : lines[p]? = some l) (hi : l[i]? = some x) : lines.flatten[10 * p + i]? = some x := by
  induction lines generalizing p with
  | nil => simp at hp
  | cons l' ls ih =>
    have hl : l'.length = 10 := h l' (by simp)
    cases p with
    | zero =>
      simp only [List.getElem?_cons_zero, Option.some.injEq] at hp
      subst hp
      have := (List.getElem?_eq_some_iff.mp hi).1
      rw [List.flatten_cons, List.getElem?_append_left (by omega)]
      simpa using hi
    | succ p =>
      rw [List.flatten_cons, List.getElem?_append_right (by omega), hl, show 10 * (p + 1) + i - 10 = 10 * p + i by omega]
      exact ih (fun k hk => h k (by simp [hk])) (by simpa using hp)

/-- Lines of the right shape make an external memory that reads as they say (70_reset_and_hazards.md R302). -/
theorem extOfLines_some {lines : List (List (List Byte))} (h : IsExtText lines) :
    ∃ m, extOfLines lines = some m ∧ ∀ p l i text, lines[p]? = some l → l[i]? = some text →
      (readWord m.extByte (10 * p + i)).chars = text := by
  obtain ⟨hl, ha⟩ := h
  obtain ⟨ws, e, hw⟩ := wordsOfTexts_some (texts := lines.flatten) fun text ht => by
    obtain ⟨l, h1, h2⟩ := List.mem_flatten.mp ht
    exact (ha l h1).2 text h2
  unfold wordsOfTexts at e
  refine ⟨Memory.writeExtWords [] 0 ws, ?_, fun p l i text hp hi => ?_⟩
  · simp only [extOfLines, if_pos (show lines.length = Config.extLines ∧ ∀ l ∈ lines, l.length = 10 from
      ⟨hl, fun l hm => (ha l hm).1⟩), e, Option.map_some]
  · have f := flatten_lines (fun l hm => (ha l hm).1) hp hi
    rw [← hw, List.getElem?_map] at f
    obtain ⟨w, h1, h2⟩ := Option.map_eq_some_iff.mp f
    rw [Memory.readExt_writeExtWords, if_pos (Nat.zero_le _), Nat.sub_zero, h1]
    exact h2

/-- Lines of any other shape make none. -/
theorem extOfLines_none {lines : List (List (List Byte))} (h : ¬ IsExtText lines) : extOfLines lines = none := by
  unfold extOfLines
  split
  · rename_i hs
    have : ∃ text ∈ lines.flatten, ¬ IsWordText text := by
      refine Classical.byContradiction fun hn => h ⟨hs.1, fun l hl => ⟨hs.2 l hl, fun text ht => ?_⟩⟩
      exact Classical.byContradiction fun hw => hn ⟨text, List.mem_flatten.mpr ⟨l, hl, ht⟩, hw⟩
    have e := wordsOfTexts_none this
    unfold wordsOfTexts at e
    rw [e]; rfl
  · rfl

/-! ## Reset, keyboard, view -/

/-- The external memory a reset leaves: as it was, or as the host supplies it (70_reset_and_hazards.md R302). -/
def State.ExtAfterReset (s : State) (ext : Option (List (List (List Byte)))) (e : Memory) : Prop :=
  (ext = none ∧ e = s.ext) ∨ ∃ lines, ext = some lines ∧ extOfLines lines = some e

/-- A reset that goes through (70_reset_and_hazards.md R300, R301). -/
theorem State.hostReset_next {s : State} {cfg : Config} {image : List (List Byte)} {ws : List Word}
    {ext : Option (List (List (List Byte)))} {e : Memory} (hk : cfg.Ok) (hw : wordsOfTexts image = some ws)
    (hl : ws.length ≤ cfg.rmMemSize) (he : s.ExtAfterReset ext e) :
    s.hostReset cfg image ext = .next ((State.resetOf cfg e).writeWords 0 ws) := by
  unfold State.hostReset
  rw [if_neg (not_not_intro hk), hw]
  rcases he with ⟨rfl, rfl⟩ | ⟨lines, rfl, h⟩
  · exact if_pos hl
  · dsimp only; rw [h]; exact if_pos hl

/-- A reset refused for its configuration (93_implementation_defined.md item 11). -/
theorem State.hostReset_badConfiguration {s : State} {cfg : Config} (h : ¬ cfg.Ok) (image : List (List Byte))
    (ext : Option (List (List (List Byte)))) : s.hostReset cfg image ext = .refused .badConfiguration := by
  unfold State.hostReset; rw [if_pos h]

/-- A reset refused for its image or its external memory (93_implementation_defined.md item 10, entry 17). -/
theorem State.hostReset_badImage {s : State} {cfg : Config} (hk : cfg.Ok) {image : List (List Byte)}
    {ext : Option (List (List (List Byte)))}
    (h : wordsOfTexts image = none ∨ (∃ lines, ext = some lines ∧ extOfLines lines = none) ∨
      ∃ ws, wordsOfTexts image = some ws ∧ cfg.rmMemSize < ws.length) :
    s.hostReset cfg image ext = .refused .badImage := by
  unfold State.hostReset
  rw [if_neg (not_not_intro hk)]
  rcases h with h | ⟨lines, rfl, h⟩ | ⟨ws, h, hl⟩
  · rw [h]
  · dsimp only; rw [h]; split <;> simp_all
  · rw [h]
    split
    · rename_i heq _
      cases heq
      exact if_neg (Nat.not_le.mpr hl)
    · rfl

@[simp] theorem State.view_lastSlot (s : State) : s.view.lastSlot = s.lastSlot := rfl
@[simp] theorem State.view_svc (s : State) : s.view.svc = s.svc := rfl
@[simp] theorem State.view_current (s : State) : s.view.current = s.cur.bind s.slot := rfl

end Sys2Proof.Machine
end

