-- ==== Sys2Proof/Laws/PerInstr.lean ====
section
/-! SUPPORT. Per-instruction families: one lemma for each command of the opcode map. -/

namespace Sys2Proof.Laws

open Sys2Proof Sys2Proof.Machine

/-- Every character of a serialized command is ASCII (10_state.md R21, 30_encoding.md R103). -/
def EncodeAscii.Statement (i : Instr) : Prop := i.wellFormed = true → (encode i).Ascii

/-- A word of Format A is ASCII (30_encoding.md R91). -/
theorem encodeA_ascii {m0 m1 : Char} {x y z : Nat} (h0 : isAscii (charCode m0)) (h1 : isAscii (charCode m1))
    (h : decide (digits3 x y z) = true) : (encodeA m0 m1 x y z).Ascii := by
  have hd := of_decide_eq_true h
  exact (Word.ascii_iff _).mpr ⟨h0, h1, digitChar_ascii hd.1, digitChar_ascii hd.2.1, digitChar_ascii hd.2.2⟩

/-- A word of Format B is ASCII (30_encoding.md R92). -/
theorem encodeB_ascii {m0 m1 m2 m3 : Char} {n : Nat} (h0 : isAscii (charCode m0)) (h1 : isAscii (charCode m1))
    (h2 : isAscii (charCode m2)) (h3 : isAscii (charCode m3)) (h : decide (digit1 n) = true) :
    (encodeB m0 m1 m2 m3 n).Ascii :=
  (Word.ascii_iff _).mpr ⟨h0, h1, h2, h3, digitChar_ascii (of_decide_eq_true h)⟩

theorem EncodeAscii.cr (x y z : Nat) : EncodeAscii.Statement (.cr x y z) := encodeA_ascii (by decide) (by decide)
theorem EncodeAscii.cm (x y z : Nat) : EncodeAscii.Statement (.cm x y z) := encodeA_ascii (by decide) (by decide)
theorem EncodeAscii.ad (x y z : Nat) : EncodeAscii.Statement (.ad x y z) := encodeA_ascii (by decide) (by decide)
theorem EncodeAscii.sb (x y z : Nat) : EncodeAscii.Statement (.sb x y z) := encodeA_ascii (by decide) (by decide)
theorem EncodeAscii.ml (x y z : Nat) : EncodeAscii.Statement (.ml x y z) := encodeA_ascii (by decide) (by decide)
theorem EncodeAscii.md (x y z : Nat) : EncodeAscii.Statement (.md x y z) := encodeA_ascii (by decide) (by decide)
theorem EncodeAscii.dv (x y z : Nat) : EncodeAscii.Statement (.dv x y z) := encodeA_ascii (by decide) (by decide)
theorem EncodeAscii.cp (x y z : Nat) : EncodeAscii.Statement (.cp x y z) := encodeA_ascii (by decide) (by decide)
theorem EncodeAscii.jp (x y z : Nat) : EncodeAscii.Statement (.jp x y z) := encodeA_ascii (by decide) (by decide)
theorem EncodeAscii.je (x y z : Nat) : EncodeAscii.Statement (.je x y z) := encodeA_ascii (by decide) (by decide)
theorem EncodeAscii.jl (x y z : Nat) : EncodeAscii.Statement (.jl x y z) := encodeA_ascii (by decide) (by decide)
theorem EncodeAscii.jm (x y z : Nat) : EncodeAscii.Statement (.jm x y z) := encodeA_ascii (by decide) (by decide)
theorem EncodeAscii.halt : EncodeAscii.Statement .halt := fun _ => by decide
theorem EncodeAscii.gd (x y z : Nat) : EncodeAscii.Statement (.gd x y z) := encodeA_ascii (by decide) (by decide)
theorem EncodeAscii.pd (x y z : Nat) : EncodeAscii.Statement (.pd x y z) := encodeA_ascii (by decide) (by decide)
theorem EncodeAscii.rd (x y z : Nat) : EncodeAscii.Statement (.rd x y z) := encodeA_ascii (by decide) (by decide)
theorem EncodeAscii.wd (x y z : Nat) : EncodeAscii.Statement (.wd x y z) := encodeA_ascii (by decide) (by decide)
theorem EncodeAscii.sd (x y z : Nat) : EncodeAscii.Statement (.sd x y z) := encodeA_ascii (by decide) (by decide)
theorem EncodeAscii.gt (x y z : Nat) : EncodeAscii.Statement (.gt x y z) := encodeA_ascii (by decide) (by decide)
theorem EncodeAscii.pt (x y z : Nat) : EncodeAscii.Statement (.pt x y z) := encodeA_ascii (by decide) (by decide)
theorem EncodeAscii.stvm (n : Nat) : EncodeAscii.Statement (.stvm n) :=
  encodeB_ascii (by decide) (by decide) (by decide) (by decide)
theorem EncodeAscii.svrg (n : Nat) : EncodeAscii.Statement (.svrg n) :=
  encodeB_ascii (by decide) (by decide) (by decide) (by decide)
theorem EncodeAscii.ldrg (n : Nat) : EncodeAscii.Statement (.ldrg n) :=
  encodeB_ascii (by decide) (by decide) (by decide) (by decide)

end Sys2Proof.Laws
end

