-- ==== Sys2Proof/Tests/Slice0.lean ====
section
/-! SUPPORT. Tests whose expected values come from spec/95_test_vectors.md or from the cited rules, and a witness for the
hypotheses of each obligation. -/

namespace Sys2Proof.Tests

open Sys2Proof Sys2Proof.Machine

/-! ## WellFormed refuses an ill-formed operand -/

/-- Every Format A command with these digits. -/
def formatA (x y z : Nat) : List Instr :=
  [.cr x y z, .cm x y z, .ad x y z, .sb x y z, .ml x y z, .md x y z, .dv x y z, .cp x y z, .jp x y z, .je x y z,
   .jl x y z, .jm x y z, .gd x y z, .pd x y z, .rd x y z, .wd x y z, .sd x y z, .gt x y z, .pt x y z]

theorem test_wellFormed_refuses_x : (formatA 10 0 0).all (fun i => !i.wellFormed) = true := by decide
theorem test_wellFormed_refuses_y : (formatA 0 10 0).all (fun i => !i.wellFormed) = true := by decide
theorem test_wellFormed_refuses_z : (formatA 0 0 10).all (fun i => !i.wellFormed) = true := by decide
theorem test_wellFormed_refuses_n :
    [Instr.stvm 10, .svrg 10, .ldrg 10].all (fun i => !i.wellFormed) = true := by decide
theorem test_wellFormed_accepts_digits :
    (formatA 9 9 9 ++ [Instr.halt, .stvm 9, .svrg 9, .ldrg 9]).all (fun i => i.wellFormed) = true := by decide

/-! ## Decoding: every mnemonic of 30_encoding.md R99, by character code -/

/-- What a word of these character codes decodes to under the reference `HALT_PAD`. -/
def dec (a b c d e : Byte) : Option Instr := (decode Config.digitChars ⟨a, b, c, d, e⟩).toOption

theorem test_decode_transfer :
    dec 0x43 0x52 0x31 0x32 0x33 = some (.cr 1 2 3) ∧          -- CR123
    dec 0x43 0x4D 0x30 0x30 0x37 = some (.cm 0 0 7) := by      -- CM007
  decide

theorem test_decode_arithmetic :
    dec 0x41 0x44 0x30 0x36 0x30 = some (.ad 0 6 0) ∧          -- AD060
    dec 0x53 0x42 0x30 0x36 0x31 = some (.sb 0 6 1) ∧          -- SB061
    dec 0x4D 0x4C 0x39 0x30 0x31 = some (.ml 9 0 1) ∧          -- ML901
    dec 0x4D 0x44 0x38 0x37 0x36 = some (.md 8 7 6) ∧          -- MD876
    dec 0x44 0x56 0x30 0x31 0x31 = some (.dv 0 1 1) ∧          -- DV011
    dec 0x43 0x50 0x30 0x36 0x33 = some (.cp 0 6 3) := by      -- CP063
  decide

theorem test_decode_control :
    dec 0x4A 0x50 0x31 0x32 0x30 = some (.jp 1 2 0) ∧          -- JP120
    dec 0x4A 0x45 0x31 0x30 0x39 = some (.je 1 0 9) ∧          -- JE109
    dec 0x4A 0x4C 0x39 0x30 0x30 = some (.jl 9 0 0) ∧          -- JL900
    dec 0x4A 0x4D 0x30 0x30 0x30 = some (.jm 0 0 0) ∧          -- JM000
    dec 0x48 0x41 0x4C 0x54 0x39 = some .halt := by            -- HALT9
  decide

theorem test_decode_channels :
    dec 0x47 0x44 0x32 0x30 0x30 = some (.gd 2 0 0) ∧          -- GD200
    dec 0x50 0x44 0x30 0x31 0x32 = some (.pd 0 1 2) ∧          -- PD012
    dec 0x52 0x44 0x39 0x39 0x35 = some (.rd 9 9 5) ∧          -- RD995
    dec 0x57 0x44 0x39 0x39 0x31 = some (.wd 9 9 1) ∧          -- WD991
    dec 0x53 0x44 0x39 0x39 0x39 = some (.sd 9 9 9) := by      -- SD999
  decide

theorem test_decode_system :
    dec 0x47 0x54 0x30 0x36 0x30 = some (.gt 0 6 0) ∧          -- GT060
    dec 0x50 0x54 0x30 0x36 0x31 = some (.pt 0 6 1) ∧          -- PT061
    dec 0x53 0x54 0x56 0x4D 0x33 = some (.stvm 3) ∧            -- STVM3
    dec 0x53 0x56 0x52 0x47 0x31 = some (.svrg 1) ∧            -- SVRG1
    dec 0x4C 0x44 0x52 0x47 0x39 = some (.ldrg 9) := by        -- LDRG9
  decide

/-- 95_test_vectors.md section 2.1: the words that are no instruction. -/
theorem test_decode_refuses :
    ["HALTX", "HALT ", "CR12A", "ADD01", "ST123", "STVMA", "cr123", "JP 12", "00042"].all
      (fun t => (decode Config.digitChars (word t)).toOption.isNone) = true := by decide

/-- The bytes of "CR123", character 0 lowest (entry 11). -/
theorem test_decodeTableWord : decodeTableWord 40 0x3332315243 = some (.cr 1 2 3) := by decide

/-- `Memory.put` and `Memory.extPut` keep the canonical form, and writing '0' to EXT removes the entry. -/
theorem test_memory_form :
    (Memory.put (Memory.put [] 9 0x41) 4 0x42) = [(4, 0x42), (9, 0x41)] ∧
    (Memory.extPut (Memory.extPut [] 4 0x42) 4 0x30) = [] := by decide

/-! ## States for the tests -/

/-- Store the texts as words. -/
def load (s : State) (cells : List (Nat × String)) : State := cells.foldl (fun s c => s.writeM c.1 (word c.2)) s

/-- The RM at IC = 100 of the reference machine with this TMP and these words. -/
def rm (tmp : String) (cells : List (Nat × String)) : State :=
  load { State.reset with rm := ⟨word tmp, 100, .equal⟩ } cells

/-- Slot n current with this bank, its page table as STVM writes it, and these words. -/
def vm (n : Nat) (b : Bank) (cells : List (Nat × String)) : State :=
  load { (State.reset.allocate n).setSlot n (some b) with mode := .user, cur := some n, ptr := 10 + 10 * n } cells

/-- The state an outcome leads to, if it is a next state. -/
def nextState : Result → State
  | .next s => s
  | _ => State.reset

/-- The outcome is a next state. -/
def isNext : Result → Bool
  | .next _ => true
  | _ => false

/-- The outcome is a next state with this property. -/
def leadsTo (r : Result) (p : State → Bool) : Bool := isNext r && p (nextState r)

theorem eq_next {r : Result} (h : isNext r = true) : r = .next (nextState r) := by
  cases r with
  | next s => rfl
  | fault f => simp [isNext] at h
  | refused q => simp [isNext] at h

/-! ## One step of each instruction (95_test_vectors.md sections 1 and 2) -/

theorem test_cr_rm : leadsTo (step (rm "00000" [(100, "CR250"), (250, "ABCDE")]))
    (fun s => s.rm = ⟨word "ABCDE", 101, .equal⟩) = true := by decide
theorem test_cr_vm : leadsTo (step (vm 0 ⟨word "00000", 0, .less⟩ [(500, "CR010"), (510, "00009")]))
    (fun s => s.slot 0 = some ⟨word "00009", 1, .less⟩ && s.ti = 49) = true := by decide
theorem test_cm_rm : leadsTo (step (rm "00042" [(100, "CM999")])) (fun s => s.readM 999 = word "00042") = true := by
  decide
theorem test_cm_vm : leadsTo (step (vm 3 ⟨word "00001", 0, .equal⟩ [(800, "CM099")]))
    (fun s => s.readM 899 = word "00001" && s.mode = .user) = true := by decide
theorem test_ad_sum : leadsTo (step (rm "99998" [(100, "AD200"), (200, "00001")]))
    (fun s => s.rm = ⟨word "99999", 101, .equal⟩) = true := by decide
theorem test_ad_overflow : leadsTo (step (rm "99999" [(100, "AD060"), (60, "00001")]))
    (fun s => s.run = .fatal (.supervisorFault .overflow) && s.pi = some .overflow && s.rm.tmp = word "99999") = true := by
  decide
theorem test_sb_difference : leadsTo (step (rm "00010" [(100, "SB200"), (200, "00003")]))
    (fun s => s.rm.tmp = word "00007") = true := by decide
theorem test_sb_negative : leadsTo (step (rm "00003" [(100, "SB200"), (200, "00005")]))
    (fun s => s.pi = some .overflow) = true := by decide
theorem test_ml_product : leadsTo (step (rm "00316" [(100, "ML200"), (200, "00316")]))
    (fun s => s.rm.tmp = word "99856") = true := by decide
theorem test_ml_overflow : leadsTo (step (rm "00317" [(100, "ML200"), (200, "00316")]))
    (fun s => s.pi = some .overflow) = true := by decide
theorem test_md_remainder : leadsTo (step (rm "00017" [(100, "MD200"), (200, "00005")]))
    (fun s => s.rm.tmp = word "00002") = true := by decide
theorem test_md_zero : leadsTo (step (rm "00017" [(100, "MD200"), (200, "00000")]))
    (fun s => s.pi = some .overflow) = true := by decide
theorem test_dv_quotient : leadsTo (step (rm "00100" [(100, "DV200"), (200, "00007")]))
    (fun s => s.rm.tmp = word "00014") = true := by decide
/-- P3 step 3: the VM's fault enters the handler of vector 2 with the bank saved. -/
theorem test_dv_zero_vm : leadsTo (step (vm 0 ⟨word "00077", 1, .equal⟩ [(2, "00300"), (501, "DV011"), (511, "00000")]))
    (fun s => s.readM 590 = word "00077" && s.readM 591 = word "01000" && s.svc = .pi && s.lastSlot = some 0 &&
      s.rm.ic = 300 && s.mode = .supervisor) = true := by decide
theorem test_cp_more : leadsTo (step (rm "0000A" [(100, "CP200"), (200, "00009")])) (fun s => s.rm.c = .more) = true := by
  decide
theorem test_cp_less : leadsTo (step (rm "00002" [(100, "CP200"), (200, "00010")])) (fun s => s.rm.c = .less) = true := by
  decide
theorem test_jp : leadsTo (step (rm "00000" [(100, "JP120")])) (fun s => s.rm.ic = 120) = true := by decide
theorem test_jp_hundreds_vm : leadsTo (step (vm 0 ⟨word "00000", 5, .equal⟩ [(0, "00300"), (505, "JP100")]))
    (fun s => s.pi = some .invAddress && s.readM 591 = word "05000" && s.rm.ic = 300) = true := by decide
theorem test_je_taken : leadsTo (step (rm "00000" [(100, "JE105")])) (fun s => s.rm.ic = 105) = true := by decide
theorem test_je_not_taken :
    leadsTo (step { rm "00000" [(140, "JE105")] with rm := ⟨word "00000", 140, .less⟩ }) (fun s => s.rm.ic = 141) = true := by
  decide
theorem test_jl_vm : leadsTo (step (vm 0 ⟨word "00000", 0, .less⟩ [(500, "JL099")]))
    (fun s => s.slot 0 = some ⟨word "00000", 99, .less⟩) = true := by decide
theorem test_jm_vm : leadsTo (step (vm 0 ⟨word "00000", 7, .more⟩ [(507, "JM000")]))
    (fun s => s.slot 0 = some ⟨word "00000", 0, .more⟩) = true := by decide
theorem test_halt_rm : leadsTo (step (rm "00000" [(100, "HALT0")])) (fun s => s.run = .halted && s.rm.ic = 100) = true := by
  decide
theorem test_halt_vm : leadsTo (step (vm 0 ⟨word "00000", 5, .equal⟩ [(505, "HALT0")]))
    (fun s => s.slot 0 = none && s.cur = none && s.si = none && s.mode = .supervisor && s.rm.ic = 100) = true := by decide
theorem test_gd_word : leadsTo (step { rm "00000" [(100, "GD200")] with kbd := some (word "00123") })
    (fun s => s.readM 200 = word "00123" && s.kbd = none && s.ioi = 1#3) = true := by decide
theorem test_gd_none : leadsTo (step (rm "00000" [(100, "GD200"), (200, "11111")]))
    (fun s => s.readM 200 = word "11111" && s.ioi = 1#3 && s.rm.ic = 101) = true := by decide
theorem test_pd_rm : leadsTo (step (rm "00000" [(100, "PD300"), (300, "HELLO")]))
    (fun s => s.scr = some (word "HELLO") && s.ioi = 2#3) = true := by decide
/-- P2 step 5: the trap is served in the same step, before the pending I/O interrupt. -/
theorem test_pd_vm : leadsTo (step (vm 0 ⟨word "00042", 3, .equal⟩ [(503, "PD012"), (512, "00042")]))
    (fun s => s.scr = some (word "00042") && s.ioi = 2#3 && s.readM 591 = word "03000" && s.si = none &&
      s.slot 0 = some ⟨word "00042", 4, .equal⟩ && s.mode = .user && s.ti = 49) = true := by decide
theorem test_rd_rm : leadsTo (step { rm "00000" [(100, "RD200")] with
      extPtr := 7, ext := Memory.writeExtWords [] 70 [word "00001", word "L4W01"] })
    (fun s => s.readM 200 = word "00001" && s.readM 201 = word "L4W01" && s.readM 209 = word "00000" &&
      s.ioi = 4#3 && s.extPtr = 7) = true := by decide
theorem test_rd_top : leadsTo (step (rm "00000" [(100, "RD995")]))
    (fun s => s.readM 995 = word "00000" && s.readM 999 = word "00000" && s.pi = some .invAddress && s.busy = 0 &&
      s.ioi = 0) = true := by decide
theorem test_wd_rm : leadsTo (step { rm "00000" ((100, "WD991") ::
      (List.range 10).map fun i => (200 + i, "ABCDE")) with extPtr := 3, rm := ⟨word "00000", 100, .equal⟩ })
    (fun s => s.pi = some .invAddress && s.ext = []) = true := by decide
theorem test_wd_line : leadsTo (step { rm "00000" ((100, "WD200") ::
      (List.range 10).map fun i => (200 + i, "ABCDE")) with extPtr := 3 })
    (fun s => s.readExt 3 0 = word "ABCDE" && s.readExt 3 9 = word "ABCDE" && s.readExt 4 0 = word "00000" &&
      s.ioi = 4#3) = true := by decide
theorem test_sd_rm : leadsTo (step (rm "00000" [(100, "SD042")])) (fun s => s.extPtr = 42 && s.ioi = 0) = true := by decide
theorem test_sd_vm : leadsTo (step (vm 0 ⟨word "00000", 0, .equal⟩ [(500, "SD005")]))
    (fun s => s.extPtr = 505 && s.mode = .user) = true := by decide
theorem test_gt_rm : leadsTo (step { rm "00000" [(100, "GT060")] with ti := 37 })
    (fun s => s.readM 60 = word "00037" && s.ti = 37) = true := by decide
theorem test_gt_vm : leadsTo (step (vm 0 ⟨word "00000", 0, .equal⟩ [(500, "GT050")]))
    (fun s => s.run = .fatal .unhandledCommand && s.ti = 50) = true := by decide
theorem test_pt_rm : leadsTo (step (rm "00000" [(100, "PT061"), (61, "00020")])) (fun s => s.ti = 20) = true := by decide
theorem test_pt_text : leadsTo (step (rm "00000" [(100, "PT061"), (61, "2O000")])) (fun s => s.run = .fatal .nonNumeric) = true := by
  decide
theorem test_stvm_fresh : leadsTo (step (rm "00000" [(100, "STVM0")]))
    (fun s => s.readM 10 = word "00500" && s.readM 19 = word "00590" && s.slot 0 = some ⟨word "00000", 0, .equal⟩ &&
      s.mode = .user && s.cur = some 0 && s.ptr = 10 && s.ti = 50 && s.rm.ic = 101) = true := by decide
/-- 95_test_vectors.md section 2.6, last row, with the bank of its LDRG0 row. -/
theorem test_stvm_resume :
    leadsTo (step { (rm "00000" [(10, "00700"), (100, "STVM0"), (590, "00009"), (591, "42200")]).setSlot 0
        (some ⟨word "00000", 0, .equal⟩) with svc := .io .screen, ioi := 6#3 })
      (fun s => s.ioi = 4#3 && s.slot 0 = some ⟨word "00009", 42, .more⟩ && s.readM 10 = word "00700") = true := by decide
theorem test_svrg : leadsTo (step ((rm "00000" [(100, "SVRG1")]).setSlot 1 (some ⟨word "00042", 7, .less⟩)))
    (fun s => s.readM 690 = word "00042" && s.readM 691 = word "07100") = true := by decide
theorem test_svrg_empty : leadsTo (step (rm "00000" [(100, "SVRG2")])) (fun s => s.run = .fatal .argumentError) = true := by
  decide
theorem test_ldrg : leadsTo (step ((rm "00000" [(100, "LDRG0"), (590, "00009"), (591, "422XY")]).setSlot 0
      (some ⟨word "00000", 0, .equal⟩)))
    (fun s => s.slot 0 = some ⟨word "00009", 42, .more⟩ && s.rm.ic = 101) = true := by decide
theorem test_ldrg_malformed : leadsTo (step ((rm "00000" [(100, "LDRG0"), (590, "00009"), (591, "42900")]).setSlot 0
      (some ⟨word "00000", 0, .equal⟩)))
    (fun s => s.run = .fatal .badSaveArea && s.rm.ic = 100) = true := by decide

/-! ## The translator and the dispatcher -/

/-- 95_test_vectors.md S5 and S14. -/
theorem test_translate :
    (vm 1 ⟨word "00000", 0, .equal⟩ []).translate 37 = .address 637 ∧
    (load { State.reset with ptr := 10 } [(12, "00025")]).translate 23 = .address 28 := by decide
/-- P4: the tick that takes TI to 0 enters the timer handler in the same step. -/
theorem test_timer : leadsTo (step { vm 0 ⟨word "00000", 0, .equal⟩ [(3, "00400"), (500, "JP000")] with ti := 1 })
    (fun s => s.ti = 0 && s.svc = .timer && s.rm.ic = 400 && s.readM 591 = word "00000") = true := by decide
/-- 95_test_vectors.md section 2.8: a vector word that is no number, with the VM already suspended. -/
theorem test_bad_vector : leadsTo (step (vm 0 ⟨word "99999", 0, .equal⟩ [(2, "ABCDE"), (500, "AD010"), (510, "00001")]))
    (fun s => s.run = .fatal .badVector && s.cur = none && s.mode = .supervisor && s.readM 590 = word "99999") = true := by
  decide
/-- 95_test_vectors.md section 2.8: a page-table word that is no number. -/
theorem test_bad_page_table : leadsTo (step (vm 0 ⟨word "00000", 0, .equal⟩ [(10, "X0500"), (500, "PD000")]))
    (fun s => s.run = .fatal .badPageTable) = true := by decide
/-- 95_test_vectors.md section 2.5: a trapped RD that runs past the top of M keeps its words and enters handler 0. -/
theorem test_trap_past_the_top :
    leadsTo (step (vm 4 ⟨word "00042", 3, .equal⟩ [(0, "00300"), (903, "RD095"), (995, "ABCDE"), (999, "ABCDE")]))
      (fun s => s.readM 995 = word "00000" && s.readM 999 = word "00000" && s.si = none && s.pi = some .invAddress &&
        s.svc = .pi && s.rm.ic = 300 && s.readM 991 = word "03000" && s.ioi = 0) = true := by decide
/-- 95_test_vectors.md section 2.4: IC = 100 is fatal at the save. -/
theorem test_save_ic_range : leadsTo (step (vm 0 ⟨word "00000", 100, .equal⟩ []))
    (fun s => s.run = .fatal .saveIcRange && s.pi = some .invAddress) = true := by decide
/-- 70_reset_and_hazards.md R302: a persisted line is 60 bytes. -/
theorem test_line_text : (State.reset.extLineText 0).length = 60 := by decide
/-- 10_state.md R31, R35, R39: after entering the screen handler from slot 0 the host sees the slot and the cause. -/
theorem test_host_view : leadsTo (step { vm 0 ⟨word "00000", 0, .equal⟩ [(5, "00400"), (500, "JP000")] with ioi := 6#3 })
    (fun s => s.view.lastSlot = some 0 && s.view.svc = .io .screen && s.view.ioi = 6 && s.view.current = none) = true := by
  decide

/-! ## Witnesses: states that meet the hypotheses of the obligations, at the boundaries of their clauses -/

/-- A configuration of 200 words and one slot. -/
def small : Config := { Config.reference with rmMemSize := 200, nSlots := 1, vmBase := 100, resetIc := 50 }

/-- The RM of the small machine at IC = 50. -/
def smallRm (cells : List (Nat × String)) : State := load (State.resetOf small []) cells

/-- A bank at the last word a save can hold. -/
def last : Bank := ⟨word "99999", 99, .more⟩

/-- The last slot current, with that bank, vectors 0, 1 and 2 set, and the word its next step fetches. -/
def lastVm (text : String) : State :=
  vm 4 last [(0, "00999"), (1, "00000"), (2, "00999"), (900, "00001"), (901, "00000"), (999, text)]

theorem executes_rm {s : State} {b : Bank} {x : Nat} (h : s.mode = .supervisor ∧ s.rm = b) : s.Executes .rm b x := h

theorem executes_vm {s : State} {n : Nat} {b : Bank} (h : s.mode = .user ∧ s.cur = some n ∧ s.slot n = some b) :
    s.Executes (.vm n) b 0 := ⟨h.1, h.2.1, h.2.2, rfl⟩

/-- The invariant from its parts over the ten places. -/
theorem inv_of {s : State} (h1 : s.cfg.Ok ∧ s.MemoryOk ∧ s.rm.tmp.Ascii ∧ (∀ i : Fin 10, ∀ b ∈ s.slots[i], b.tmp.Ascii ∧
      b.ic ≤ 100 ∧ i < s.cfg.nSlots) ∧ (∀ w ∈ s.kbd, w.Ascii) ∧ ∀ w ∈ s.scr, w.Ascii)
    (h2 : s.rm.ic ≤ s.cfg.rmMemSize ∧ s.ptr < s.cfg.rmMemSize ∧ s.ti ≤ 99999 ∧ s.extPtr ≤ 1000 ∧
      (∀ n ∈ s.cur, n < s.cfg.nSlots) ∧ ∀ n ∈ s.lastSlot, n < s.cfg.nSlots)
    (h3 : (s.mode = .user ↔ s.cur ≠ none) ∧ (∀ n ∈ s.cur, s.slot n ≠ none) ∧ s.svc = .none ∧ s.run = .running ∧
      s.si = none ∧ s.pi = none ∧ s.busy = 0) : s.Inv := by
  obtain ⟨a1, a2, a3, a4, a5, a6⟩ := h1
  obtain ⟨b1, b2, b3, b4, b5, b6⟩ := h2
  obtain ⟨c1, c2, c3, c4, c5, c6, c7⟩ := h3
  have f : ∀ n b, s.slot n = some b → b.tmp.Ascii ∧ b.ic ≤ 100 ∧ n < s.cfg.nSlots := State.forall_slot a4
  refine ⟨a1, a2, ⟨a3, fun n b h => (f n b h).1, a5, a6⟩, ⟨b1, fun n b h => (f n b h).2.1, b2, b3, b4, b5, b6⟩,
    ⟨c1, c2, fun n h => ?_⟩, ⟨fun _ => c3, fun _ => ⟨c5, by simp [c6, c3], by simp [c3]⟩, by simp [c4]⟩,
    by rw [State.BusyOk, c7]; simp [bitOf]⟩
  cases hb : s.slot n with
  | none => rfl
  | some b => have := (f n b hb).2.2; omega

theorem inv_rm : (rm "99999" [(100, "STVM4")]).Inv := inv_of (by decide) (by decide) (by decide)
theorem inv_vm (text : String) (h : text ∈ ["CM099", "CP000", "GD000", "HALT0", "AD000"]) : (lastVm text).Inv := by
  simp only [List.mem_cons, List.not_mem_nil, or_false] at h
  rcases h with rfl | rfl | rfl | rfl | rfl <;> exact inv_of (by decide) (by decide) (by decide)

/-- The RM at the last word of M. -/
def topRm (text : String) : State := { rm "00000" [(999, text)] with rm := ⟨word "00000", 999, .equal⟩ }

/-- The RM with a numeric operand at 999 and the bank of slot 4 allocated. -/
def opRm (tmp m : String) : State := (rm tmp [(999, m), (990, "00007"), (991, "99200")]).setSlot 4 (some last)

/-- The same in the last word of the last window. -/
def opVm (tmp m : String) : State := vm 4 ⟨word tmp, 98, .less⟩ [(0, "00999"), (998, "AD099"), (999, m)]

theorem witness_DecodeOfEncode : charCode '0' ∈ Config.digitChars ∧ (Instr.ldrg 9).wellFormed = true ∧
    (Instr.cr 9 0 9).wellFormed = true := by decide
theorem witness_EncodeOfDecode : (decode Config.digitChars (word "HALT9")).toOption = some .halt ∧
    (decode Config.digitChars (word "SD909")).toOption = some (.sd 9 0 9) := by decide

theorem witness_StepRunsTheInstructionInTheRm : let s := topRm "CR200";
    s.cfg.Ok ∧ s.run = .running ∧ s.mode = .supervisor ∧ s.rm.ic < s.cfg.rmMemSize ∧
      decode s.cfg.haltPad (s.readM s.rm.ic) = .ok (.cr 2 0 0) := by decide
theorem witness_StepRunsTheInstructionInAVm : let s := lastVm "CM099";
    s.cfg.Ok ∧ s.run = .running ∧ s.mode = .user ∧ s.cur = some 4 ∧ s.slot 4 = some last ∧ last.ic < 100 ∧
      decode s.cfg.haltPad (s.readM (s.cfg.vmBase + 100 * 4 + last.ic)) = .ok (.cm 0 9 9) := by decide
theorem witness_BadFetchInTheRmIsFatal :
    (let s := { topRm "XXXXX" with rm := ⟨word "00000", 1000, .equal⟩ };
      s.cfg.Ok ∧ s.run = .running ∧ s.mode = .supervisor ∧ s.cfg.rmMemSize ≤ s.rm.ic) ∧
    (let s := topRm "XXXXX";
      s.cfg.Ok ∧ s.run = .running ∧ s.mode = .supervisor ∧ s.rm.ic < s.cfg.rmMemSize ∧
      decode s.cfg.haltPad (s.readM s.rm.ic) = .error .unrecognized) := by decide
theorem witness_BadFetchInAVm :
    (let s := lastVm "XXXXX";
      s.cfg.Ok ∧ s.run = .running ∧ s.mode = .user ∧ s.cur = some 4 ∧ s.slot 4 = some last ∧ s.si = none ∧
      last.ic < 100 ∧ decode s.cfg.haltPad (s.readM (s.cfg.vmBase + 100 * 4 + last.ic)) = .error .unrecognized ∧
      (s.cfg.ivtBase + 1 ≠ s.cfg.win 4 + s.cfg.saveOff ∧ s.cfg.ivtBase + 1 ≠ s.cfg.win 4 + s.cfg.saveOff + 1) ∧
      isnum (s.readM (s.cfg.ivtBase + 1)) = true ∧ num (s.readM (s.cfg.ivtBase + 1)) < s.cfg.rmMemSize) ∧
    (let s := vm 4 ⟨word "00000", 100, .equal⟩ [];
      s.cfg.Ok ∧ s.run = .running ∧ s.mode = .user ∧ s.cur = some 4 ∧ s.slot 4 = some ⟨word "00000", 100, .equal⟩ ∧
      s.si = none) := by decide
theorem witness_NoStepUnlessRunning :
    ({ State.reset with run := .halted } : State).run ≠ .running ∧
    ({ rm "00000" [(100, "GD999")] with busy := 1 } : State).hostStep =
      some ({ rm "00000" [(100, "GD999")] with busy := 1 }, .stalled) := by
  refine ⟨by decide, ?_⟩
  have h : step { rm "00000" [(100, "GD999")] with busy := 1 } = .fault (.stalled .keyboard) := by rfl
  rw [State.hostStep, h]

/-- The hypotheses of the load, store, ALU and jump statements: both contexts, inside and outside the memory of each. -/
theorem witness_operands :
    ((opRm "99998" "00001").Executes .rm ⟨word "99998", 100, .equal⟩ 9 ∧
      argument 9 9 9 < (opRm "99998" "00001").sizeCtx .rm) ∧
    ((opVm "00001" "00001").Executes (.vm 4) ⟨word "00001", 98, .less⟩ 0 ∧
      argument 0 9 9 < (opVm "00001" "00001").sizeCtx (.vm 4)) ∧
    ((smallRm []).Executes .rm (Bank.fresh 50) 2 ∧ (smallRm []).sizeCtx .rm ≤ argument 2 0 0) ∧
    ((opVm "00001" "00001").Executes (.vm 4) ⟨word "00001", 98, .less⟩ 0 ∧
      (opVm "00001" "00001").sizeCtx (.vm 4) ≤ argument 0 10 0) :=
  ⟨⟨executes_rm (by decide), by decide⟩, ⟨executes_vm (by decide), by decide⟩, ⟨executes_rm (by decide), by decide⟩,
    ⟨executes_vm (by decide), by decide⟩⟩
theorem witness_CrCopiesMemoryToTmp :
    ((opRm "99998" "00001").Executes .rm ⟨word "99998", 100, .equal⟩ 9 ∧
      argument 9 9 9 < (opRm "99998" "00001").sizeCtx .rm) ∧
    (smallRm []).Executes .rm (Bank.fresh 50) 2 ∧ (smallRm []).sizeCtx .rm ≤ argument 2 0 0 :=
  ⟨witness_operands.1, witness_operands.2.2.1⟩
theorem witness_CmCopiesTmpToMemory :
    ((opVm "00001" "00001").Executes (.vm 4) ⟨word "00001", 98, .less⟩ 0 ∧
      argument 0 9 9 < (opVm "00001" "00001").sizeCtx (.vm 4)) ∧
    (smallRm []).Executes .rm (Bank.fresh 50) 2 ∧ (smallRm []).sizeCtx .rm ≤ argument 2 0 0 :=
  ⟨witness_operands.2.1, witness_operands.2.2.1⟩
theorem witness_OperandOutsideMemoryFaults :
    ((smallRm []).Executes .rm (Bank.fresh 50) 2 ∧ (smallRm []).sizeCtx .rm ≤ argument 2 0 0) ∧
    ((opVm "00001" "00001").Executes (.vm 4) ⟨word "00001", 98, .less⟩ 0 ∧
      (opVm "00001" "00001").sizeCtx (.vm 4) ≤ argument 0 10 0) ∧
    (smallRm []).mode = .supervisor ∧ (smallRm []).cfg.rmMemSize ≤ argument 2 0 0 :=
  ⟨witness_operands.2.2.1, witness_operands.2.2.2, by decide⟩
/-- Sum 99999, difference 0, product 99999, a remainder and a quotient by a divisor that is not 0. -/
theorem witness_ArithmeticStoresTheExactResult :
    ((opRm "99998" "00001").Executes .rm ⟨word "99998", 100, .equal⟩ 9 ∧
      isnum (word "99998") = true ∧ isnum ((opRm "99998" "00001").readM 999) = true ∧
      num (word "99998") + num ((opRm "99998" "00001").readM 999) = 99999 ∧
      num ((opRm "99998" "00001").readM 999) ≠ 0) ∧
    ((opRm "99999" "00001").readM 999 = word "00001" ∧ num (word "99999") * num (word "00001") = 99999) ∧
    ((opVm "00001" "00001").Executes (.vm 4) ⟨word "00001", 98, .less⟩ 0 ∧
      num (word "00001") = num ((opVm "00001" "00001").readM 999)) :=
  ⟨⟨executes_rm (by decide), by decide⟩, by decide, executes_vm (by decide), by decide⟩
/-- Sum and product 100000, difference -1, divisor "00000". -/
theorem witness_ArithmeticOverflows :
    ((opRm "99999" "00001").Executes .rm ⟨word "99999", 100, .equal⟩ 9 ∧ isnum (word "99999") = true ∧
      isnum ((opRm "99999" "00001").readM 999) = true ∧
      99999 < num (word "99999") + num ((opRm "99999" "00001").readM 999)) ∧
    (num (word "00000") < num ((opRm "00000" "00001").readM 999)) ∧
    (99999 < num (word "00400") * num ((opRm "00400" "00250").readM 999)) ∧
    (opVm "ABCDE" "00000").Executes (.vm 4) ⟨word "ABCDE", 98, .less⟩ 0 ∧
      (opVm "ABCDE" "00000").readM ((opVm "ABCDE" "00000").absCtx (.vm 4) (argument 0 9 9)) = word "00000" :=
  ⟨⟨executes_rm (by decide), by decide⟩, by decide, by decide, executes_vm (by decide), by decide⟩
theorem witness_ArithmeticOnTextIsFatal :
    ((opRm "0000A" "00000").Executes .rm ⟨word "0000A", 100, .equal⟩ 9 ∧ isnum (word "0000A") = false) ∧
    (opVm "00001" "0000A").Executes (.vm 4) ⟨word "00001", 98, .less⟩ 0 ∧
      isnum ((opVm "00001" "0000A").readM 999) = false ∧ (opVm "00001" "0000A").readM 999 ≠ word "00000" :=
  ⟨⟨executes_rm (by decide), by decide⟩, executes_vm (by decide), by decide⟩
theorem witness_CpComparesTexts :
    (opRm "0000A" "00009").Executes .rm ⟨word "0000A", 100, .equal⟩ 9 ∧
      argument 9 9 9 < (opRm "0000A" "00009").sizeCtx .rm := ⟨executes_rm (by decide), by decide⟩
theorem witness_CpOrdersNumbers : isnum (word "00000") = true ∧ isnum (word "99999") = true := by decide
/-- Targets at the size of the context's memory and one above it. -/
theorem witness_JpWritesIc :
    ((smallRm []).Executes .rm (Bank.fresh 50) 2 ∧ argument 2 0 0 = (smallRm []).sizeCtx .rm ∧
      (smallRm []).sizeCtx .rm < argument 2 0 1) ∧
    (opVm "00001" "00001").Executes (.vm 4) ⟨word "00001", 98, .less⟩ 0 ∧
      argument 0 9 9 ≤ (opVm "00001" "00001").sizeCtx (.vm 4) :=
  ⟨⟨executes_rm (by decide), by decide⟩, executes_vm (by decide), by decide⟩
theorem witness_ConditionalJumpsReadC :
    ((smallRm []).Executes .rm (Bank.fresh 50) 2 ∧ (Bank.fresh 50).c = .equal ∧ (Bank.fresh 50).c ≠ .less ∧
      argument 2 0 0 ≤ (smallRm []).sizeCtx .rm ∧ (smallRm []).sizeCtx .rm < argument 2 0 1) ∧
    ((opVm "00001" "00001").Executes (.vm 4) ⟨word "00001", 98, .less⟩ 0 ∧
      argument 0 9 9 ≤ (opVm "00001" "00001").sizeCtx (.vm 4)) ∧
    (lastVm "JM099").Executes (.vm 4) last 0 ∧ last.c = .more :=
  ⟨⟨executes_rm (by decide), by decide⟩, ⟨executes_vm (by decide), by decide⟩, executes_vm (by decide), by decide⟩

theorem witness_HaltInTheRmStopsTheCore : (topRm "HALT0").mode = .supervisor := by decide
theorem witness_HaltInAVmFreesTheSlot : let s := lastVm "HALT0";
    s.mode = .user ∧ s.cur = some 4 ∧ s.slot 4 = some last := by decide
theorem witness_HaltStepReturnsToTheRm : let s := lastVm "HALT0";
    s.cfg.Ok ∧ s.run = .running ∧ s.mode = .user ∧ s.cur = some 4 ∧ s.slot 4 = some last ∧ last.ic < 100 ∧
      decode s.cfg.haltPad (s.readM (s.cfg.vmBase + 100 * 4 + last.ic)) = .ok .halt := by decide

/-- GD at the last word and just outside M, with a keyboard word and without; SD at 1000 and just above. -/
theorem witness_GdTakesTheKeyboardWord :
    (let s := { topRm "GD999" with kbd := some (word "00123") };
      s.mode = .supervisor ∧ bitOf s.busy .keyboard = false ∧ argument 9 9 9 < s.cfg.rmMemSize ∧
      s.kbd = some (word "00123")) ∧
    (topRm "GD999").kbd = none ∧
    (let s := smallRm [];
      s.mode = .supervisor ∧ bitOf s.busy .keyboard = false ∧ s.cfg.rmMemSize ≤ argument 2 0 0) := by decide
theorem witness_PdPublishesAWord :
    (let s := { topRm "PD999" with busy := 2 };
      s.mode = .supervisor ∧ bitOf s.busy .screen = true) ∧
    (let s := smallRm [];
      s.mode = .supervisor ∧ bitOf s.busy .screen = false ∧ s.cfg.rmMemSize ≤ argument 2 0 0) ∧
    (let s := topRm "PD999";
      s.mode = .supervisor ∧ bitOf s.busy .screen = false ∧ argument 9 9 9 < s.cfg.rmMemSize) := by decide
theorem witness_RdCopiesALineToMemory : let s := { topRm "RD990" with extPtr := 999 };
    s.mode = .supervisor ∧ bitOf s.busy .external = false ∧ s.extPtr < 1000 ∧
      argument 9 9 0 + 10 ≤ s.cfg.rmMemSize := by decide
theorem witness_RdPastTheTopKeepsEarlierWords : let s := { topRm "RD991" with extPtr := 999 };
    s.mode = .supervisor ∧ bitOf s.busy .external = false ∧ s.extPtr < 1000 ∧
      s.cfg.rmMemSize < argument 9 9 1 + 10 := by decide
theorem witness_WdReplacesALine : let s := { topRm "WD990" with extPtr := 999 };
    s.mode = .supervisor ∧ bitOf s.busy .external = false ∧ s.extPtr < 1000 ∧
      argument 9 9 0 + 10 ≤ s.cfg.rmMemSize := by decide
theorem witness_RdAndWdBounds :
    (let s := { topRm "WD990" with extPtr := 1000 };
      s.mode = .supervisor ∧ bitOf s.busy .external = false ∧ 1000 ≤ s.extPtr) ∧
    (let s := { topRm "WD991" with extPtr := 999 };
      s.mode = .supervisor ∧ bitOf s.busy .external = false ∧ s.extPtr < 1000 ∧
      s.cfg.rmMemSize < argument 9 9 1 + 10) := by decide
/-- The operand of an SD instruction is at most 999; 1000 and 1001 are reached only by ill-formed digits (entry 20). -/
theorem witness_SdWritesThePointer : (topRm "SD999").mode = .supervisor ∧ argument 9 9 9 ≤ 1000 ∧
    argument 9 10 0 ≤ 1000 ∧ 1000 < argument 9 10 1 := by decide
theorem witness_BusyChannelsStall : let s := { topRm "RD990" with busy := 7 };
    s.mode = .supervisor ∧ bitOf s.busy .keyboard = true ∧ bitOf s.busy .screen = true ∧
      bitOf s.busy .external = true := by decide

theorem witness_GtStoresTheTimer :
    (let s := { topRm "GT999" with ti := 99999 };
      s.mode = .supervisor ∧ argument 9 9 9 < s.cfg.rmMemSize ∧ s.ti ≤ 99999) ∧
    (let s := smallRm [];
      s.mode = .supervisor ∧ s.cfg.rmMemSize ≤ argument 2 0 0) := by decide
theorem witness_PtLoadsTheTimer :
    (let s := opRm "00000" "99999";
      s.mode = .supervisor ∧ argument 9 9 9 < s.cfg.rmMemSize ∧ isnum (s.readM (argument 9 9 9)) = true) ∧
    (let s := opRm "00000" "2O000";
      s.mode = .supervisor ∧ argument 9 9 9 < s.cfg.rmMemSize ∧ isnum (s.readM (argument 9 9 9)) = false) := by decide
theorem witness_StvmStartsAFreshVm : let s := topRm "STVM4";
    s.cfg.Ok ∧ s.mode = .supervisor ∧ 4 < s.cfg.nSlots ∧ s.slot 4 = none := by decide
theorem witness_StvmResumesASavedVm : let s := opRm "00000" "STVM4";
    let w := s.readM (s.cfg.vmBase + 100 * 4 + s.cfg.saveOff + 1);
    s.cfg.Ok ∧ s.mode = .supervisor ∧ 4 < s.cfg.nSlots ∧ s.slot 4 = some last ∧ w = word "99200" ∧
      isDigit w.c0 = true ∧ isDigit w.c1 = true ∧
      (w.c2, Cmp.more) ∈ [(charCode '0', Cmp.equal), (charCode '1', .less), (charCode '2', .more)] := by decide
theorem witness_LdrgLoadsTheBank : let s := opRm "00000" "LDRG4";
    let w := s.readM (s.cfg.vmBase + 100 * 4 + s.cfg.saveOff + 1);
    s.mode = .supervisor ∧ 4 < s.cfg.nSlots ∧ s.slot 4 = some last ∧ w = word "99200" ∧
      isDigit w.c0 = true ∧ isDigit w.c1 = true ∧
      (w.c2, Cmp.more) ∈ [(charCode '0', Cmp.equal), (charCode '1', .less), (charCode '2', .more)] := by decide
theorem witness_SvrgSavesTheBank : let s := opRm "00000" "SVRG4";
    s.mode = .supervisor ∧ 4 < s.cfg.nSlots ∧ s.slot 4 = some last ∧ last.ic ≤ 99 := by decide
theorem witness_LdrgAfterSvrgKeepsTheBank : let s := opRm "00000" "SVRG4";
    s.mode = .supervisor ∧ 4 < s.cfg.nSlots ∧ s.slot 4 = some last ∧ last.ic ≤ 99 := witness_SvrgSavesTheBank
theorem witness_SlotInstructionErrors :
    (let s := topRm "STVM5";
      s.mode = .supervisor ∧ s.cfg.nSlots ≤ 5 ∧ s.slot 4 = none) ∧
    (let s := (topRm "SVRG4").setSlot 4 (some ⟨word "00000", 100, .equal⟩);
      4 < s.cfg.nSlots ∧ s.slot 4 = some ⟨word "00000", 100, .equal⟩) ∧
    (∀ t ∈ ["A0000", "0A000", "00A00", "00300"],
      let s := (rm "00000" [(991, t)]).setSlot 4 (some last);
      let w := s.readM (s.cfg.vmBase + 100 * 4 + s.cfg.saveOff + 1);
      s.mode = .supervisor ∧ 4 < s.cfg.nSlots ∧ s.slot 4 = some last ∧
        (isDigit w.c0 = false ∨ isDigit w.c1 = false ∨ isDigit w.c2 = false ∨ 2 < digitVal w.c2)) := by decide

theorem witness_SupervisorOpcodesAreFatalInAVm : (lastVm "STVM9").mode = .user := by decide
theorem witness_HundredsDigitFaultsInAVm : let s := lastVm "JL100";
    s.mode = .user ∧ s.cur = some 4 ∧ s.slot 4 = some last ∧ 1 ≠ 0 := by decide
theorem witness_ChannelOpcodesTrapInAVm : (lastVm "PD000").mode = .user := by decide

/-- The state of a trap service after the save, and its translated address. -/
def saved (s : State) : State := nextState (State.saveRegs s 4).inVm

/-- The state in which a rule raised a fault. -/
def raisedState : Effect → Option State
  | .raised _ s => some s
  | _ => none

/-- All five trapped opcodes run to their end, at operand 9 9 or 0 0; a stall; EXT_RANGE at the pointer 1000; and a RD
past the top of M with vector 0 usable, no number, and the first address outside M. -/
theorem witness_TrappedOpcodesAreReplayed :
    (∀ t ∈ [("GD099", Instr.gd 0 9 9), ("PD099", .pd 0 9 9), ("RD000", .rd 0 0 0), ("RD099", .rd 0 9 9),
        ("WD000", .wd 0 0 0), ("SD099", .sd 0 9 9)],
      let s := lastVm t.1;
      s.cfg.Ok ∧ s.run = .running ∧ s.mode = .user ∧ s.cur = some 4 ∧ s.slot 4 = some last ∧ last.ic < 100 ∧
      decode s.cfg.haltPad (s.readM (s.cfg.vmBase + 100 * 4 + last.ic)) = .ok t.2 ∧
      isNext (State.saveRegs { s with si := some .gd, ti := s.ti - 1 } 4).inVm = true ∧
      (saved s).translate 99 = .address 999 ∧ (saved s).translate 0 = .address 900) ∧
    isNext (gdRule 999 (saved (lastVm "GD099"))).inVm = true ∧ isNext (pdRule 999 (saved (lastVm "PD099"))).inVm = true ∧
    isNext (rdRule 900 (saved (lastVm "RD000"))).inVm = true ∧ isNext (wdRule 900 (saved (lastVm "WD000"))).inVm = true ∧
    isNext (sdRule 999 (saved (lastVm "SD099"))).inVm = true ∧
    gdRule 999 (saved { lastVm "GD099" with busy := 1 }) = .stuck (.stalled .keyboard) ∧
    (∃ u, rdRule 900 (saved { lastVm "RD000" with extPtr := 1000 }) = .fatal .extRange u) ∧
    ((∃ u, raisedState (rdRule 999 (saved (lastVm "RD099"))) = some u ∧ isnum (u.readM u.cfg.ivtBase) = true ∧
        num (u.readM u.cfg.ivtBase) < u.cfg.rmMemSize) ∧
      (∃ u, raisedState (rdRule 999 (saved (load (lastVm "RD099") [(0, "ABCDE")]))) = some u ∧
        isnum (u.readM u.cfg.ivtBase) = false) ∧
      (∃ u, raisedState (rdRule 999 (saved (load (lastVm "RD099") [(0, "01000")]))) = some u ∧
        u.cfg.rmMemSize ≤ num (u.readM u.cfg.ivtBase)) ∧
      ((lastVm "RD099").cfg.ivtBase ≠ (lastVm "RD099").cfg.win 4 + (lastVm "RD099").cfg.saveOff ∧
        (lastVm "RD099").cfg.ivtBase ≠ (lastVm "RD099").cfg.win 4 + (lastVm "RD099").cfg.saveOff + 1)) :=
  ⟨by decide, by decide, by decide, by decide, by decide, by decide, by rfl, ⟨_, rfl⟩,
    ⟨_, rfl, by decide, by decide⟩, ⟨_, rfl, by decide⟩, ⟨_, rfl, by decide⟩, by decide⟩
theorem witness_TrappedPdPublishesTheTranslatedWord : let s := lastVm "PD099";
    let e := s.readM (s.ptr + 9);
    s.cfg.Ok ∧ s.run = .running ∧ s.mode = .user ∧ s.cur = some 4 ∧ s.slot 4 = some last ∧ last.ic < 100 ∧
      decode s.cfg.haltPad (s.readM (s.cfg.vmBase + 100 * 4 + last.ic)) = .ok (.pd 0 9 9) ∧
      bitOf s.busy .screen = false ∧ s.ptr + 9 < s.cfg.rmMemSize ∧ isnum e = true ∧ num e + 9 < s.cfg.rmMemSize ∧
      (s.ptr + 9 ≠ s.cfg.win 4 + s.cfg.saveOff ∧ s.ptr + 9 ≠ s.cfg.win 4 + s.cfg.saveOff + 1) ∧
      (num e + 9 ≠ s.cfg.win 4 + s.cfg.saveOff ∧ num e + 9 ≠ s.cfg.win 4 + s.cfg.saveOff + 1) := by decide
/-- A table that runs out of M, a table word whose block does (999 + 1 is the first address outside), and a table word
that is no number. -/
theorem witness_TranslationFaultEntersTheHandler :
    (let s := { lastVm "PD001" with ptr := 1000 };
      s.cfg.Ok ∧ s.run = .running ∧ s.mode = .user ∧ s.cur = some 4 ∧ s.slot 4 = some last ∧ last.ic < 100 ∧
      decode s.cfg.haltPad (s.readM (s.cfg.vmBase + 100 * 4 + last.ic)) = .ok (.pd 0 0 1) ∧
      s.cfg.rmMemSize ≤ s.ptr + 0 ∧
      (s.cfg.ivtBase ≠ s.cfg.win 4 + s.cfg.saveOff ∧ s.cfg.ivtBase ≠ s.cfg.win 4 + s.cfg.saveOff + 1) ∧
      isnum (s.readM s.cfg.ivtBase) = true ∧ num (s.readM s.cfg.ivtBase) < s.cfg.rmMemSize) ∧
    (let s := load (lastVm "PD001") [(50, "00999")];
      s.cfg.Ok ∧ s.mode = .user ∧ s.cur = some 4 ∧ s.slot 4 = some last ∧
      (s.ptr + 0 ≠ s.cfg.win 4 + s.cfg.saveOff ∧ s.ptr + 0 ≠ s.cfg.win 4 + s.cfg.saveOff + 1) ∧
      isnum (s.readM (s.ptr + 0)) = true ∧ s.cfg.rmMemSize ≤ num (s.readM (s.ptr + 0)) + 1 ∧
      isnum (s.readM s.cfg.ivtBase) = true ∧ num (s.readM s.cfg.ivtBase) < s.cfg.rmMemSize) ∧
    (let s := load (lastVm "PD001") [(50, "X0500")];
      s.cfg.Ok ∧ s.run = .running ∧ s.mode = .user ∧ s.cur = some 4 ∧ s.slot 4 = some last ∧
      decode s.cfg.haltPad (s.readM (s.cfg.vmBase + 100 * 4 + last.ic)) = .ok (.pd 0 0 1) ∧
      s.ptr + 0 < s.cfg.rmMemSize ∧
      (s.ptr + 0 ≠ s.cfg.win 4 + s.cfg.saveOff ∧ s.ptr + 0 ≠ s.cfg.win 4 + s.cfg.saveOff + 1) ∧
      isnum (s.readM (s.ptr + 0)) = false) := by decide
theorem witness_FreshTableTranslatesToTheWindow : let s := topRm "STVM4";
    s.cfg.Ok ∧ s.mode = .supervisor ∧ 4 < s.cfg.nSlots ∧ s.slot 4 = none ∧ s.cfg.rmMemSize ≤ 100000 := by decide
/-- Vector 0 holds the last address of M; vector 6 holds no number and vector 5 the first address outside. -/
theorem witness_HandlerEntrySavesAndVectors : let s := load (lastVm "CP000") [(5, "01000"), (6, "ABCDE")];
    s.cur = some 4 ∧ s.slot 4 = some last ∧ last.ic ≤ 99 ∧
      (∀ v ≤ 6, s.cfg.ivtBase + v ≠ s.cfg.win 4 + s.cfg.saveOff ∧ s.cfg.ivtBase + v ≠ s.cfg.win 4 + s.cfg.saveOff + 1) ∧
      (isnum (s.readM (s.cfg.ivtBase + 0)) = true ∧ num (s.readM (s.cfg.ivtBase + 0)) < s.cfg.rmMemSize) ∧
      s.cfg.rmMemSize ≤ num (s.readM (s.cfg.ivtBase + 5)) ∧ isnum (s.readM (s.cfg.ivtBase + 6)) = false := by decide
theorem witness_DispatchFollowsThePriority :
    ({ lastVm "CP000" with si := some .halt } : State).si = some .halt ∧
    ({ lastVm "CP000" with si := some .sd } : State).si ≠ some .halt ∧
    (∀ f ∈ [ProgramFault.invAddress, .invOp, .overflow],
      ({ lastVm "CP000" with pi := some f } : State).pi = some f ∧ (lastVm "CP000").si = none) ∧
    ((lastVm "CP000").pi = none ∧ ({ lastVm "CP000" with ti := 0 } : State).ti = 0 ∧ (lastVm "CP000").ti ≠ 0) ∧
    bitOf 7#3 .keyboard = true ∧ (bitOf 6#3 .keyboard = false ∧ bitOf 6#3 .screen = true) ∧
    (bitOf 4#3 .keyboard = false ∧ bitOf 4#3 .screen = false ∧ bitOf 4#3 .external = true) ∧
    (lastVm "CP000").ioi = 0 := by decide

/-- A VM step that goes on, and RM steps that change TI. -/
theorem witness_TimerCountsVmSteps :
    (∃ t, (lastVm "CP000").mode = .user ∧ step (lastVm "CP000") = .next t ∧ t.run = .running) ∧
    (∃ t, (rm "00000" [(100, "PT999"), (999, "00051")]).mode = .supervisor ∧
      step (rm "00000" [(100, "PT999"), (999, "00051")]) = .next t ∧
      t.ti ≠ (rm "00000" [(100, "PT999"), (999, "00051")]).ti) :=
  ⟨⟨_, by decide, eq_next (by decide), by decide⟩, _, by decide, eq_next (by decide), by decide⟩
theorem witness_ModeChangesOnlyAsListed :
    (∃ t, (rm "99999" [(100, "STVM4")]).Inv ∧ step (rm "99999" [(100, "STVM4")]) = .next t ∧
      (rm "99999" [(100, "STVM4")]).mode = .supervisor ∧ t.mode = .user) ∧
    (∀ x ∈ ["HALT0", "AD000"], ∃ t, (lastVm x).Inv ∧ step (lastVm x) = .next t ∧ (lastVm x).mode = .user ∧
      t.mode = .supervisor) := by
  refine ⟨⟨_, inv_rm, eq_next (by decide), by decide, by decide⟩, fun x h => ?_⟩
  simp only [List.mem_cons, List.not_mem_nil, or_false] at h
  rcases h with rfl | rfl <;> exact ⟨_, inv_vm _ (by decide), eq_next (by decide), by decide, by decide⟩
/-- A store to the last word of the last window. -/
theorem witness_VmWritesStayInItsWindow : ∃ t, (lastVm "CM099").Inv ∧ (lastVm "CM099").mode = .user ∧
    (lastVm "CM099").cur = some 4 ∧ step (lastVm "CM099") = .next t ∧
    (lastVm "CM099").nextInstr = some (.cm 0 9 9) ∧ t.readM 999 = word "99999" :=
  ⟨_, inv_vm _ (by decide), by decide, by decide, eq_next (by decide), by decide, by decide⟩
theorem witness_VmStepLeavesOtherContextsAlone : ∃ t, (lastVm "CM099").Inv ∧ (lastVm "CM099").mode = .user ∧
    (lastVm "CM099").cur = some 4 ∧ step (lastVm "CM099") = .next t ∧ t.mode = .user :=
  ⟨_, inv_vm _ (by decide), by decide, by decide, eq_next (by decide), by decide⟩
theorem witness_OnlyCpWritesC :
    (∃ t, (lastVm "CP000").Inv ∧ step (lastVm "CP000") = .next t ∧ (lastVm "CP000").mode = .user ∧
      (lastVm "CP000").cur = some 4 ∧ (lastVm "CP000").slot 4 = some ⟨word "99999", 99, .more⟩ ∧
      t.slot 4 = some ⟨word "99999", 100, .more⟩) ∧
    (∃ t, (opRm "00000" "00001").mode = .supervisor ∧
      step { load (opRm "00000" "00001") [(100, "CP999")] with mode := .supervisor } = .next t ∧ t.rm.c = .less) :=
  ⟨⟨_, inv_vm _ (by decide), eq_next (by decide), by decide, by decide, by decide, by decide⟩, _, by decide,
    eq_next (by decide), by decide⟩
theorem witness_DeviceRegistersHaveOneWriter : ∃ t, (rm "99999" [(100, "STVM4")]).Inv ∧
    step (rm "99999" [(100, "STVM4")]) = .next t ∧ t.ptr ≠ (rm "99999" [(100, "STVM4")]).ptr :=
  ⟨_, inv_rm, eq_next (by decide), by decide⟩
theorem witness_EveryStepKeepsTheInvariant :
    ∃ t, (lastVm "GD000").Inv ∧ step (lastVm "GD000") = .next t := ⟨_, inv_vm _ (by decide), eq_next (by decide)⟩
theorem witness_InvariantStatesStopOnlyAsSpecified : (lastVm "HALT0").Inv := inv_vm _ (by decide)

/-- An image that fills the small machine, one a word too long, texts that are no Word, a supplied external memory and
one of no line. -/
theorem witness_HostResetLoadsTheImage :
    let image := fun n => List.replicate n ("HALT0".toList.map charCode);
    (small.Ok ∧ (∀ n, ∀ text ∈ image n, IsWordText text) ∧
      (image 200).length ≤ small.rmMemSize ∧ small.rmMemSize < (image 201).length) ∧
    ¬ ({ small with saveOff := 99 } : Config).Ok ∧
    ¬ IsWordText ("HALT".toList.map charCode) ∧ ¬ IsWordText [0x41, 0x42, 0x43, 0x44, 0x80] ∧
    IsExtText (List.replicate 1000 (image 10)) ∧ ¬ IsExtText [] := by
  have h : ∀ n, ∀ text ∈ List.replicate n ("HALT0".toList.map charCode), IsWordText text := fun n text h => by
    rw [List.eq_of_mem_replicate h]; decide
  refine ⟨⟨by decide, h, ?_, ?_⟩, by decide, by decide, by decide, ⟨List.length_replicate, fun l hl => ?_⟩, by decide⟩
  · rw [List.length_replicate]; decide
  · rw [List.length_replicate]; decide
  · rw [List.eq_of_mem_replicate hl]; exact ⟨List.length_replicate, h 10⟩
theorem witness_HostReadsAndSetsTheKeyboard : State.reset.cur = none ∧ (lastVm "CP000").cur = some 4 ∧
    IsWordText ("0 \tA~".toList.map charCode) ∧ ¬ IsWordText ("00000 ".toList.map charCode) := by decide

end Sys2Proof.Tests
end

section
/-! What direct opcodes share (their words, the context they run in, the registers and the word they write), and the two
transfers of 41_transfer.md. -/

namespace Sys2Proof.Machine

open Sys2Proof

/-! ## Words of Format A -/

/-- The operand as a number (30_encoding.md R94). -/
theorem argument_eq (x y z : Nat) : argument x y z = 100 * x + 10 * y + z := by
  unfold argument; omega

theorem decodeOperands_digits (pad : List Byte) (make : Nat → Nat → Nat → Instr) {x y z : Nat}
    (hx : x ≤ 9) (hy : y ≤ 9) (hz : z ≤ 9) :
    decodeOperands pad (.a make) [digitChar x, digitChar y, digitChar z] = .ok (make x y z) := by
  simp [decodeOperands, hx, hy, hz]

/-- A Format A word decodes through the row that its mnemonic selects in ORDER (30_encoding.md R95). -/
theorem decode_encodeA {pad : List Byte} {m0 m1 : Char} {make : Nat → Nat → Nat → Instr}
    (hrow : ∀ cs, decodeRows pad opRows (charCode m0 :: charCode m1 :: cs) = decodeOperands pad (.a make) cs)
    {x y z : Nat} (hx : x ≤ 9) (hy : y ≤ 9) (hz : z ≤ 9) :
    decode pad (encodeA m0 m1 x y z) = .ok (make x y z) :=
  (hrow _).trans (decodeOperands_digits pad make hx hy hz)

/-! ## The context that executes -/

/-- A direct opcode whose rule runs to its end answers the rule's state, in the RM and in a VM (40_cycle.md R123, R125). -/
theorem exec_direct_done {s t : State} {ctx : Ctx} {b : Bank} {i : Instr} {x y z : Nat} {rule : DirectRule}
    (he : s.Executes ctx b x) (hi : directRule i = some (x, y, z, rule))
    (hr : rule ctx b (argument x y z) s = .done t) : exec i s = .next t := by
  rw [exec_direct hi]
  cases ctx with
  | rm =>
    obtain ⟨hmode, rfl⟩ := he
    rw [State.direct_rm hmode, hr]; rfl
  | vm n =>
    obtain ⟨hmode, hcur, hslot, rfl⟩ := he
    rw [State.direct_vm hmode hcur hslot, hr]; rfl

/-- A store to M leaves the executing context and its registers as they are. -/
theorem State.Executes.writeM {s : State} {ctx : Ctx} {b : Bank} {x : Nat} (he : s.Executes ctx b x) (a : Nat) (w : Word) :
    (s.writeM a w).Executes ctx b x := by
  cases ctx <;> exact he

/-! ## Writing the registers of a context -/

@[simp] theorem State.setBank_mem (s : State) (ctx : Ctx) (b : Bank) : (s.setBank ctx b).mem = s.mem := by
  cases ctx <;> rfl

@[simp] theorem State.setBank_readM (s : State) (ctx : Ctx) (b : Bank) (a : Nat) :
    (s.setBank ctx b).readM a = s.readM a := by
  cases ctx <;> rfl

/-- In the executing context, `setBank` writes the registers and nothing else: a current VM's slot is one of the ten. -/
theorem State.Executes.registersBecome_setBank {s : State} {ctx : Ctx} {b : Bank} {x : Nat} (he : s.Executes ctx b x)
    (c : Bank) : s.RegistersBecome (s.setBank ctx c) ctx c := by
  cases ctx with
  | rm => rfl
  | vm n =>
    obtain ⟨-, -, hslot, -⟩ := he
    exact ⟨rfl, State.slot_setSlot_same s _ (State.slot_eq_some_lt hslot), fun k hk => State.slot_setSlot_other s _ hk⟩

/-! ## Writing one word of M -/

theorem State.sameOutside_writeM (s : State) (a : Nat) (w : Word) : s.SameOutside (s.writeM a w) a 1 :=
  fun _ hk => s.writeM_byte_other w (by omega)

/-! ## CR and CM -/

theorem loadTmp_inside {s : State} {ctx : Ctx} {a : Nat} (ha : a < s.sizeCtx ctx) (b : Bank) :
    loadTmp ctx b a s = .done (s.setBank ctx ⟨s.readM (s.absCtx ctx a), b.ic + 1, b.c⟩) := by
  rcases loadTmp_cases ctx b a s with ⟨hout, -⟩ | ⟨-, e⟩
  · omega
  · exact e

theorem loadTmp_outside {s : State} {ctx : Ctx} {a : Nat} (ha : s.sizeCtx ctx ≤ a) (b : Bank) :
    loadTmp ctx b a s = .raised .invAddress s := by
  rcases loadTmp_cases ctx b a s with ⟨-, e⟩ | ⟨hin, -⟩
  · exact e
  · omega

theorem storeTmp_inside {s : State} {ctx : Ctx} {a : Nat} (ha : a < s.sizeCtx ctx) (b : Bank) :
    storeTmp ctx b a s = .done ((s.writeM (s.absCtx ctx a) b.tmp).setBank ctx b.advance) := by
  rcases storeTmp_cases ctx b a s with ⟨hout, -⟩ | ⟨-, e⟩
  · omega
  · exact e

theorem storeTmp_outside {s : State} {ctx : Ctx} {a : Nat} (ha : s.sizeCtx ctx ≤ a) (b : Bank) :
    storeTmp ctx b a s = .raised .invAddress s := by
  rcases storeTmp_cases ctx b a s with ⟨-, e⟩ | ⟨hin, -⟩
  · exact e
  · omega

/-- What CM writes, in either context: the operand word and the registers, the rest of the state as before. -/
theorem State.Executes.store_frame {s : State} {ctx : Ctx} {b : Bank} {x : Nat} (he : s.Executes ctx b x)
    (a : Nat) (w : Word) (c : Bank) :
    let t := (s.writeM a w).setBank ctx c
    State.RegistersBecome { s with mem := t.mem } t ctx c ∧ t.readM a = w ∧ s.SameOutside t a 1 := by
  refine ⟨?_, by simp, fun k hk => ?_⟩
  · rw [State.setBank_mem]
    exact (he.writeM a w).registersBecome_setBank c
  · rw [State.setBank_mem]
    exact s.sameOutside_writeM a w k hk

/-- Settles O11: the first row of ORDER decodes the word, and the rule's two cases are the two sides of SIZE_ctx. -/
theorem crCopiesMemoryToTmp : Obligations.CrCopiesMemoryToTmp := by
  intro s ctx b x y z he
  refine ⟨fun hx hy hz => ⟨argument_eq x y z, decode_encodeA (fun _ => rfl) hx hy hz⟩, fun hin => ?_,
    fun hout => loadTmp_outside hout b⟩
  exact ⟨_, exec_direct_done he rfl (loadTmp_inside hin b), he.registersBecome_setBank _⟩

/-- Settles O12: as for CR, with the operand word written before the registers. -/
theorem cmCopiesTmpToMemory : Obligations.CmCopiesTmpToMemory := by
  intro s ctx b x y z he
  refine ⟨fun hx hy hz => ⟨argument_eq x y z, decode_encodeA (fun _ => rfl) hx hy hz⟩, fun hin => ?_,
    fun hout => storeTmp_outside hout b⟩
  exact ⟨_, exec_direct_done he rfl (storeTmp_inside hin b), he.store_frame _ _ _⟩

end Sys2Proof.Machine
end

section
/-! The supervisor's timer opcode GT (45_system.md R220). -/

namespace Sys2Proof.Machine

open Sys2Proof

/-- In the RM a supervisor opcode of Format A runs its rule: the hundreds check of 40_cycle.md R125 is a VM's alone. -/
theorem State.supervisorOnlyA_rm {s : State} (hm : s.mode = .supervisor) (x : Nat) (r : Result) :
    s.supervisorOnlyA x r = r := by
  simp [State.supervisorOnlyA, hm]

theorem getTimer_inside {s : State} {a : Nat} (ha : a < s.cfg.rmMemSize) :
    getTimer a s = .done (s.writeM a (pad5 s.ti)).advanceRm := if_neg (Nat.not_le.mpr ha)

theorem getTimer_outside {s : State} {a : Nat} (ha : s.cfg.rmMemSize ≤ a) : getTimer a s = .raised .invAddress s :=
  if_pos ha

/-- In the RM GT with a target in M stores the text of TI and advances RM.IC. -/
theorem exec_gt_inside {s : State} (hm : s.mode = .supervisor) {x y z : Nat} (hin : argument x y z < s.cfg.rmMemSize) :
    exec (.gt x y z) s = .next (s.writeM (argument x y z) (pad5 s.ti)).advanceRm :=
  calc exec (.gt x y z) s
    _ = (getTimer (argument x y z) s).inRm := State.supervisorOnlyA_rm hm x _
    _ = .next (s.writeM (argument x y z) (pad5 s.ti)).advanceRm := by rw [getTimer_inside hin]; rfl

/-- Settles O32: the stored word is `pad5 TI`, which reads back as TI while TI has a five-digit text. -/
theorem gtStoresTheTimer : Obligations.GtStoresTheTimer := by
  intro s x y z hm
  refine ⟨fun hx hy hz => ⟨argument_eq x y z, decode_encodeA (fun _ => rfl) hx hy hz⟩, fun hin => ?_,
    fun hout => getTimer_outside hout⟩
  have hword : (s.writeM (argument x y z) (pad5 s.ti)).advanceRm.readM (argument x y z) = pad5 s.ti := by simp
  refine ⟨_, exec_gt_inside hm hin, rfl, fun hti => ?_, s.sameOutside_writeM _ _⟩
  rw [hword]
  exact ⟨isnum_pad5 hti, num_pad5 hti⟩

end Sys2Proof.Machine
end

section
/-! The encoding of 30_encoding.md: decoding what was serialized, and what a word that decodes must be. -/

namespace Sys2Proof

open Sys2Proof.Machine

/-! ## Decoding a serialized command -/

/-- A Format B word decodes through the row that its mnemonic selects in ORDER (30_encoding.md R95). -/
theorem decode_encodeB {pad : List Byte} {m0 m1 m2 m3 : Char} {make : Nat → Instr}
    (hrow : ∀ cs, decodeRows pad opRows (charCode m0 :: charCode m1 :: charCode m2 :: charCode m3 :: cs) =
      decodeOperands pad (.b make) cs)
    {n : Nat} (hn : n ≤ 9) : decode pad (encodeB m0 m1 m2 m3 n) = .ok (make n) := by
  have hops : decodeOperands pad (.b make) [digitChar n] = .ok (make n) := by simp [decodeOperands, hn]
  exact (hrow _).trans hops

/-- HALT0 decodes under every pad set that holds '0' (30_encoding.md R93, D8). -/
theorem decode_halt0 {pad : List Byte} (hpad : charCode '0' ∈ pad) : decode pad (encode .halt) = .ok .halt := by
  have hrow : decode pad (encode .halt) = decodeOperands pad (.h .halt) [charCode '0'] := rfl
  simp [hrow, decodeOperands, hpad]

/-- Settles O1: by the command's format, the row of its mnemonic is the first that matches. -/
theorem decodeOfEncode : Obligations.DecodeOfEncode := by
  intro pad i hpad hwf
  cases i with
  | halt => exact decode_halt0 hpad
  | stvm n => exact decode_encodeB (fun _ => rfl) (of_decide_eq_true hwf)
  | svrg n => exact decode_encodeB (fun _ => rfl) (of_decide_eq_true hwf)
  | ldrg n => exact decode_encodeB (fun _ => rfl) (of_decide_eq_true hwf)
  | _ =>
    obtain ⟨hx, hy, hz⟩ := of_decide_eq_true hwf
    exact decode_encodeA (fun _ => rfl) hx hy hz

/-! ## What a word that decodes must be -/

theorem afterMnemonic_eq_some {m cs rest : List Byte} (h : afterMnemonic m cs = some rest) : cs = m ++ rest := by
  induction m generalizing cs with
  | nil => simpa [afterMnemonic] using h
  | cons a m ih =>
    cases cs with
    | nil => simp [afterMnemonic] at h
    | cons c cs =>
      by_cases hac : a = c
      · rw [afterMnemonic, if_pos hac] at h
        rw [hac, ih h, List.cons_append]
      · rw [afterMnemonic, if_neg hac] at h
        cases h

/-- A decoded command comes from a row whose mnemonic begins the word (30_encoding.md R95). -/
theorem decodeRows_ok {pad : List Byte} {rs : List OpRow} {cs : List Byte} {i : Instr}
    (h : decodeRows pad rs cs = .ok i) :
    ∃ r ∈ rs, ∃ rest, cs = r.mnemonic ++ rest ∧ decodeOperands pad r.format rest = .ok i := by
  induction rs with
  | nil => cases h
  | cons r rs ih =>
    rw [decodeRows] at h
    cases hm : afterMnemonic r.mnemonic cs with
    | some rest =>
      rw [hm] at h
      exact ⟨r, List.mem_cons_self, rest, afterMnemonic_eq_some hm, h⟩
    | none =>
      rw [hm] at h
      obtain ⟨q, hq, hrest⟩ := ih h
      exact ⟨q, List.mem_cons_of_mem _ hq, hrest⟩

theorem decodeOperands_a_ok {pad rest : List Byte} {make : Nat → Nat → Nat → Instr} {i : Instr}
    (h : decodeOperands pad (.a make) rest = .ok i) :
    ∃ x y z, digits3 x y z ∧ rest = [digitChar x, digitChar y, digitChar z] ∧ i = make x y z := by
  unfold decodeOperands at h
  split at h
  case h_1 hf =>
    cases hf
    split at h
    · rename_i a b c hd
      simp only [Bool.and_eq_true] at hd
      obtain ⟨⟨ha, hb⟩, hc⟩ := hd
      cases h
      exact ⟨_, _, _, ⟨digitVal_le ha, digitVal_le hb, digitVal_le hc⟩,
        by rw [digitChar_digitVal ha, digitChar_digitVal hb, digitChar_digitVal hc], rfl⟩
    · cases h
  case h_2 hf => cases hf
  case h_3 hf => cases hf
  case h_4 => cases h

theorem decodeOperands_b_ok {pad rest : List Byte} {make : Nat → Instr} {i : Instr}
    (h : decodeOperands pad (.b make) rest = .ok i) : ∃ n, digit1 n ∧ rest = [digitChar n] ∧ i = make n := by
  unfold decodeOperands at h
  split at h
  case h_1 hf => cases hf
  case h_2 hf =>
    cases hf
    split at h
    · rename_i hd
      cases h
      exact ⟨_, digitVal_le hd, by rw [digitChar_digitVal hd], rfl⟩
    · cases h
  case h_3 hf => cases hf
  case h_4 => cases h

theorem decodeOperands_h_ok {pad rest : List Byte} {cmd i : Instr}
    (h : decodeOperands pad (.h cmd) rest = .ok i) : ∃ p ∈ pad, rest = [p] ∧ i = cmd := by
  unfold decodeOperands at h
  split at h
  case h_1 hf => cases hf
  case h_2 hf => cases hf
  case h_3 hf =>
    cases hf
    split at h
    · rename_i hp
      cases h
      exact ⟨_, by simpa using hp, rfl, rfl⟩
    · cases h
  case h_4 => cases h

/-- The word is the serialized `i`, or `i` is HALT and the word ends in another pad (30_encoding.md R103, D8). -/
def IsWordOf (pad : List Byte) (w : Word) (i : Instr) : Prop :=
  w = encode i ∨ (i = .halt ∧ ∃ p ∈ pad, w = ⟨charCode 'H', charCode 'A', charCode 'L', charCode 'T', p⟩)

/-- Every word that the row accepts is the word of a well-formed command. -/
def OpRow.Inverts (pad : List Byte) (r : OpRow) : Prop :=
  ∀ rest i, decodeOperands pad r.format rest = .ok i →
    i.wellFormed = true ∧ ∀ w : Word, w.chars = r.mnemonic ++ rest → IsWordOf pad w i

theorem inverts_a (pad : List Byte) (m0 m1 : Char) {r : OpRow} {make : Nat → Nat → Nat → Instr}
    (hm : r.mnemonic = [charCode m0, charCode m1]) (hf : r.format = .a make)
    (hwf : ∀ x y z, (make x y z).wellFormed = decide (digits3 x y z))
    (henc : ∀ x y z, encode (make x y z) = encodeA m0 m1 x y z) : r.Inverts pad := by
  intro rest i h
  rw [hf] at h
  obtain ⟨x, y, z, hd, rfl, rfl⟩ := decodeOperands_a_ok h
  refine ⟨(hwf x y z).trans (decide_eq_true hd), fun w hw => .inl ?_⟩
  rw [hm] at hw
  rw [henc]
  cases w
  simpa [Word.chars, encodeA] using hw

theorem inverts_b (pad : List Byte) (m0 m1 m2 m3 : Char) {r : OpRow} {make : Nat → Instr}
    (hm : r.mnemonic = [charCode m0, charCode m1, charCode m2, charCode m3]) (hf : r.format = .b make)
    (hwf : ∀ n, (make n).wellFormed = decide (digit1 n))
    (henc : ∀ n, encode (make n) = encodeB m0 m1 m2 m3 n) : r.Inverts pad := by
  intro rest i h
  rw [hf] at h
  obtain ⟨n, hd, rfl, rfl⟩ := decodeOperands_b_ok h
  refine ⟨(hwf n).trans (decide_eq_true hd), fun w hw => .inl ?_⟩
  rw [hm] at hw
  rw [henc]
  cases w
  simpa [Word.chars, encodeB] using hw

theorem inverts_halt (pad : List Byte) : OpRow.Inverts pad ⟨"HALT".toList.map charCode, .h .halt⟩ := by
  intro rest i h
  obtain ⟨p, hp, rfl, rfl⟩ := decodeOperands_h_ok h
  refine ⟨rfl, fun w hw => .inr ⟨rfl, p, hp, ?_⟩⟩
  cases w
  simpa [Word.chars] using hw

theorem opRows_invert (pad : List Byte) : ∀ r ∈ opRows, r.Inverts pad := by
  have a := @inverts_a pad
  have b := @inverts_b pad
  simp only [opRows, List.forall_mem_cons]
  exact ⟨a 'C' 'R' rfl rfl (fun _ _ _ => rfl) fun _ _ _ => rfl,
    a 'C' 'M' rfl rfl (fun _ _ _ => rfl) fun _ _ _ => rfl,
    a 'A' 'D' rfl rfl (fun _ _ _ => rfl) fun _ _ _ => rfl,
    a 'S' 'B' rfl rfl (fun _ _ _ => rfl) fun _ _ _ => rfl,
    a 'M' 'L' rfl rfl (fun _ _ _ => rfl) fun _ _ _ => rfl,
    a 'M' 'D' rfl rfl (fun _ _ _ => rfl) fun _ _ _ => rfl,
    a 'D' 'V' rfl rfl (fun _ _ _ => rfl) fun _ _ _ => rfl,
    a 'C' 'P' rfl rfl (fun _ _ _ => rfl) fun _ _ _ => rfl,
    a 'J' 'P' rfl rfl (fun _ _ _ => rfl) fun _ _ _ => rfl,
    a 'J' 'E' rfl rfl (fun _ _ _ => rfl) fun _ _ _ => rfl,
    a 'J' 'L' rfl rfl (fun _ _ _ => rfl) fun _ _ _ => rfl,
    a 'J' 'M' rfl rfl (fun _ _ _ => rfl) fun _ _ _ => rfl,
    inverts_halt pad,
    a 'G' 'D' rfl rfl (fun _ _ _ => rfl) fun _ _ _ => rfl,
    a 'P' 'D' rfl rfl (fun _ _ _ => rfl) fun _ _ _ => rfl,
    a 'R' 'D' rfl rfl (fun _ _ _ => rfl) fun _ _ _ => rfl,
    a 'W' 'D' rfl rfl (fun _ _ _ => rfl) fun _ _ _ => rfl,
    a 'S' 'D' rfl rfl (fun _ _ _ => rfl) fun _ _ _ => rfl,
    a 'G' 'T' rfl rfl (fun _ _ _ => rfl) fun _ _ _ => rfl,
    a 'P' 'T' rfl rfl (fun _ _ _ => rfl) fun _ _ _ => rfl,
    b 'S' 'T' 'V' 'M' rfl rfl (fun _ => rfl) fun _ => rfl,
    b 'S' 'V' 'R' 'G' rfl rfl (fun _ => rfl) fun _ => rfl,
    b 'L' 'D' 'R' 'G' rfl rfl (fun _ => rfl) fun _ => rfl, by simp⟩

/-- Settles O2: the row that decoded the word says which word it is. -/
theorem encodeOfDecode : Obligations.EncodeOfDecode := by
  intro pad w i h
  obtain ⟨r, hr, rest, hw, hops⟩ := decodeRows_ok h
  obtain ⟨hwf, hword⟩ := opRows_invert pad r hr rest i hops
  exact ⟨hwf, hword w hw⟩

/-! ## Sample words and the mnemonics -/

/-- Settles O3: each word is decoded by evaluation. -/
theorem sampleWordsDecode : Obligations.SampleWordsDecode := by
  unfold Obligations.SampleWordsDecode
  refine ⟨rfl, rfl, rfl, rfl, rfl, rfl, rfl, rfl, rfl, rfl, rfl⟩

/-- Settles O4: ORDER is a closed list. -/
theorem noMnemonicBeginsAnother : Obligations.NoMnemonicBeginsAnother := by
  unfold Obligations.NoMnemonicBeginsAnother
  exact ⟨rfl, by simp [opRows, rowA, rowB, afterMnemonic, charCode]⟩

end Sys2Proof
end

section
/-! The direct opcodes of 42_alu.md and 43_control.md: how each end of a rule ends the instruction, then the rules. -/

namespace Sys2Proof.Machine

open Sys2Proof

/-- Settles O10: the definitions, with the operand put in order of its digits. -/
theorem operandsNameWordsOfTheContext : Obligations.OperandsNameWordsOfTheContext :=
  ⟨argument_eq, fun _ _ => ⟨rfl, rfl⟩, fun _ _ _ => ⟨rfl, rfl⟩, fun _ _ _ => rfl⟩

/-! ## How the end of a rule ends a direct opcode -/

/-- A direct opcode whose rule raises a fault takes it in its context (40_cycle.md R124, R125). -/
theorem exec_direct_raised {s : State} {ctx : Ctx} {b : Bank} {i : Instr} {x y z : Nat} {rule : DirectRule}
    {f : ProgramFault} (he : s.Executes ctx b x) (hi : directRule i = some (x, y, z, rule))
    (hr : rule ctx b (argument x y z) s = .raised f s) : exec i s = .next (s.faultTaken f ctx) := by
  rw [exec_direct hi]
  cases ctx with
  | rm =>
    obtain ⟨hmode, rfl⟩ := he
    rw [State.direct_rm hmode, hr]; rfl
  | vm n =>
    obtain ⟨hmode, hcur, hslot, rfl⟩ := he
    rw [State.direct_vm hmode hcur hslot, hr]; rfl

/-- A direct opcode whose rule is fatal stops the core in either context (00_scope.md R13). -/
theorem exec_direct_fatal {s : State} {ctx : Ctx} {b : Bank} {i : Instr} {x y z : Nat} {rule : DirectRule}
    {r : FatalReason} (he : s.Executes ctx b x) (hi : directRule i = some (x, y, z, rule))
    (hr : rule ctx b (argument x y z) s = .fatal r s) : exec i s = .next { s with run := .fatal r } := by
  rw [exec_direct hi]
  cases ctx with
  | rm =>
    obtain ⟨hmode, rfl⟩ := he
    rw [State.direct_rm hmode, hr]; rfl
  | vm n =>
    obtain ⟨hmode, hcur, hslot, rfl⟩ := he
    rw [State.direct_vm hmode hcur hslot, hr]; rfl

/-- A direct opcode whose rule ends by writing the registers of its context. -/
theorem exec_direct_setBank {s : State} {ctx : Ctx} {b c : Bank} {i : Instr} {x y z : Nat} {rule : DirectRule}
    (he : s.Executes ctx b x) (hi : directRule i = some (x, y, z, rule))
    (hr : rule ctx b (argument x y z) s = .done (s.setBank ctx c)) :
    ∃ t, exec i s = .next t ∧ s.RegistersBecome t ctx c :=
  ⟨_, exec_direct_done he hi hr, he.registersBecome_setBank c⟩

/-! ## Arithmetic -/

theorem num_zeros : num (word "00000") = 0 := by decide

/-- A result of 0..99999 is stored as five digits (42_alu.md R150). -/
theorem arith_exact {op : ArithOp} {ctx : Ctx} {b : Bank} {a : Nat} {s : State} (ha : a < s.sizeCtx ctx)
    (hb : isnum b.tmp = true) (hm : isnum (s.readM (s.absCtx ctx a)) = true)
    (hz : op.divides = true → num (s.readM (s.absCtx ctx a)) ≠ 0)
    {r : Nat} (hr : op.apply (num b.tmp) (num (s.readM (s.absCtx ctx a))) = r) (hle : r ≤ 99999) :
    arith op ctx b a s = .done (s.setBank ctx ⟨pad5 r, b.ic + 1, b.c⟩) := by
  rcases arith_cases op ctx b a s with
    ⟨h, -⟩ | ⟨-, hd, h, -⟩ | ⟨-, -, h, -⟩ | ⟨-, -, -, -, h, -⟩ | ⟨-, -, -, -, r', h, -, e⟩
  · omega
  · exact absurd (h ▸ num_zeros) (hz hd)
  · simp [hb, hm] at h
  · omega
  · rw [e, show r' = r by omega]

/-- A result outside 0..99999 overflows (42_alu.md R150, D13). -/
theorem arith_overflows {op : ArithOp} {ctx : Ctx} {b : Bank} {a : Nat} {s : State} (ha : a < s.sizeCtx ctx)
    (hb : isnum b.tmp = true) (hm : isnum (s.readM (s.absCtx ctx a)) = true)
    (hr : op.apply (num b.tmp) (num (s.readM (s.absCtx ctx a))) < 0 ∨
      99999 < op.apply (num b.tmp) (num (s.readM (s.absCtx ctx a)))) :
    arith op ctx b a s = .raised .overflow s := by
  rcases arith_cases op ctx b a s with
    ⟨h, -⟩ | ⟨-, -, -, e⟩ | ⟨-, -, h, -⟩ | ⟨-, -, -, -, -, e⟩ | ⟨-, -, -, -, r, h, hle, -⟩
  · omega
  · exact e
  · simp [hb, hm] at h
  · exact e
  · omega

/-- A division by 00000 overflows whatever TMP is (42_alu.md R150, D14, D45). -/
theorem arith_by_zero {op : ArithOp} {ctx : Ctx} {b : Bank} {a : Nat} {s : State} (ha : a < s.sizeCtx ctx)
    (hd : op.divides = true) (hm : s.readM (s.absCtx ctx a) = word "00000") :
    arith op ctx b a s = .raised .overflow s := by
  rcases arith_cases op ctx b a s with
    ⟨h, -⟩ | ⟨-, -, -, e⟩ | ⟨-, h, -⟩ | ⟨-, -, -, -, -, e⟩ | ⟨-, h, -⟩
  · omega
  · exact e
  · exact absurd hm (h hd)
  · exact e
  · exact absurd hm (h hd)

/-- Arithmetic on a word with a non-digit is fatal, after the check for a zero divisor (42_alu.md R150, D12, D45). -/
theorem arith_nonNumeric {op : ArithOp} {ctx : Ctx} {b : Bank} {a : Nat} {s : State} (ha : a < s.sizeCtx ctx)
    (hz : op.divides = true → s.readM (s.absCtx ctx a) ≠ word "00000")
    (hn : isnum b.tmp = false ∨ isnum (s.readM (s.absCtx ctx a)) = false) :
    arith op ctx b a s = .fatal .nonNumeric s := by
  rcases arith_cases op ctx b a s with
    ⟨h, -⟩ | ⟨-, hd, h, -⟩ | ⟨-, -, -, e⟩ | ⟨-, -, h1, h2, -⟩ | ⟨-, -, h1, h2, -⟩
  · omega
  · exact absurd h (hz hd)
  · exact e
  · simp [h1, h2] at hn
  · simp [h1, h2] at hn

theorem arith_outside {ctx : Ctx} {a : Nat} {s : State} (ha : s.sizeCtx ctx ≤ a) (op : ArithOp) (b : Bank) :
    arith op ctx b a s = .raised .invAddress s := by
  rcases arith_cases op ctx b a s with ⟨-, e⟩ | ⟨h, -⟩ | ⟨h, -⟩ | ⟨h, -⟩ | ⟨h, -⟩
  · exact e
  all_goals omega

/-- Settles O13: the word stored is `pad5` of the result, which reads back as the result. -/
theorem arithmeticStoresTheExactResult : Obligations.ArithmeticStoresTheExactResult := by
  rintro s ctx b x y z he ha m rfl hb hm
  have stores {i : Instr} {op : ArithOp} {r : Int} (hi : directRule i = some (x, y, z, arith op))
      (hz : op.divides = true → num (s.readM (s.absCtx ctx (argument x y z))) ≠ 0)
      (hr : op.apply (num b.tmp) (num (s.readM (s.absCtx ctx (argument x y z)))) = r) (h0 : 0 ≤ r) (h9 : r ≤ 99999) :
      ∃ t w, exec i s = .next t ∧ isnum w = true ∧ (num w : Int) = r ∧ s.RegistersBecome t ctx ⟨w, b.ic + 1, b.c⟩ := by
    obtain ⟨v, rfl⟩ := Int.eq_ofNat_of_zero_le h0
    have hv : v ≤ 99999 := by omega
    obtain ⟨t, ht, hregs⟩ := exec_direct_setBank he hi (arith_exact ha hb hm hz hr hv)
    exact ⟨t, pad5 v, ht, isnum_pad5 hv, by rw [num_pad5 hv], hregs⟩
  exact ⟨stores (op := .add) rfl nofun rfl, stores (op := .sub) rfl nofun rfl, stores (op := .mul) rfl nofun rfl,
    fun hz => stores (op := .rem) rfl (fun _ => hz) (Int.natCast_emod _ _),
    fun hz => stores (op := .div) rfl (fun _ => hz) (Int.natCast_ediv _ _)⟩

/-- Settles O14: a result out of range for the first three, the zero divisor for the last two. -/
theorem arithmeticOverflows : Obligations.ArithmeticOverflows := by
  rintro s ctx b x y z he ha m rfl
  refine ⟨fun hb hm => ⟨fun h => ?_, fun h => ?_, fun h => ?_⟩, fun hm => ⟨?_, ?_⟩⟩
  · exact exec_direct_raised he rfl (arith_overflows (op := .add) ha hb hm (.inr (by simp only [ArithOp.apply]; omega)))
  · exact exec_direct_raised he rfl (arith_overflows (op := .sub) ha hb hm (.inl (by simp only [ArithOp.apply]; omega)))
  · exact exec_direct_raised he rfl
      (arith_overflows (op := .mul) ha hb hm (.inr (by simp only [ArithOp.apply]; exact_mod_cast h)))
  · exact exec_direct_raised he rfl (arith_by_zero (op := .rem) ha rfl hm)
  · exact exec_direct_raised he rfl (arith_by_zero (op := .div) ha rfl hm)

/-- Settles O15: one end of the rule, whose check for a zero divisor only the last two have. -/
theorem arithmeticOnTextIsFatal : Obligations.ArithmeticOnTextIsFatal := by
  rintro s ctx b x y z he ha m rfl hn
  have fatal {i : Instr} {op : ArithOp} (hi : directRule i = some (x, y, z, arith op))
      (hz : op.divides = true → s.readM (s.absCtx ctx (argument x y z)) ≠ word "00000") :
      exec i s = .next { s with run := .fatal .nonNumeric } :=
    exec_direct_fatal he hi (arith_nonNumeric ha hz hn)
  exact ⟨fatal (op := .add) rfl nofun, fatal (op := .sub) rfl nofun, fatal (op := .mul) rfl nofun,
    fun hz => fatal (op := .rem) rfl fun _ => hz, fun hz => fatal (op := .div) rfl fun _ => hz⟩

/-! ## CP -/

theorem compareTmp_inside {s : State} {ctx : Ctx} {a : Nat} (ha : a < s.sizeCtx ctx) (b : Bank) :
    compareTmp ctx b a s =
      .done (s.setBank ctx ⟨b.tmp, b.ic + 1, compareWords b.tmp (s.readM (s.absCtx ctx a))⟩) := by
  rcases compareTmp_cases ctx b a s with ⟨hout, -⟩ | ⟨-, e⟩
  · omega
  · exact e

theorem compareTmp_outside {s : State} {ctx : Ctx} {a : Nat} (ha : s.sizeCtx ctx ≤ a) (b : Bank) :
    compareTmp ctx b a s = .raised .invAddress s := by
  rcases compareTmp_cases ctx b a s with ⟨-, e⟩ | ⟨hin, -⟩
  · exact e
  · omega

/-- `as` is the smaller at the first position where the texts differ (42_alu.md R156). -/
def SmallerAtFirstDifference (as bs : List Byte) : Prop :=
  ∃ p < as.length, (∀ q < p, as[q]? = bs[q]?) ∧ (as.getD p 0).toNat < (bs.getD p 0).toNat

theorem smallerAtFirstDifference_cons_same (a : Byte) (as bs : List Byte) :
    SmallerAtFirstDifference (a :: as) (a :: bs) ↔ SmallerAtFirstDifference as bs := by
  constructor
  · rintro ⟨p, hp, hq, hlt⟩
    cases p with
    | zero => simp at hlt
    | succ p => exact ⟨p, by simpa using hp, fun q h => by simpa using hq (q + 1) (by omega), by simpa using hlt⟩
  · rintro ⟨p, hp, hq, hlt⟩
    refine ⟨p + 1, by simpa using hp, fun q h => ?_, by simpa using hlt⟩
    cases q with
    | zero => rfl
    | succ q => simpa using hq q (by omega)

theorem smallerAtFirstDifference_cons_diff {a b : Byte} (h : a ≠ b) (as bs : List Byte) :
    SmallerAtFirstDifference (a :: as) (b :: bs) ↔ a.toNat < b.toNat := by
  constructor
  · rintro ⟨p, -, hq, hlt⟩
    cases p with
    | zero => simpa using hlt
    | succ p => exact absurd (by simpa using hq 0 (by omega)) h
  · exact fun hlt => ⟨0, by simp, by simp, by simpa using hlt⟩

theorem lexLess_iff {as bs : List Byte} (h : as.length = bs.length) :
    lexLess as bs = true ↔ SmallerAtFirstDifference as bs := by
  induction as generalizing bs with
  | nil => simp [lexLess, SmallerAtFirstDifference]
  | cons a as ih =>
    cases bs with
    | nil => simp at h
    | cons b bs =>
      by_cases hab : a = b
      · subst hab
        rw [smallerAtFirstDifference_cons_same, ← ih (by simpa using h), lexLess, if_pos rfl]
      · rw [smallerAtFirstDifference_cons_diff hab, lexLess, if_neg hab, decide_eq_true_iff]

/-- Of two different texts of one length exactly one is the smaller. -/
theorem lexLess_swap {as bs : List Byte} (h : as.length = bs.length) (hne : as ≠ bs) :
    lexLess bs as = !lexLess as bs := by
  induction as generalizing bs with
  | nil =>
    cases bs with
    | nil => exact absurd rfl hne
    | cons b bs => simp at h
  | cons a as ih =>
    cases bs with
    | nil => simp at h
    | cons b bs =>
      by_cases hab : a = b
      · subst hab
        simp only [lexLess, if_true]
        exact ih (by simpa using h) (by simpa using hne)
      · have hnat : a.toNat ≠ b.toNat := fun e => hab (BitVec.eq_of_toNat_eq e)
        simp only [lexLess, if_neg hab, if_neg (Ne.symm hab)]
        by_cases hlt : a.toNat < b.toNat
        · simp [hlt, Nat.le_of_lt hlt]
        · simp [hlt]; omega

theorem Word.chars_inj {v w : Word} : v.chars = w.chars ↔ v = w := by
  cases v; cases w; simp [Word.chars]

theorem lexLess_chars_iff (v w : Word) : lexLess v.chars w.chars = true ↔
    ∃ p < 5, (∀ q < p, v.chars[q]? = w.chars[q]?) ∧ (v.chars.getD p 0).toNat < (w.chars.getD p 0).toNat :=
  lexLess_iff (as := v.chars) (bs := w.chars) rfl

/-- What the three values of C say (42_alu.md R156). -/
theorem compareWords_iff (v w : Word) :
    (compareWords v w = .equal ↔ v = w) ∧ (compareWords v w = .less ↔ lexLess v.chars w.chars = true) ∧
    (compareWords v w = .more ↔ lexLess w.chars v.chars = true) := by
  by_cases h : v = w
  · subst h
    have irrefl : lexLess v.chars v.chars = false := by simp [Word.chars, lexLess]
    simp [compareWords, irrefl]
  · have hswap := lexLess_swap (as := v.chars) (bs := w.chars) rfl (mt Word.chars_inj.mp h)
    rw [hswap]
    cases hl : lexLess v.chars w.chars <;> simp [compareWords, h, hl]

/-- Settles O17: `compareWords` is decided at the first position where the words differ. -/
theorem cpComparesTexts : Obligations.CpComparesTexts := by
  rintro s ctx b x y z he ha m rfl
  obtain ⟨t, ht, hregs⟩ := exec_direct_setBank (i := .cp x y z) he rfl (compareTmp_inside ha b)
  obtain ⟨heq, hless, hmore⟩ := compareWords_iff b.tmp (s.readM (s.absCtx ctx (argument x y z)))
  refine ⟨t, _, ht, hregs, heq, hless.trans (lexLess_chars_iff _ _), hmore.trans ((lexLess_chars_iff _ _).trans ?_)⟩
  simp only [@eq_comm _ (b.tmp.chars[_]?)]

/-- Among digit strings of one length the smaller text is the smaller number, whatever digits stand before them. -/
theorem foldl_lt_of_lexLess {as bs : List Byte} (h : as.length = bs.length) (ha : ∀ a ∈ as, isDigit a = true)
    (hb : ∀ b ∈ bs, isDigit b = true) {u v : Nat} (huv : u < v ∨ u = v ∧ lexLess as bs = true) :
    as.foldl (fun v b => 10 * v + digitVal b) u < bs.foldl (fun v b => 10 * v + digitVal b) v := by
  induction as generalizing bs u v with
  | nil =>
    cases bs with
    | nil => simpa [lexLess] using huv
    | cons b bs => simp at h
  | cons a as ih =>
    cases bs with
    | nil => simp at h
    | cons b bs =>
      simp only [List.forall_mem_cons] at ha hb
      obtain ⟨hda, ha⟩ := ha
      obtain ⟨hdb, hb⟩ := hb
      simp only [List.foldl_cons]
      refine ih (by simpa using h) ha hb ?_
      have hva := digitVal_le hda
      rcases huv with hlt | ⟨rfl, hlex⟩
      · exact .inl (by omega)
      · by_cases hab : a = b
        · subst hab
          rw [lexLess, if_pos rfl] at hlex
          exact .inr ⟨rfl, hlex⟩
        · rw [lexLess, if_neg hab, decide_eq_true_iff] at hlex
          simp only [isDigit, Bool.and_eq_true, decide_eq_true_eq] at hda
          exact .inl (by simp only [digitVal]; omega)

theorem num_lt_of_lexLess {v w : Word} (hv : isnum v = true) (hw : isnum w = true)
    (h : lexLess v.chars w.chars = true) : num v < num w := by
  have hdv : ∀ a ∈ v.chars, isDigit a = true := by simpa [isnum] using hv
  have hdw : ∀ b ∈ w.chars, isDigit b = true := by simpa [isnum] using hw
  unfold num numChars
  exact foldl_lt_of_lexLess (as := v.chars) (bs := w.chars) rfl hdv hdw (.inr ⟨rfl, h⟩)

/-- Settles O18: each value of C gives one order of the numbers. -/
theorem cpOrdersNumbers : Obligations.CpOrdersNumbers := by
  intro v w hv hw
  obtain ⟨heq, hless, hmore⟩ := compareWords_iff v w
  cases hc : compareWords v w with
  | equal => rw [heq.mp hc]; simp
  | less =>
    have := num_lt_of_lexLess hv hw (hless.mp hc)
    rw [if_neg (by omega), if_pos this]
  | more =>
    have := num_lt_of_lexLess hw hv (hmore.mp hc)
    rw [if_neg (by omega), if_neg (by omega)]

/-! ## Jumps -/

theorem jump_inside {s : State} {ctx : Ctx} {a : Nat} (ha : a ≤ s.sizeCtx ctx) (b : Bank) :
    jump ctx b a s = .done (s.setBank ctx ⟨b.tmp, a, b.c⟩) := by
  rcases jump_cases ctx b a s with ⟨hout, -⟩ | ⟨-, e⟩
  · omega
  · exact e

theorem jump_outside {s : State} {ctx : Ctx} {a : Nat} (ha : s.sizeCtx ctx < a) (b : Bank) :
    jump ctx b a s = .raised .invAddress s := by
  rcases jump_cases ctx b a s with ⟨-, e⟩ | ⟨hin, -⟩
  · exact e
  · omega

theorem jumpIf_taken {b : Bank} {want : Cmp} (h : b.c = want) (ctx : Ctx) (a : Nat) (s : State) :
    jumpIf want ctx b a s = jump ctx b a s := by
  rcases jumpIf_cases want ctx b a s with ⟨-, e⟩ | ⟨hne, -⟩
  · exact e
  · exact absurd h hne

theorem jumpIf_not_taken {b : Bank} {want : Cmp} (h : b.c ≠ want) (ctx : Ctx) (a : Nat) (s : State) :
    jumpIf want ctx b a s = .done (s.setBank ctx ⟨b.tmp, b.ic + 1, b.c⟩) := by
  rcases jumpIf_cases want ctx b a s with ⟨heq, -⟩ | ⟨-, e⟩
  · exact absurd heq h
  · exact e

/-- Settles O19: the two sides of the jump's bound. -/
theorem jpWritesIc : Obligations.JpWritesIc := by
  intro s ctx b x y z he
  exact ⟨fun hin => exec_direct_setBank he rfl (jump_inside hin b),
    fun hout => exec_direct_raised he rfl (jump_outside hout b)⟩

/-- Settles O20: the three opcodes are one rule with three values of C. -/
theorem conditionalJumpsReadC : Obligations.ConditionalJumpsReadC := by
  intro s ctx b x y z he p hp
  have hi : directRule p.1 = some (x, y, z, jumpIf p.2) := by
    simp only [List.mem_cons, List.not_mem_nil, or_false] at hp
    rcases hp with rfl | rfl | rfl <;> rfl
  refine ⟨fun hc hin => exec_direct_setBank he hi ?_, fun hc hout => exec_direct_raised he hi ?_,
    fun hc => exec_direct_setBank he hi (jumpIf_not_taken hc ctx _ s)⟩
  · rw [jumpIf_taken hc, jump_inside hin]
  · rw [jumpIf_taken hc, jump_outside hout]

/-! ## HALT -/

/-- Settles O21: HALT's arm in SUPERVISOR mode. -/
theorem haltInTheRmStopsTheCore : Obligations.HaltInTheRmStopsTheCore := by
  intro s hm
  simp only [exec, execHalt, hm]

theorem exec_halt_vm {s : State} {n : Nat} (hm : s.mode = .user) (hc : s.cur = some n) :
    exec .halt s = .next { s.setSlot n none with si := some .halt, cur := none } := by
  simp only [exec, execHalt, hm, hc]

/-- Settles O22: emptying a slot changes that slot alone. -/
theorem haltInAVmFreesTheSlot : Obligations.HaltInAVmFreesTheSlot := by
  intro s n b hm hc hb
  exact ⟨_, exec_halt_vm hm hc, rfl, State.slot_setSlot_same s _ (State.slot_eq_some_lt hb),
    fun k hk => State.slot_setSlot_other s _ hk⟩

/-! ## Operands outside the memory of the context, and the opcodes a VM does not run itself -/

theorem putTimer_outside {s : State} {a : Nat} (ha : s.cfg.rmMemSize ≤ a) : putTimer a s = .raised .invAddress s :=
  if_pos ha

/-- Settles O16: the bound is the first check of every rule. -/
theorem operandOutsideMemoryFaults : Obligations.OperandOutsideMemoryFaults := by
  constructor
  · intro s ctx b x y z he hout i hi
    simp only [List.mem_cons, List.not_mem_nil, or_false] at hi
    rcases hi with rfl | rfl | rfl | rfl | rfl | rfl | rfl | rfl
    · exact exec_direct_raised he rfl (loadTmp_outside hout b)
    · exact exec_direct_raised he rfl (storeTmp_outside hout b)
    · exact exec_direct_raised he rfl (arith_outside hout .add b)
    · exact exec_direct_raised he rfl (arith_outside hout .sub b)
    · exact exec_direct_raised he rfl (arith_outside hout .mul b)
    · exact exec_direct_raised he rfl (arith_outside hout .rem b)
    · exact exec_direct_raised he rfl (arith_outside hout .div b)
    · exact exec_direct_raised he rfl (compareTmp_outside hout b)
  · intro s x y z hm hout i hi
    simp only [List.mem_cons, List.not_mem_nil, or_false] at hi
    rcases hi with rfl | rfl
    · exact (State.supervisorOnlyA_rm hm x _).trans (by rw [getTimer_outside hout]; rfl)
    · exact (State.supervisorOnlyA_rm hm x _).trans (by rw [putTimer_outside hout]; rfl)

/-- Settles O40: the check of the two formats comes before any rule. -/
theorem supervisorOpcodesAreFatalInAVm : Obligations.SupervisorOpcodesAreFatalInAVm := by
  intro s y z n hm i hi
  have fatalA (r : Result) : s.supervisorOnlyA 0 r = .next (s.fatal .unhandledCommand) := by
    simp [State.supervisorOnlyA, hm]
  have fatalB (r : Result) : s.supervisorOnlyB r = .next (s.fatal .unhandledCommand) := by
    simp [State.supervisorOnlyB, hm]
  simp only [List.mem_cons, List.not_mem_nil, or_false] at hi
  rcases hi with rfl | rfl | rfl | rfl | rfl
  · exact fatalB _
  · exact fatalB _
  · exact fatalB _
  · exact fatalA _
  · exact fatalA _

/-- Settles O41: the three frames of Format A, direct, trapping and supervisor-only, check the hundreds digit first. -/
theorem hundredsDigitFaultsInAVm : Obligations.HundredsDigitFaultsInAVm := by
  intro s n x y z b hm hc hb hx i hi
  have direct (rule : DirectRule) : s.direct x y z rule = .next (s.vmFault .invAddress) :=
    State.direct_hundreds hm hc hb hx y z rule
  have trap (op : Trap) (r : Result) : s.trapOr op x r = .next (s.vmFault .invAddress) := by
    simp [State.trapOr, hm, hx]
  have supA (r : Result) : s.supervisorOnlyA x r = .next (s.vmFault .invAddress) := by
    simp [State.supervisorOnlyA, hm, hx]
  simp only [List.mem_cons, List.not_mem_nil, or_false] at hi
  rcases hi with rfl | rfl | rfl | rfl | rfl | rfl | rfl | rfl | rfl | rfl | rfl | rfl | hi
  iterate 12 exact direct _
  rcases hi with rfl | rfl | rfl | rfl | rfl | hi
  iterate 5 exact trap _ _
  rcases hi with rfl | rfl
  iterate 2 exact supA _

/-- Settles O42: the five opcodes share the trapping frame. -/
theorem channelOpcodesTrapInAVm : Obligations.ChannelOpcodesTrapInAVm := by
  intro s y z hm p hp
  have trap (op : Trap) (r : Result) : s.trapOr op 0 r = .next { s with si := some op } := by
    simp [State.trapOr, hm]
  simp only [List.mem_cons, List.not_mem_nil, or_false] at hp
  rcases hp with rfl | rfl | rfl | rfl | rfl
  iterate 5 exact trap _ _

end Sys2Proof.Machine
end

section
/-! The channel opcodes of 44_channel_io.md as the RM runs them. -/

namespace Sys2Proof.Machine

open Sys2Proof

/-! ## How the end of a channel rule ends the instruction -/

theorem channelInRm_done {s t : State} {rule : ChannelRule} {a : Nat} (h : rule a s = .done t) :
    s.channelInRm rule a = .next t.advanceRm := by
  rw [State.channelInRm, h]; rfl

theorem channelInRm_raised {s t : State} {rule : ChannelRule} {a : Nat} {f : ProgramFault}
    (h : rule a s = .raised f t) : s.channelInRm rule a = .next (t.supervisorFault f) := by
  rw [State.channelInRm, h]; rfl

theorem channelInRm_fatal {s t : State} {rule : ChannelRule} {a : Nat} {r : FatalReason}
    (h : rule a s = .fatal r t) : s.channelInRm rule a = .next (t.fatal r) := by
  rw [State.channelInRm, h]; rfl

theorem channelInRm_stuck {s : State} {rule : ChannelRule} {a : Nat} {f : Fault}
    (h : rule a s = .stuck f) : s.channelInRm rule a = .fault f := by
  rw [State.channelInRm, h]; rfl

/-! ## GD and PD -/

theorem gdRule_busy {s : State} (h : bitOf s.busy .keyboard = true) (a : Nat) :
    gdRule a s = .stuck (.stalled .keyboard) := by
  rcases gdRule_cases a s with ⟨-, e⟩ | ⟨hb, -⟩ | ⟨hb, -⟩
  · exact e
  all_goals simp [h] at hb

theorem pdRule_busy {s : State} (h : bitOf s.busy .screen = true) (a : Nat) :
    pdRule a s = .stuck (.stalled .screen) := by
  rcases pdRule_cases a s with ⟨-, e⟩ | ⟨hb, -⟩ | ⟨hb, -⟩
  · exact e
  all_goals simp [h] at hb

/-- Settles O24: by the ends of GD's rule, the completing one with and without a pending word. -/
theorem gdTakesTheKeyboardWord : Obligations.GdTakesTheKeyboardWord := by
  intro s x y z hm hbusy
  have hexec : exec (.gd x y z) s = s.channelInRm gdRule (argument x y z) := exec_channel_rm rfl hm
  rw [hexec]
  rcases gdRule_cases (argument x y z) s with ⟨hb, -⟩ | ⟨-, hout, e⟩ | ⟨-, hin, e⟩
  · simp [hbusy] at hb
  · exact ⟨fun hin => absurd hout (Nat.not_le.mpr hin), fun _ => channelInRm_raised e⟩
  · refine ⟨fun _ => ⟨_, channelInRm_done e, rfl, fun w hw => ?_, fun hk => ?_⟩,
      fun hout => absurd hout (Nat.not_le.mpr hin)⟩
    · have hmem : (s.takeKeyboard (argument x y z)).mem = (s.writeM (argument x y z) w).mem := by
        simp [State.takeKeyboard, hw]
      exact ⟨by simp [State.readM, hmem, readWord_writeWord Memory.byte_put],
        fun k hk => (congrArg (Memory.byte · k) hmem).trans (s.sameOutside_writeM _ w k hk)⟩
    · simp [State.takeKeyboard, hk]

/-- Settles O25: `pdRule_cases`, with the step's own end of each case. -/
theorem pdPublishesAWord : Obligations.PdPublishesAWord := by
  intro s x y z hm
  have hexec : exec (.pd x y z) s = s.channelInRm pdRule (argument x y z) := exec_channel_rm rfl hm
  rw [hexec]
  rcases pdRule_cases (argument x y z) s with ⟨hb, e⟩ | ⟨hb, hout, e⟩ | ⟨hb, hin, e⟩
  · exact ⟨fun _ => channelInRm_stuck e, by simp [hb], by simp [hb]⟩
  · exact ⟨by simp [hb], fun _ _ => ⟨e, channelInRm_raised e⟩, fun _ hin => absurd hout (Nat.not_le.mpr hin)⟩
  · exact ⟨by simp [hb], fun _ hout => absurd hout (Nat.not_le.mpr hin), fun _ _ => channelInRm_done e⟩

/-! ## RD and WD -/

theorem rdRule_busy {s : State} (h : bitOf s.busy .external = true) (a : Nat) :
    rdRule a s = .stuck (.stalled .external) := by
  rcases rdRule_cases a s with ⟨-, e⟩ | ⟨hb, -⟩ | ⟨hb, -⟩ | ⟨hb, -⟩
  · exact e
  all_goals simp [h] at hb

theorem wdRule_busy {s : State} (h : bitOf s.busy .external = true) (a : Nat) :
    wdRule a s = .stuck (.stalled .external) := by
  rcases wdRule_cases a s with ⟨-, e⟩ | ⟨hb, -⟩ | ⟨hb, -⟩ | ⟨hb, -⟩
  · exact e
  all_goals simp [h] at hb

/-- Settles O26: the completing end of RD's rule. -/
theorem rdCopiesALineToMemory : Obligations.RdCopiesALineToMemory := by
  intro s x y z hm hbusy hp hin
  have hexec : exec (.rd x y z) s = s.channelInRm rdRule (argument x y z) := exec_channel_rm rfl hm
  rcases rdRule_cases (argument x y z) s with ⟨hb, -⟩ | ⟨-, h, -⟩ | ⟨-, -, h, -⟩ | ⟨-, -, -, m, e, hline, hframe, -⟩
  · simp [hbusy] at hb
  · omega
  · omega
  · exact ⟨_, hexec.trans (channelInRm_done e), rfl, hline, hframe⟩

/-- Settles O27: the end of RD's rule that runs out of M. -/
theorem rdPastTheTopKeepsEarlierWords : Obligations.RdPastTheTopKeepsEarlierWords := by
  intro s x y z hm hbusy hp hout
  have hexec : exec (.rd x y z) s = s.channelInRm rdRule (argument x y z) := exec_channel_rm rfl hm
  rcases rdRule_cases (argument x y z) s with ⟨hb, -⟩ | ⟨-, h, -⟩ | ⟨-, -, -, m, e, hline, hframe, -⟩ | ⟨-, -, h, -⟩
  · simp [hbusy] at hb
  · omega
  · exact ⟨_, hexec.trans (channelInRm_raised e), rfl, hline, hframe⟩
  · omega

/-- Settles O28: the completing end of WD's rule writes one line of EXT. -/
theorem wdReplacesALine : Obligations.WdReplacesALine := by
  intro s x y z hm hbusy hp hin
  have hexec : exec (.wd x y z) s = s.channelInRm wdRule (argument x y z) := exec_channel_rm rfl hm
  rcases wdRule_cases (argument x y z) s with ⟨hb, -⟩ | ⟨-, h, -⟩ | ⟨-, -, h, -⟩ | ⟨-, -, -, e⟩
  · simp [hbusy] at hb
  · omega
  · omega
  · refine ⟨_, hexec.trans (channelInRm_done e), rfl, fun q i hi => ?_⟩
    have hline := s.readExt_writeExtLine s.extPtr q i ((List.range 10).map fun i => s.readM (argument x y z + i))
      (by simp) hi
    rw [List.getD_eq_getElem _ _ (by simpa using hi), List.getElem_map, List.getElem_range] at hline
    exact hline

/-- Settles O29: the pointer is checked before the block. -/
theorem rdAndWdBounds : Obligations.RdAndWdBounds := by
  intro s x y z hm hbusy
  have hrd : exec (.rd x y z) s = s.channelInRm rdRule (argument x y z) := exec_channel_rm rfl hm
  have hwd : exec (.wd x y z) s = s.channelInRm wdRule (argument x y z) := exec_channel_rm rfl hm
  rw [hrd, hwd]
  refine ⟨fun hp => ⟨?_, ?_⟩, fun hp hout => ?_⟩
  · rcases rdRule_cases (argument x y z) s with ⟨hb, -⟩ | ⟨-, -, e⟩ | ⟨-, h, -⟩ | ⟨-, h, -⟩
    · simp [hbusy] at hb
    · exact channelInRm_fatal e
    all_goals omega
  · rcases wdRule_cases (argument x y z) s with ⟨hb, -⟩ | ⟨-, -, e⟩ | ⟨-, h, -⟩ | ⟨-, h, -⟩
    · simp [hbusy] at hb
    · exact channelInRm_fatal e
    all_goals omega
  · rcases wdRule_cases (argument x y z) s with ⟨hb, -⟩ | ⟨-, h, -⟩ | ⟨-, -, -, e⟩ | ⟨-, -, h, -⟩
    · simp [hbusy] at hb
    · omega
    · exact channelInRm_raised e
    · omega

/-- Settles O31: each rule looks at its busy bit first. -/
theorem busyChannelsStall : Obligations.BusyChannelsStall := by
  intro s x y z hm
  exact ⟨fun hb => (exec_channel_rm rfl hm).trans (channelInRm_stuck (gdRule_busy hb _)),
    fun hb => (exec_channel_rm rfl hm).trans (channelInRm_stuck (pdRule_busy hb _)),
    fun hb => ⟨(exec_channel_rm rfl hm).trans (channelInRm_stuck (rdRule_busy hb _)),
      (exec_channel_rm rfl hm).trans (channelInRm_stuck (wdRule_busy hb _))⟩⟩

/-! ## SD -/

/-- Settles O30: the two sides of SD's bound. -/
theorem sdWritesThePointer : Obligations.SdWritesThePointer := by
  intro s x y z hm
  have hexec : exec (.sd x y z) s = s.channelInRm sdRule (argument x y z) := exec_channel_rm rfl hm
  rw [hexec]
  rcases sdRule_cases (argument x y z) s with ⟨hout, e⟩ | ⟨hin, e⟩
  · exact ⟨fun hin => absurd hout (Nat.not_lt.mpr hin), fun _ => channelInRm_raised e⟩
  · exact ⟨fun _ => channelInRm_done e, fun hout => absurd hout (Nat.not_lt.mpr hin)⟩

end Sys2Proof.Machine
end

section
/-! The timer load PT and the slot instructions of 45_system.md as the RM runs them. -/

namespace Sys2Proof.Machine

open Sys2Proof

/-- In the RM a supervisor opcode of Format B runs its rule: it is a VM's step that refuses it (40_cycle.md R127). -/
theorem State.supervisorOnlyB_rm {s : State} (hm : s.mode = .supervisor) (r : Result) : s.supervisorOnlyB r = r := by
  simp [State.supervisorOnlyB, hm]

/-! ## PT -/

theorem putTimer_numeric {s : State} {a : Nat} (ha : a < s.cfg.rmMemSize) (hn : isnum (s.readM a) = true) :
    putTimer a s = .done { s with ti := num (s.readM a) }.advanceRm := by
  rw [putTimer, if_neg (Nat.not_le.mpr ha), if_pos hn]

theorem putTimer_text {s : State} {a : Nat} (ha : a < s.cfg.rmMemSize) (hn : isnum (s.readM a) = false) :
    putTimer a s = .fatal .nonNumeric s := by
  rw [putTimer, if_neg (Nat.not_le.mpr ha), if_neg (by simp [hn])]

/-- Settles O33: the word at the operand is a number or it is not. -/
theorem ptLoadsTheTimer : Obligations.PtLoadsTheTimer := by
  intro s x y z hm
  have hexec : exec (.pt x y z) s = (putTimer (argument x y z) s).inRm := State.supervisorOnlyA_rm hm x _
  rw [hexec]
  exact ⟨fun ha hn => by rw [putTimer_numeric ha hn]; rfl, fun ha hn => by rw [putTimer_text ha hn]; rfl⟩

/-! ## STVM, SVRG and LDRG: the ends of their rules -/

theorem exec_stvm_rm {s : State} (hm : s.mode = .supervisor) (n : Nat) : exec (.stvm n) s = (startVm n s).inRm :=
  State.supervisorOnlyB_rm hm _

theorem exec_svrg_rm {s : State} (hm : s.mode = .supervisor) (n : Nat) : exec (.svrg n) s = (saveVm n s).inRm :=
  State.supervisorOnlyB_rm hm _

theorem exec_ldrg_rm {s : State} (hm : s.mode = .supervisor) (n : Nat) : exec (.ldrg n) s = (loadVm n s).inRm :=
  State.supervisorOnlyB_rm hm _

/-- The check of SVRG and LDRG lets an allocated slot pass (45_system.md R226, R227). -/
theorem State.withAllocated_some {s : State} {n : Nat} {b : Bank} (hn : n < s.cfg.nSlots) (hb : s.slot n = some b)
    (k : Effect) : s.withAllocated n k = k := if_neg (by simp [hb, hn])

theorem restoreRegs_some {s : State} {n : Nat} {b : Bank}
    (h : bankOfSave (s.readM (s.saveAddr n)) (s.readM (s.saveAddr n + 1)) = some b) :
    s.restoreRegs n = .done (s.setSlot n (some b)) := by
  rw [State.restoreRegs, h]

theorem restoreRegs_none {s : State} {n : Nat}
    (h : bankOfSave (s.readM (s.saveAddr n)) (s.readM (s.saveAddr n + 1)) = none) :
    s.restoreRegs n = .fatal .badSaveArea s := by
  rw [State.restoreRegs, h]

theorem startVm_fresh {s : State} {n : Nat} (hn : n < s.cfg.nSlots) (hs : s.slot n = none) :
    startVm n s = .done ((s.allocate n).enter n) := by
  rw [startVm, if_neg (Nat.not_le.mpr hn), hs]; rfl

/-- STVM of an allocated slot is the restore, then `Enter` (45_system.md R224). -/
theorem startVm_allocated {s : State} {n : Nat} {b : Bank} (hn : n < s.cfg.nSlots) (hs : s.slot n = some b) :
    startVm n s = (s.restoreRegs n).andThen fun s1 => .done (s1.enter n) := by
  rw [startVm, if_neg (Nat.not_le.mpr hn), hs]

theorem saveVm_allocated {s : State} {n : Nat} {b : Bank} (hn : n < s.cfg.nSlots) (hs : s.slot n = some b) :
    saveVm n s = (s.saveRegs n).andThen fun s1 => .done s1.advanceRm :=
  State.withAllocated_some hn hs _

theorem loadVm_allocated {s : State} {n : Nat} {b : Bank} (hn : n < s.cfg.nSlots) (hs : s.slot n = some b) :
    loadVm n s = (s.restoreRegs n).andThen fun s1 => .done s1.advanceRm :=
  State.withAllocated_some hn hs _

/-- The bank of a save area whose second word has two digits of IC and the digit of a value of C (45_system.md R229). -/
theorem bankOfSave_of_digit {w0 w : Word} {c : Cmp} (h0 : isDigit w.c0 = true) (h1 : isDigit w.c1 = true)
    (hc : (w.c2, c) ∈ [(charCode '0', Cmp.equal), (charCode '1', .less), (charCode '2', .more)]) :
    bankOfSave w0 w = some ⟨w0, 10 * digitVal w.c0 + digitVal w.c1, c⟩ := by
  refine bankOfSave_eq h0 h1 ?_
  simp only [List.mem_cons, Prod.mk.injEq, List.not_mem_nil, or_false] at hc
  rcases hc with ⟨e, rfl⟩ | ⟨e, rfl⟩ | ⟨e, rfl⟩ <;> exact e

/-! ## STVM -/

/-- `Enter(n)` gives the registers it lists their values and clears the cause in service alone (45_system.md R225). -/
theorem State.enter_causeCleared (s : State) (n : Nat) : s.CauseCleared (s.enter n) := by
  rw [State.enter_eq]
  exact s.clearServiced_causes

/-- Settles O34: what `allocate` writes, then what `enter` writes. -/
theorem stvmStartsAFreshVm : Obligations.StvmStartsAFreshVm := by
  intro s n hk hm hn hs
  obtain ⟨⟨-, hslots⟩, -⟩ := hk
  have hten : n < 10 := by omega
  obtain ⟨m, halloc, htable, hframe, -⟩ := s.allocate_cases n
  have hexec : exec (.stvm n) s =
      .next ((State.setSlot { s with mem := m } n (some (Bank.fresh 0))).enter n) := by
    rw [exec_stvm_rm hm, startVm_fresh hn hs, halloc]; rfl
  refine ⟨_, hexec, by rw [State.enter_eq]; rfl, ?_, ?_, fun k hkn => ?_, ?_, ?_⟩
  · exact State.enter_causeCleared (State.setSlot { s with mem := m } n (some (Bank.fresh 0))) n
  all_goals rw [State.enter_eq]
  · exact State.slot_setSlot_same _ _ hten
  · exact State.slot_setSlot_other _ _ hkn
  · exact htable
  · exact hframe

/-- Settles O46: the word of the table for `r` is the base of its block, which has a five-digit text. -/
theorem freshTableTranslatesToTheWindow : Obligations.FreshTableTranslatesToTheWindow := by
  intro s n hk hm hn hs hsize
  obtain ⟨t, ht, hframe, -, -, -, htable, -⟩ := stvmStartsAFreshVm s n hk hm hn hs
  refine ⟨t, ht, fun r hr => ?_⟩
  have hcfg : t.cfg = s.cfg := by rw [hframe]
  have hptr : t.ptr = s.cfg.ptBase + 10 * n := by rw [hframe]
  have htab := Config.Ok.table hk hn
  have hwin := Config.Ok.window hk hn
  simp only [Config.ptb, Config.win] at htab hwin
  have hbase : s.cfg.vmBase + 100 * n + 10 * (r / 10) ≤ 99999 := by omega
  have hword : t.readM (t.ptr + r / 10) = pad5 (s.cfg.vmBase + 100 * n + 10 * (r / 10)) := by
    rw [hptr]; exact htable (r / 10) (by omega)
  have hnum : num (t.readM (t.ptr + r / 10)) = s.cfg.vmBase + 100 * n + 10 * (r / 10) := by
    rw [hword, num_pad5 hbase]
  rcases t.translate_cases r with ⟨hout, -⟩ | ⟨-, hbad, -⟩ | ⟨-, -, -, e⟩
  · rw [hcfg, hnum, hptr] at hout
    omega
  · rw [hword, isnum_pad5 hbase] at hbad
    cases hbad
  · rw [e, hnum, show s.cfg.vmBase + 100 * n + 10 * (r / 10) + r % 10 = s.cfg.vmBase + 100 * n + r by omega]

/-- Settles O35: the restore of a well-formed area, then `enter`. -/
theorem stvmResumesASavedVm : Obligations.StvmResumesASavedVm := by
  rintro s n b w c hk hm hn hb rfl h0 h1 hc
  have hten := State.slot_eq_some_lt hb
  have hrest := restoreRegs_some (bankOfSave_of_digit (w0 := s.readM (s.saveAddr n)) h0 h1 hc)
  have hexec := exec_stvm_rm hm n
  rw [startVm_allocated hn hb, hrest] at hexec
  refine ⟨_, hexec, by rw [State.enter_eq]; rfl, State.enter_causeCleared _ n, ?_, fun k hkn => ?_⟩
  all_goals rw [State.enter_eq]
  · exact State.slot_setSlot_same s _ hten
  · exact State.slot_setSlot_other s _ hkn

/-! ## SVRG and LDRG -/

theorem saveWord_eq (b : Bank) : saveWord b =
    ⟨digitChar (b.ic / 10), digitChar (b.ic % 10), digitChar (match b.c with | .equal => 0 | .less => 1 | .more => 2),
     charCode '0', charCode '0'⟩ := by
  cases b with
  | mk tmp ic c => cases c <;> rfl

/-- A save leaves the bank in its area and every other character as it was (45_system.md R228). -/
theorem saveRegs_savedAs {s : State} {n : Nat} {b : Bank} (hb : s.slot n = some b) (hi : b.ic ≤ 99) :
    ∃ t, s.saveRegs n = .done t ∧ t = { s with mem := t.mem } ∧ s.SavedAs t n b := by
  obtain ⟨t, ht, hframe, h0, h1, hother, -⟩ := State.saveRegs_ok hb hi
  exact ⟨t, ht, hframe, h0, h1.trans (saveWord_eq b), hother⟩

/-- Settles O36: SVRG is the register save and the advance of RM.IC. -/
theorem svrgSavesTheBank : Obligations.SvrgSavesTheBank := by
  intro s n b hm hn hb hi
  obtain ⟨t, ht, hframe, hsaved⟩ := saveRegs_savedAs hb hi
  have hexec := exec_svrg_rm hm n
  rw [saveVm_allocated hn hb, ht] at hexec
  exact ⟨_, hexec, by rw [hframe]; rfl, hsaved⟩

/-- Settles O37: LDRG is the restore of a well-formed area and the advance of RM.IC. -/
theorem ldrgLoadsTheBank : Obligations.LdrgLoadsTheBank := by
  rintro s n b w c hm hn hb rfl h0 h1 hc
  have hrest := restoreRegs_some (bankOfSave_of_digit (w0 := s.readM (s.saveAddr n)) h0 h1 hc)
  have hexec := exec_ldrg_rm hm n
  rw [loadVm_allocated hn hb, hrest] at hexec
  exact ⟨_, hexec, rfl, State.slot_setSlot_same s _ (State.slot_eq_some_lt hb),
    fun k hk => State.slot_setSlot_other s _ hk⟩

/-- Settles O38: the restore reads back the two words of the save (`bankOfSave_saveWord`). -/
theorem ldrgAfterSvrgKeepsTheBank : Obligations.LdrgAfterSvrgKeepsTheBank := by
  intro s n b hm hn hb hi
  obtain ⟨t, ht, hframe, h0, h1, -⟩ := State.saveRegs_ok hb hi
  have hexec := exec_svrg_rm hm n
  rw [saveVm_allocated hn hb, ht] at hexec
  have hmt : t.advanceRm.mode = .supervisor := by rw [hframe]; exact hm
  have hnt : n < t.advanceRm.cfg.nSlots := by rw [hframe]; exact hn
  have hslot (k : Nat) : t.advanceRm.slot k = s.slot k := by rw [hframe]; rfl
  have haddr : t.advanceRm.saveAddr n = s.saveAddr n := by rw [hframe]; rfl
  have hbank : bankOfSave (t.advanceRm.readM (t.advanceRm.saveAddr n))
      (t.advanceRm.readM (t.advanceRm.saveAddr n + 1)) = some b := by
    rw [haddr, State.advanceRm_readM, State.advanceRm_readM, h0, h1, bankOfSave_saveWord hi]
  have hload := exec_ldrg_rm hmt n
  rw [loadVm_allocated hnt ((hslot n).trans hb), restoreRegs_some hbank] at hload
  exact ⟨_, _, hexec, hload, State.slot_setSlot_same _ _ (State.slot_eq_some_lt hb), rfl,
    fun k hk => (State.slot_setSlot_other _ _ hk).trans (hslot k)⟩

/-- Settles O39: the argument check, the range of the saved IC, and the restore of a malformed area. -/
theorem slotInstructionErrors : Obligations.SlotInstructionErrors := by
  intro s n hm
  rw [exec_stvm_rm hm, exec_svrg_rm hm, exec_ldrg_rm hm]
  refine ⟨fun hn => ?_, fun h => ⟨?_, ?_⟩, fun b hn hb hi => ?_, ?_⟩
  · rw [startVm, if_pos hn]; rfl
  · rw [saveVm, State.withAllocated, if_pos h]; rfl
  · rw [loadVm, State.withAllocated, if_pos h]; rfl
  · have hsave : s.saveRegs n = .fatal .saveIcRange s := by rw [State.saveRegs, hb]; exact if_pos hi
    rw [saveVm_allocated hn hb, hsave]; rfl
  · rintro b w hn hb rfl hbad
    have hrest := restoreRegs_none (bankOfSave_eq_none (w0 := s.readM (s.saveAddr n)) hbad)
    rw [startVm_allocated hn hb, loadVm_allocated hn hb, hrest]
    exact ⟨rfl, rfl⟩

end Sys2Proof.Machine
end

section
/-! The step of 40_cycle.md, the dispatcher and the handler entry of 60_exceptions.md. -/

namespace Sys2Proof.Machine

open Sys2Proof

/-! ## The step from what it fetches -/

theorem supervisorStep_command {s : State} {i : Instr} (h : s.fetch .rm s.rm.ic = .command i) :
    s.supervisorStep = exec i s := by
  rw [State.supervisorStep, h]

theorem supervisorStep_fault {s : State} {f : ProgramFault} (h : s.fetch .rm s.rm.ic = .fault f) :
    s.supervisorStep = .next (s.supervisorFault f) := by
  rw [State.supervisorStep, h]

/-- The current VM is the one that steps (40_cycle.md R125). -/
theorem State.withVm_current {s : State} {n : Nat} {b : Bank} (hc : s.cur = some n) (hb : s.slot n = some b)
    (k : Nat → Bank → Result) : s.withVm k = k n b := by
  simp only [State.withVm, hc, hb]

theorem userStep_fault {s : State} {n : Nat} {b : Bank} {f : ProgramFault} (hc : s.cur = some n)
    (hb : s.slot n = some b) (h : s.fetch (.vm n) b.ic = .fault f) : s.userStep = (s.vmFault f).endUserStep := by
  rw [State.userStep, State.withVm_current hc hb, h]

theorem userStep_next {s t : State} {n : Nat} {b : Bank} {i : Instr} (hc : s.cur = some n) (hb : s.slot n = some b)
    (h : s.fetch (.vm n) b.ic = .command i) (he : exec i s = .next t) : s.userStep = t.endUserStep := by
  simp only [State.userStep, State.withVm_current hc hb, h, he]

theorem endUserStep_stopped {s : State} (h : s.run ≠ .running) : s.endUserStep = .next s := by
  unfold State.endUserStep
  split
  · contradiction
  · rfl

/-- Settles O5: the fetch succeeds, and an RM step is nothing but the instruction. -/
theorem stepRunsTheInstructionInTheRm : Obligations.StepRunsTheInstructionInTheRm := by
  intro s i hk hr hm hic hd
  rw [step_rm hk hr hm, supervisorStep_command (State.fetch_command.mpr ⟨hic, hd⟩)]

/-- Settles O6: the three answers of `exec`, the first with its two ends. -/
theorem stepRunsTheInstructionInAVm : Obligations.StepRunsTheInstructionInAVm := by
  intro s n b i hk hr hm hc hb hic hd
  have hf : s.fetch (.vm n) b.ic = .command i := State.fetch_command.mpr ⟨hic, hd⟩
  rw [step_vm hk hr hm]
  cases he : exec i s with
  | next t =>
    rw [userStep_next hc hb hf he]
    by_cases ht : t.run = .running
    · rw [State.endUserStep_running ht]
      exact (if_pos ht).symm
    · rw [endUserStep_stopped ht]
      exact (if_neg ht).symm
  | fault f => simp only [State.userStep, State.withVm_current hc hb, hf, he]
  | refused r => simp only [State.userStep, State.withVm_current hc hb, hf, he]

/-- Settles O7: the two faults of a fetch. -/
theorem badFetchInTheRmIsFatal : Obligations.BadFetchInTheRmIsFatal := by
  intro s hk hr hm
  rw [step_rm hk hr hm]
  exact ⟨fun hout => supervisorStep_fault (State.fetch_outside hout),
    fun e hin hd => supervisorStep_fault (State.fetch_error hin hd)⟩

theorem step_not_running {s : State} (hk : s.cfg.Ok) (hr : s.run ≠ .running) : step s = .fault .stopped := by
  rw [step, if_pos hk]
  split
  · contradiction
  · rfl

/-- Settles O9: the host's report follows the step's answer. -/
theorem noStepUnlessRunning : Obligations.NoStepUnlessRunning := by
  refine ⟨fun s hk hr => ⟨step_not_running hk hr, ?_⟩, fun s t h => ?_⟩
  · rw [State.hostStep, step_not_running hk hr]
  · unfold State.hostStep at h
    split at h
    case h_2 ch hstep =>
      cases h
      exact ⟨rfl, ch, hstep⟩
    all_goals cases h

/-! ## The dispatcher -/

theorem lowestIo_keyboard {m : BitVec 3} (h : bitOf m .keyboard = true) : lowestIo m = some .keyboard := if_pos h

theorem lowestIo_screen {m : BitVec 3} (hk : bitOf m .keyboard = false) (hs : bitOf m .screen = true) :
    lowestIo m = some .screen := by
  simp [lowestIo, hk, hs]

theorem lowestIo_external {m : BitVec 3} (hk : bitOf m .keyboard = false) (hs : bitOf m .screen = false)
    (he : bitOf m .external = true) : lowestIo m = some .external := by
  simp [lowestIo, hk, hs, he]

/-- A program fault is next after a trap (60_exceptions.md R257). -/
theorem dispatch_programFault {s : State} {f : ProgramFault} (hs : s.si = none) (hp : s.pi = some f) :
    s.dispatch = s.enterHandler (vec f) .pi := by
  simp only [State.dispatch, hs, hp]

theorem dispatch_timer {s : State} (hs : s.si = none) (hp : s.pi = none) (ht : s.ti = 0) :
    s.dispatch = s.enterHandler 3 .timer := by
  simp only [State.dispatch, hs, hp, ht, if_true]

theorem dispatch_io {s : State} {ch : Channel} (hs : s.si = none) (hp : s.pi = none) (ht : s.ti ≠ 0)
    (hl : lowestIo s.ioi = some ch) : s.dispatch = s.enterHandler (4 + ch.index) (.io ch) := by
  simp only [State.dispatch, hs, hp, if_neg ht, hl]

theorem dispatch_nothing {s : State} (hs : s.si = none) (hp : s.pi = none) (ht : s.ti ≠ 0) (hi : s.ioi = 0) :
    s.dispatch = .done s := by
  simp only [State.dispatch, hs, hp, if_neg ht, lowestIo_none.mpr hi]

theorem dispatch_halt {s : State} (hs : s.si = some .halt) : s.dispatch = .done s.serviceHalt := by
  simp only [State.dispatch, hs]

theorem dispatch_trap {s : State} {op : Trap} (hs : s.si = some op) (ho : op ≠ .halt) :
    s.dispatch = s.serviceTrap := by
  cases op with
  | halt => exact absurd rfl ho
  | _ => simp only [State.dispatch, hs]

/-- Settles O48: the dispatcher's choices in the order it makes them. -/
theorem dispatchFollowsThePriority : Obligations.DispatchFollowsThePriority := by
  intro s
  refine ⟨dispatch_halt, fun op => dispatch_trap, fun hs => ⟨?_, ?_, ?_, dispatch_timer hs, fun hp ht => ?_⟩⟩
  · exact dispatch_programFault hs
  · exact dispatch_programFault hs
  · exact dispatch_programFault hs
  · exact ⟨fun hk => dispatch_io hs hp ht (lowestIo_keyboard hk),
      fun hk h => dispatch_io hs hp ht (lowestIo_screen hk h),
      fun hk h he => dispatch_io hs hp ht (lowestIo_external hk h he), dispatch_nothing hs hp ht⟩

/-! ## Entering a handler -/

/-- Entering a handler is the register save, then the vector read after it (60_exceptions.md R261). -/
theorem enterHandler_saved {s : State} {n : Nat} {b : Bank} (hc : s.cur = some n) (hb : s.slot n = some b)
    (hi : b.ic ≤ 99) (v : Nat) (cause : Service) :
    ∃ t, s.HandlerEntered t n b cause ∧ t.rm = s.rm ∧
      (∀ a, s.NotSaveArea n a → t.readM a = s.readM a) ∧ s.enterHandler v cause = t.jumpToVector v := by
  obtain ⟨u, hu, hframe, hsaved⟩ := saveRegs_savedAs hb hi
  refine ⟨u.suspend n cause, ⟨by rw [hframe]; rfl, hsaved⟩, by rw [hframe]; rfl, fun a ha => ?_, ?_⟩
  · obtain ⟨h0, h1⟩ := ha
    exact (State.saveRegs_readM hu h0 h1 : u.readM a = s.readM a)
  · simp only [State.enterHandler, hc, hu, Effect.andThen]

/-- What entering a handler leaves does not say where RM.IC stands. -/
theorem State.HandlerEntered.jump {s t : State} {n : Nat} {b : Bank} {cause : Service}
    (h : s.HandlerEntered t n b cause) (hrm : t.rm = s.rm) (ic : Nat) :
    s.HandlerEntered { t with rm := { t.rm with ic := ic } } n b cause := by
  obtain ⟨hframe, hsaved⟩ := h
  exact ⟨by rw [hframe, hrm], hsaved⟩

/-- A vector that is an address of M is where the RM goes on (60_exceptions.md R261). -/
theorem enterHandler_done {s : State} {n : Nat} {b : Bank} (hc : s.cur = some n) (hb : s.slot n = some b)
    (hi : b.ic ≤ 99) {v : Nat} (hv : s.NotSaveArea n (s.cfg.ivtBase + v))
    (hn : isnum (s.readM (s.cfg.ivtBase + v)) = true) (hlt : num (s.readM (s.cfg.ivtBase + v)) < s.cfg.rmMemSize)
    (cause : Service) :
    ∃ t, s.enterHandler v cause = .done t ∧ s.HandlerEntered t n b cause ∧
      t.rm.ic = num (s.readM (s.cfg.ivtBase + v)) := by
  obtain ⟨t, hentered, hrm, hread, e⟩ := enterHandler_saved hc hb hi v cause
  have hcfg : t.cfg = s.cfg := by rw [hentered.1]
  rcases t.jumpToVector_cases v with ⟨-, -, ej⟩ | ⟨hbad, -⟩
  · exact ⟨_, e.trans ej, hentered.jump hrm _, by rw [hcfg, hread _ hv]⟩
  · rw [hcfg, hread _ hv, hn] at hbad
    simp only [Bool.true_eq_false, false_or] at hbad
    omega

/-- A vector that is no address of M stops the core with the VM already suspended (60_exceptions.md R261, D42). -/
theorem enterHandler_badVector {s : State} {n : Nat} {b : Bank} (hc : s.cur = some n) (hb : s.slot n = some b)
    (hi : b.ic ≤ 99) {v : Nat} (hv : s.NotSaveArea n (s.cfg.ivtBase + v))
    (hbad : isnum (s.readM (s.cfg.ivtBase + v)) = false ∨ s.cfg.rmMemSize ≤ num (s.readM (s.cfg.ivtBase + v)))
    (cause : Service) :
    ∃ t, s.enterHandler v cause = .fatal .badVector t ∧ s.HandlerEntered t n b cause ∧ t.rm = s.rm := by
  obtain ⟨t, hentered, hrm, hread, e⟩ := enterHandler_saved hc hb hi v cause
  have hcfg : t.cfg = s.cfg := by rw [hentered.1]
  rcases t.jumpToVector_cases v with ⟨hn, hlt, -⟩ | ⟨-, ej⟩
  · rw [hcfg, hread _ hv] at hn hlt
    rw [hn] at hbad
    simp only [Bool.true_eq_false, false_or] at hbad
    omega
  · exact ⟨t, e.trans ej, hentered, hrm⟩

/-- Settles O47: the vector is an address of M or it is not. -/
theorem handlerEntrySavesAndVectors : Obligations.HandlerEntrySavesAndVectors := by
  intro s n v b cause hc hb hi hv
  exact ⟨fun hn hlt => enterHandler_done hc hb hi hv hn hlt cause,
    fun hbad => enterHandler_badVector hc hb hi hv hbad cause⟩

/-- A bank with IC above 99 has no save, so no handler is entered (60_exceptions.md R261, D18). -/
theorem enterHandler_saveIcRange {s : State} {n : Nat} {b : Bank} (hc : s.cur = some n) (hb : s.slot n = some b)
    (hi : 99 < b.ic) (v : Nat) (cause : Service) : s.enterHandler v cause = .fatal .saveIcRange s := by
  rcases State.enterHandler_cases hc hb v cause with ⟨-, e⟩ | ⟨hle, -⟩
  · exact e
  · omega

/-! ## A bad fetch in a VM -/

/-- A VM's bad fetch enters the handler of its program fault, after the tick (40_cycle.md R125, 60_exceptions.md
R257). -/
theorem step_vm_badFetch {s : State} {n : Nat} {b : Bank} {f : ProgramFault} (hk : s.cfg.Ok) (hr : s.run = .running)
    (hm : s.mode = .user) (hc : s.cur = some n) (hb : s.slot n = some b) (hs : s.si = none)
    (hf : s.fetch (.vm n) b.ic = .fault f) :
    step s = (State.enterHandler { s with pi := some f, ti := s.ti - 1 } (vec f) .pi).inVm := by
  have hrun : (s.vmFault f).run = .running := hr
  have hsi : (s.vmFault f).tick.si = none := hs
  rw [step_vm hk hr hm, userStep_fault hc hb hf, State.endUserStep_running hrun, dispatch_programFault hsi rfl]
  rfl

/-- Settles O8: the fault's handler in the one case, the failing save in the other. -/
theorem badFetchInAVm : Obligations.BadFetchInAVm := by
  intro s n b hk hr hm hc hb hs
  refine ⟨fun e hic hd hv hn hlt => ?_, fun hic => ?_⟩
  · obtain ⟨t, ht, hentered, hrm⟩ :=
      enterHandler_done (s := { s with pi := some .invOp, ti := s.ti - 1 }) hc hb (by omega) hv hn hlt .pi
    refine ⟨t, ?_, hentered, hrm⟩
    rw [step_vm_badFetch hk hr hm hc hb hs (State.fetch_error hic hd), show vec .invOp = 1 from rfl, ht]; rfl
  · have hout : s.sizeCtx (.vm n) ≤ b.ic := Nat.le_of_eq hic.symm
    have hfatal :=
      enterHandler_saveIcRange (s := { s with pi := some .invAddress, ti := s.ti - 1 }) hc hb (by omega) 0 .pi
    rw [step_vm_badFetch hk hr hm hc hb hs (State.fetch_outside hout), show vec .invAddress = 0 from rfl, hfatal]
    rfl

/-! ## A VM's HALT -/

/-- Settles O23: HALT frees the slot, and the dispatch serves SI = HALT before any other cause. -/
theorem haltStepReturnsToTheRm : Obligations.HaltStepReturnsToTheRm := by
  intro s n b hk hr hm hc hb hic hd
  have hf : s.fetch (.vm n) b.ic = .command .halt := State.fetch_command.mpr ⟨hic, hd⟩
  have hrun : ({ s.setSlot n none with si := some .halt, cur := none } : State).run = .running := hr
  have hstep : step s =
      .next (State.serviceHalt { s.setSlot n none with si := some .halt, cur := none, ti := s.ti - 1 }) := by
    rw [step_vm hk hr hm, userStep_next hc hb hf (exec_halt_vm hm hc), State.endUserStep_running hrun,
      dispatch_halt rfl]
    rfl
  exact ⟨_, hstep, rfl, State.slot_setSlot_same s _ (State.slot_eq_some_lt hb),
    fun k hkn => State.slot_setSlot_other s _ hkn⟩

end Sys2Proof.Machine
end

section
/-! The trap service of 60_exceptions.md R258 and R259, and the translator of 20_memory.md R70. -/

namespace Sys2Proof.Machine

open Sys2Proof

/-! ## The step of a trapped opcode -/

/-- The step of a channel opcode that trapped is the trap service, after the tick (40_cycle.md R125). -/
theorem step_trap {s : State} {n : Nat} {b : Bank} {i : Instr} {op : Trap} (hk : s.cfg.Ok) (hr : s.run = .running)
    (hm : s.mode = .user) (hc : s.cur = some n) (hb : s.slot n = some b) (hic : b.ic < 100)
    (hd : decode s.cfg.haltPad (s.readM (s.cfg.vmBase + 100 * n + b.ic)) = .ok i)
    (he : exec i s = .next { s with si := some op }) (ho : op ≠ .halt) :
    step s = (State.serviceTrap { s with si := some op, ti := s.ti - 1 }).inVm := by
  have hf : s.fetch (.vm n) b.ic = .command i := State.fetch_command.mpr ⟨hic, hd⟩
  have hrun : ({ s with si := some op } : State).run = .running := hr
  rw [step_vm hk hr hm, userStep_next hc hb hf he, State.endUserStep_running hrun, dispatch_trap rfl ho]
  rfl

/-- Once the bank is saved, the step of a trapped opcode ends as the replay of its rule ends (60_exceptions.md R258). -/
theorem step_trap_saved {s s1 : State} {n : Nat} {b : Bank} {i : Instr} {op : Trap} {arg : Nat} {rule : ChannelRule}
    (hk : s.cfg.Ok) (hr : s.run = .running) (hm : s.mode = .user) (hc : s.cur = some n) (hb : s.slot n = some b)
    (hic : b.ic < 100) (hd : decode s.cfg.haltPad (s.readM (s.cfg.vmBase + 100 * n + b.ic)) = .ok i)
    (he : exec i s = .next { s with si := some op }) (ho : op ≠ .halt) (hi : channelOp i = some (arg, rule))
    (hs : State.saveRegs { s with si := some op, ti := s.ti - 1 } n = .done s1) :
    step s = ((s1.replay arg rule).endTrap n).inVm := by
  rw [step_trap hk hr hm hc hb hic hd he ho,
    State.serviceTrap_eq (s := { s with si := some op, ti := s.ti - 1 }) hc hb hd hi, hs]
  rfl

/-- The trapped opcodes with hundreds digit 0: the cause each sets, its argument and its rule. -/
inductive Traps (y z : Nat) : Instr → Trap → ChannelRule → Prop
  | gd : Traps y z (.gd 0 y z) .gd gdRule
  | pd : Traps y z (.pd 0 y z) .pd pdRule
  | rd : Traps y z (.rd 0 y z) .rd rdRule
  | wd : Traps y z (.wd 0 y z) .wd wdRule
  | sd : Traps y z (.sd 0 y z) .sd sdRule

theorem Traps.channelOp {y z : Nat} {i : Instr} {op : Trap} {rule : ChannelRule} (h : Traps y z i op rule) :
    channelOp i = some (10 * y + z, rule) := by
  have harg : argument 0 y z = 10 * y + z := by rw [argument_eq]; omega
  rw [← harg]
  cases h <;> rfl

theorem Traps.exec {y z : Nat} {i : Instr} {op : Trap} {rule : ChannelRule} (h : Traps y z i op rule) {s : State}
    (hm : s.mode = .user) : exec i s = .next { s with si := some op } := by
  refine channelOpcodesTrapInAVm s y z hm (i, op) ?_
  cases h <;> simp

theorem Traps.ne_halt {y z : Nat} {i : Instr} {op : Trap} {rule : ChannelRule} (h : Traps y z i op rule) :
    op ≠ .halt := by
  cases h <;> simp

/-! ## The translator -/

theorem translate_outside {s : State} {rel : Nat} (h : s.cfg.rmMemSize ≤ s.ptr + rel / 10 ∨
    isnum (s.readM (s.ptr + rel / 10)) = true ∧ s.cfg.rmMemSize ≤ num (s.readM (s.ptr + rel / 10)) + rel % 10) :
    s.translate rel = .outside := by
  rcases s.translate_cases rel with ⟨-, e⟩ | ⟨hin, hbad, -⟩ | ⟨hin, hnum, hlt, -⟩
  · exact e
  · rw [hbad] at h
    simp only [Bool.false_eq_true, false_and, or_false] at h
    omega
  · omega

theorem translate_badEntry {s : State} {rel : Nat} (hin : s.ptr + rel / 10 < s.cfg.rmMemSize)
    (hbad : isnum (s.readM (s.ptr + rel / 10)) = false) : s.translate rel = .badEntry := by
  rcases s.translate_cases rel with ⟨hout | ⟨hnum, -⟩, -⟩ | ⟨-, -, e⟩ | ⟨-, hnum, -⟩
  · omega
  · simp [hbad] at hnum
  · exact e
  · simp [hbad] at hnum

theorem translate_address {s : State} {rel : Nat} (hin : s.ptr + rel / 10 < s.cfg.rmMemSize)
    (hnum : isnum (s.readM (s.ptr + rel / 10)) = true)
    (hlt : num (s.readM (s.ptr + rel / 10)) + rel % 10 < s.cfg.rmMemSize) :
    s.translate rel = .address (num (s.readM (s.ptr + rel / 10)) + rel % 10) := by
  rcases s.translate_cases rel with ⟨hout | ⟨-, hout⟩, -⟩ | ⟨-, hbad, -⟩ | ⟨-, -, -, e⟩
  · omega
  · omega
  · simp [hbad] at hnum
  · exact e

/-! ## The ends of a trap service -/

/-- A fault of the replay enters handler 0, or is fatal at an unusable vector (60_exceptions.md R259, R261). -/
theorem trapFault_ends {s : State} {n : Nat} {b : Bank} (hc : s.cur = some n) (hb : s.slot n = some b) (hi : b.ic ≤ 99)
    (hv : s.NotSaveArea n s.cfg.ivtBase) :
    (isnum (s.readM s.cfg.ivtBase) = true → num (s.readM s.cfg.ivtBase) < s.cfg.rmMemSize →
      ∃ t, (s.trapFault .invAddress).inVm = .next t ∧
        State.HandlerEntered { s with si := none, pi := some .invAddress } t n b .pi ∧
        t.rm.ic = num (s.readM s.cfg.ivtBase)) ∧
    (isnum (s.readM s.cfg.ivtBase) = false ∨ s.cfg.rmMemSize ≤ num (s.readM s.cfg.ivtBase) →
      ∃ t, (s.trapFault .invAddress).inVm = .next { t with run := .fatal .badVector } ∧
        State.HandlerEntered { s with si := none, pi := some .invAddress } t n b .pi ∧ t.rm = s.rm) := by
  have h0 : vec .invAddress = 0 := rfl
  constructor
  · intro hn hlt
    obtain ⟨t, ht, hentered, hrm⟩ := enterHandler_done (s := { s with si := none, pi := some .invAddress }) (v := 0)
      hc hb hi hv hn hlt .pi
    exact ⟨t, by rw [State.trapFault, h0, ht]; rfl, hentered, hrm⟩
  · intro hbad
    obtain ⟨t, ht, hentered, hrm⟩ :=
      enterHandler_badVector (s := { s with si := none, pi := some .invAddress }) (v := 0) hc hb hi hv hbad .pi
    exact ⟨t, by rw [State.trapFault, h0, ht]; rfl, hentered, hrm⟩

/-- A second save of the same bank, over the first, leaves what one save leaves. -/
theorem State.SavedAs.trans {s t u : State} {n : Nat} {b : Bank} (h1 : s.SavedAs t n b) (h2 : t.SavedAs u n b)
    (hcfg : t.cfg = s.cfg) : s.SavedAs u n b := by
  obtain ⟨-, -, hother⟩ := h1
  unfold State.SavedAs at h2
  rw [hcfg] at h2
  obtain ⟨hw0, hw1, hother2⟩ := h2
  exact ⟨hw0, hw1, fun k hk => (hother2 k hk).trans (hother k hk)⟩

/-- What the words below the top of M are after a replay that raised a fault: a RD's line, else as before
(44_channel_io.md R194, D28). -/
theorem Traps.raised {y z a : Nat} {i : Instr} {op : Trap} {rule : ChannelRule} (h : Traps y z i op rule)
    {s t : State} {f : ProgramFault} (hr : rule a s = .raised f t) :
    f = .invAddress ∧ t = { s with mem := t.mem } ∧
    (op = .rd → ∀ i < 10, a + i < s.cfg.rmMemSize → t.readM (a + i) = s.readExt s.extPtr i) ∧
    ∀ k, op ≠ .rd ∨ k < 5 * a ∨ 5 * s.cfg.rmMemSize ≤ k → t.mem.byte k = s.mem.byte k := by
  obtain ⟨hf, hframe, hsame⟩ := channelOp_raised h.channelOp hr
  refine ⟨hf, hframe, ?_⟩
  by_cases hrd : op = .rd
  · cases h with
    | rd =>
      rcases rdRule_cases a s with ⟨-, e⟩ | ⟨-, -, e⟩ | ⟨-, -, -, m, e, hline, hother, -⟩ | ⟨-, -, -, m, e, -⟩ <;>
        rw [e] at hr <;> cases hr
      exact ⟨fun _ => hline, fun k hk => hother k (by simpa using hk)⟩
    | _ => cases hrd
  · rcases hsame with rfl | ⟨x, y', z', rfl⟩
    · exact ⟨fun h => absurd h hrd, fun _ _ => rfl⟩
    · cases h
      exact absurd rfl hrd

/-- Settles O43: once the save went through and the operand translated, the step ends as the rule does. -/
theorem trappedOpcodesAreReplayed : Obligations.TrappedOpcodesAreReplayed := by
  rintro ⟨make, op, rule⟩ hp s s1 n y z a b hk hr hm hc hb hic hd hs ht
  dsimp only at hd hs ⊢
  have htraps : Traps y z (make 0 y z) op rule := by
    simp only [List.mem_cons, List.not_mem_nil, or_false, Prod.mk.injEq] at hp
    rcases hp with ⟨rfl, rfl, rfl⟩ | ⟨rfl, rfl, rfl⟩ | ⟨rfl, rfl, rfl⟩ | ⟨rfl, rfl, rfl⟩ | ⟨rfl, rfl, rfl⟩ <;>
      constructor
  have hstep : step s = ((rule a s1).endTrap n).inVm := by
    rw [step_trap_saved hk hr hm hc hb hic hd (htraps.exec hm) htraps.ne_halt htraps.channelOp hs, State.replay, ht]
  obtain ⟨s1', hs', hframe, hsaved⟩ := saveRegs_savedAs (s := { s with si := some op, ti := s.ti - 1 }) hb (by omega)
  obtain rfl : s1 = s1' := by rw [hs] at hs'; cases hs'; rfl
  have hslot (k : Nat) : s1.slot k = s.slot k := by rw [hframe]; rfl
  obtain ⟨hfatal, -⟩ := channelOp_stops htraps.channelOp (k := a) s1
  refine ⟨⟨hframe, hsaved⟩, fun s2 h => ?_, fun f h => ?_, fun r s2 h => ?_, fun f s2 h => ?_⟩
  · obtain ⟨h2, -⟩ := channelOp_done htraps.channelOp (.inl h)
    have hslot2 (k : Nat) : s2.slot k = s.slot k := by rw [h2]; exact hslot k
    refine ⟨s2.trapDone n, by rw [hstep, h]; rfl, rfl, ?_, fun k hkn => ?_⟩
    · show (s2.setSlot n ((s2.slot n).map Bank.advance)).slot n = _
      rw [State.slot_setSlot_same _ _ (State.slot_eq_some_lt hb), hslot2, hb]; rfl
    · exact (State.slot_setSlot_other _ _ hkn).trans (hslot2 k)
  · rw [hstep, h]; rfl
  · obtain ⟨rfl, rfl⟩ := hfatal r s2 h
    exact ⟨rfl, by rw [hstep, h]; rfl⟩
  · obtain ⟨rfl, h2, hline, hother⟩ := htraps.raised h
    have hcfg1 : s1.cfg = s.cfg := by rw [hframe]
    have hext1 (p i : Nat) : s1.readExt p i = s.readExt p i := by rw [hframe]; rfl
    have hptr1 : s1.extPtr = s.extPtr := by rw [hframe]
    simp only [hcfg1, hptr1, hext1] at hline hother
    have hcfg2 : s2.cfg = s.cfg := by rw [h2]; exact hcfg1
    have hcur2 : s2.cur = some n := by rw [h2, hframe]; exact hc
    have hslot2 : s2.slot n = some b := by rw [h2]; exact (hslot n).trans hb
    have hrm2 : s2.rm = s.rm := by rw [h2, hframe]
    refine ⟨rfl, h2, hline, hother, fun hv => ?_⟩
    have hend : step s = (s2.trapFault .invAddress).inVm := by rw [hstep, h]; rfl
    have hv2 : s2.NotSaveArea n s2.cfg.ivtBase := by
      unfold State.NotSaveArea
      rw [hcfg2]; exact hv
    rw [hend, ← hcfg2, ← hrm2]
    exact trapFault_ends hcur2 hslot2 (by omega) hv2

/-- Settles O44: O43 for PD, with the save and the translation carried out. -/
theorem trappedPdPublishesTheTranslatedWord : Obligations.TrappedPdPublishesTheTranslatedWord := by
  rintro s n y z b e hk hr hm hc hb hic hy hz hd hbusy hin rfl hnum hlt hne hna
  obtain ⟨s1, hs, hframe, hsaved⟩ := saveRegs_savedAs (s := { s with si := some .pd, ti := s.ti - 1 }) hb (by omega)
  have hread {a : Nat} (ha : s.NotSaveArea n a) : s1.readM a = s.readM a :=
    State.saveRegs_readM (s := { s with si := some .pd, ti := s.ti - 1 }) hs ha.1 ha.2
  have hcfg : s1.cfg = s.cfg := by rw [hframe]
  have hptr : s1.ptr = s.ptr := by rw [hframe]
  have hdiv : (10 * y + z) / 10 = y := by omega
  have hmod : (10 * y + z) % 10 = z := by omega
  have hentry : s1.readM (s1.ptr + (10 * y + z) / 10) = s.readM (s.ptr + y) := by rw [hptr, hdiv, hread hne]
  have htrans : s1.translate (10 * y + z) = .address (num (s.readM (s.ptr + y)) + z) := by
    rw [translate_address (by rw [hptr, hdiv, hcfg]; exact hin) (by rw [hentry]; exact hnum)
      (by rw [hentry, hmod, hcfg]; exact hlt), hentry, hmod]
  obtain ⟨-, hdone, -⟩ := trappedOpcodesAreReplayed (Instr.pd, .pd, pdRule) (by simp) s s1 n y z _ b hk hr hm hc hb hic
    hd hs htrans
  rcases pdRule_cases (num (s.readM (s.ptr + y)) + z) s1 with ⟨hb1, -⟩ | ⟨-, hout, -⟩ | ⟨-, -, e⟩
  · rw [hframe] at hb1
    simp [hbusy] at hb1
  · rw [hcfg] at hout
    omega
  · obtain ⟨t, ht, hft, hbank, hother⟩ := hdone _ e
    have hmem : t.mem = s1.mem := by rw [hft]
    refine ⟨t, ht, ?_, hbank, hother, ?_⟩
    · rw [hft, hread hna, hframe]; rfl
    · unfold State.SavedAs State.SameOutside State.readM at hsaved ⊢
      rw [hmem]; exact hsaved

/-- Settles O45: the save, then a replay that ends at the translator. -/
theorem translationFaultEntersTheHandler : Obligations.TranslationFaultEntersTheHandler := by
  intro s n y z b i op hk hr hm hc hb hic hy hz hi hd
  obtain ⟨rule, htraps⟩ : ∃ rule, Traps y z i op rule := by
    simp only [List.mem_cons, List.not_mem_nil, or_false, Prod.mk.injEq] at hi
    rcases hi with ⟨rfl, rfl⟩ | ⟨rfl, rfl⟩ | ⟨rfl, rfl⟩ | ⟨rfl, rfl⟩ | ⟨rfl, rfl⟩ <;> exact ⟨_, by constructor⟩
  obtain ⟨s1, hs, hframe, hsaved⟩ := saveRegs_savedAs (s := { s with si := some op, ti := s.ti - 1 }) hb (by omega)
  have hread {a : Nat} (ha : s.NotSaveArea n a) : s1.readM a = s.readM a :=
    State.saveRegs_readM (s := { s with si := some op, ti := s.ti - 1 }) hs ha.1 ha.2
  have hcfg : s1.cfg = s.cfg := by rw [hframe]
  have hptr : s1.ptr = s.ptr := by rw [hframe]
  have hdiv : (10 * y + z) / 10 = y := by omega
  have hmod : (10 * y + z) % 10 = z := by omega
  have hstep := step_trap_saved hk hr hm hc hb hic hd (htraps.exec hm) htraps.ne_halt htraps.channelOp hs
  refine ⟨fun hout hv hvn hvlt => ?_, fun hin hne hbad => ?_⟩
  · have htrans : s1.translate (10 * y + z) = .outside := by
      refine translate_outside ?_
      rw [hptr, hdiv, hmod, hcfg]
      rcases hout with hout | ⟨hne, hout⟩
      · exact .inl hout
      · rw [hread hne]; exact .inr hout
    have hcur1 : s1.cur = some n := by rw [hframe]; exact hc
    have hslot1 : s1.slot n = some b := by rw [hframe]; exact hb
    have hv1 : s1.NotSaveArea n s1.cfg.ivtBase := by
      unfold State.NotSaveArea
      rw [hcfg]; exact hv
    obtain ⟨hgood, -⟩ := trapFault_ends hcur1 hslot1 (by omega) hv1
    have hvec : s1.readM s1.cfg.ivtBase = s.readM s.cfg.ivtBase := by rw [hcfg, hread hv]
    rw [hvec] at hgood
    obtain ⟨t, ht, ⟨hft, hsaved2⟩, hrm⟩ := hgood hvn (by rw [hcfg]; exact hvlt)
    refine ⟨t, ?_, ⟨?_, ?_⟩, hrm⟩
    · rw [hstep, State.replay, htrans]; exact ht
    · rw [hft, hframe]
    · exact State.SavedAs.trans (t := { s1 with si := none, pi := some .invAddress }) hsaved hsaved2 hcfg
  · have htrans : s1.translate (10 * y + z) = .badEntry :=
      translate_badEntry (by rw [hptr, hdiv, hcfg]; exact hin) (by rw [hptr, hdiv, hread hne]; exact hbad)
    refine ⟨s1.fatal .badPageTable, by rw [hstep, State.replay, htrans]; rfl, ?_, hsaved⟩
    rw [hframe]; rfl

end Sys2Proof.Machine
end

section
/-! Reset and the host: 10_state.md R46 and R47, 70_reset_and_hazards.md R300 to R302 and R313. -/

namespace Sys2Proof.Machine

open Sys2Proof

/-! ## Reset -/

theorem resetOf_slot (cfg : Config) (ext : Memory) (n : Nat) : (State.resetOf cfg ext).slot n = none := by
  simp [State.slot, State.resetOf]

/-- Settles O58: the fields of `State.resetOf`. -/
theorem resetValues : Obligations.ResetValues := by
  intro cfg ext
  exact ⟨rfl, rfl, resetOf_slot cfg ext, rfl, rfl, rfl, rfl, rfl, rfl, rfl, rfl, rfl, rfl, rfl, rfl, rfl, rfl, rfl, rfl⟩

theorem zeros_ascii : (word "00000").Ascii := by decide

/-- With an allowed configuration and an EXT in canonical form, reset leaves the invariant. -/
theorem resetOf_inv {cfg : Config} {ext : Memory} (hk : cfg.Ok) (he : ext.wfExt) : (State.resetOf cfg ext).Inv := by
  obtain ⟨⟨hslots, -⟩, -, htable, -, -, hic, hti⟩ := id hk
  have hempty := resetOf_slot cfg ext
  have hbusy (ch : Channel) : bitOf (State.resetOf cfg ext).busy ch = false := by simp [State.resetOf, bitOf]
  exact {
    cfg := hk
    memory := ⟨⟨List.Pairwise.nil, nofun⟩, he⟩
    words := ⟨zeros_ascii, fun n b h => absurd h (by simp [hempty]), nofun, nofun⟩
    ranges := ⟨Nat.le_of_lt hic, fun n b h => absurd h (by simp [hempty]), by show cfg.ptBase < cfg.rmMemSize; omega,
      hti, Nat.zero_le _, nofun, nofun⟩
    mode := ⟨⟨nofun, fun h => absurd rfl h⟩, nofun, fun n _ => hempty n⟩
    causes := ⟨nofun, fun _ => ⟨rfl, ⟨fun h => absurd rfl h, nofun⟩, nofun⟩, nofun⟩
    busy := ⟨hbusy _, by simp [hbusy], by simp [hbusy]⟩ }

theorem reference_ok : Config.reference.Ok := by decide

/-- Settles O56: the reference configuration is allowed, and its EXT is empty. -/
theorem resetHasTheInvariant : Obligations.ResetHasTheInvariant :=
  resetOf_inv reference_ok ⟨⟨List.Pairwise.nil, nofun⟩, nofun⟩

/-! ## The host's reset -/

/-- The words of an image stand at its own addresses, and the rest of M as before (70_reset_and_hazards.md R301). -/
theorem readM_writeWords_image (s : State) {ws : List Word} {image : List (List Byte)}
    (hw : ws.map Word.chars = image) :
    (∀ a text, image[a]? = some text → ((s.writeWords 0 ws).readM a).chars = text) ∧
    ∀ a, image.length ≤ a → (s.writeWords 0 ws).readM a = s.readM a := by
  subst hw
  simp only [State.readM_writeWords, Nat.zero_le, if_true, Nat.sub_zero]
  refine ⟨fun a text h => ?_, fun a h => ?_⟩
  · rw [List.getElem?_map] at h
    obtain ⟨w, hwa, hchars⟩ := Option.map_eq_some_iff.mp h
    rw [hwa]; exact hchars
  · rw [List.getElem?_eq_none (by simpa using h)]; rfl

/-- The external memory that the host asks for at reset exists, and reads as it says (70_reset_and_hazards.md R302). -/
theorem extAfterReset_exists (s : State) {ext : Option (List (List (List Byte)))}
    (h : ∀ lines, ext = some lines → IsExtText lines) :
    ∃ e, s.ExtAfterReset ext e ∧ (ext = none → e = s.ext) ∧
      ∀ lines p ws i text, ext = some lines → lines[p]? = some ws → ws[i]? = some text →
        (readWord e.extByte (10 * p + i)).chars = text := by
  cases ext with
  | none => exact ⟨s.ext, .inl ⟨rfl, rfl⟩, fun _ => rfl, nofun⟩
  | some lines =>
    obtain ⟨e, he, hread⟩ := extOfLines_some (h lines rfl)
    refine ⟨e, .inr ⟨lines, rfl, he⟩, nofun, fun lines' p ws i text hl => ?_⟩
    cases hl
    exact hread p ws i text

/-- Settles O59: a reset whose texts are all Words goes through, and each broken part is refused. -/
theorem hostResetLoadsTheImage : Obligations.HostResetLoadsTheImage := by
  intro s cfg image ext
  refine ⟨fun hk htexts hlen hext => ?_, fun hk => State.hostReset_badConfiguration hk image ext, fun hk hbad => ?_⟩
  · obtain ⟨ws, hws, hchars⟩ := wordsOfTexts_some htexts
    obtain ⟨e, he, hkept, hlines⟩ := extAfterReset_exists s hext
    have hwl : ws.length = image.length := by rw [← hchars, List.length_map]
    obtain ⟨himage, hrest⟩ := readM_writeWords_image (State.resetOf cfg e) hchars
    have hframe := (State.resetOf cfg e).writeWords_eq 0 ws
    have hext' : ((State.resetOf cfg e).writeWords 0 ws).ext = e := by rw [hframe]; rfl
    refine ⟨_, State.hostReset_next hk hws (by omega) he, ?_, himage, hrest, fun h => hext'.trans (hkept h), ?_⟩
    · rw [hext']; exact hframe
    · unfold State.readExt
      rw [hext']; exact hlines
  · refine State.hostReset_badImage hk ?_
    by_cases htexts : ∀ text ∈ image, IsWordText text
    · obtain ⟨ws, hws, hchars⟩ := wordsOfTexts_some htexts
      have hwl : ws.length = image.length := by rw [← hchars, List.length_map]
      rcases hbad with hlong | ⟨text, ht, hn⟩ | ⟨lines, hl, hn⟩
      · exact .inr (.inr ⟨ws, hws, by omega⟩)
      · exact absurd (htexts text ht) hn
      · exact .inr (.inl ⟨lines, hl, extOfLines_none hn⟩)
    · obtain ⟨text, ht, hn⟩ := not_forall₂.mp htexts
      exact .inl (wordsOfTexts_none ⟨text, ht, hn⟩)

/-! ## The view and the keyboard -/

theorem piCode_mem (p : Option ProgramFault) :
    (piCode p, p) ∈ [(0, none), (1, some .invAddress), (2, some .invOp), (3, some .overflow)] := by
  rcases p with _ | _ | _ | _ <;> simp [piCode]

theorem siCode_mem (o : Option Trap) :
    (siCode o, o) ∈ [(0, none), (1, some .gd), (2, some .pd), (3, some .rd), (4, some .wd), (5, some .sd),
      (6, some .halt)] := by
  rcases o with _ | _ | _ | _ | _ | _ | _ <;> simp [siCode]

/-- Ten words as the host persists them: each is five characters with one character after it (70_reset_and_hazards.md
R302). -/
theorem lineText_layout {ws : List Word} (hl : ws.length = 10) :
    let text := [charCode ' '].intercalate (ws.map Word.chars) ++ [charCode '\n']
    text.length = 60 ∧ ∀ i (hi : i < 10),
      (text.drop (6 * i)).take 5 = (ws[i]'(hl ▸ hi)).chars ∧
      text[6 * i + 5]? = some (charCode (if i = 9 then '\n' else ' ')) := by
  obtain ⟨a, b, c, d, e, f, g, h, i, j, rfl⟩ : ∃ a b c d e f g h i j, ws = [a, b, c, d, e, f, g, h, i, j] := by
    match ws, hl with
    | [a, b, c, d, e, f, g, h, i, j], _ => exact ⟨a, b, c, d, e, f, g, h, i, j, rfl⟩
  refine ⟨rfl, fun i hi => ?_⟩
  interval_cases i <;> exact ⟨rfl, rfl⟩

/-- Settles O60: the view's fields, the layout of a line's text, and the two kinds of keyboard text. -/
theorem hostReadsAndSetsTheKeyboard : Obligations.HostReadsAndSetsTheKeyboard := by
  intro s
  refine ⟨⟨rfl, rfl, rfl, rfl, rfl, rfl, rfl, piCode_mem s.pi, siCode_mem s.si, rfl, rfl, fun h => ?_, fun n h => ?_⟩,
    fun p => ?_, fun text ht => ?_, fun text ht => ?_⟩
  · rw [State.view_current, h]; rfl
  · rw [State.view_current, h]; rfl
  · obtain ⟨hlen, hword⟩ := lineText_layout (ws := s.extLine p) (by simp [State.extLine])
    refine ⟨hlen, fun i hi => ?_⟩
    obtain ⟨htake, hsep⟩ := hword i hi
    exact ⟨htake.trans (by simp [State.extLine]), hsep⟩
  · obtain ⟨w, hw, hchars⟩ := wordOfText_some ht
    exact ⟨w, hchars, by rw [State.setKeyboard, hw]⟩
  · rw [State.setKeyboard, wordOfText_none ht]

end Sys2Proof.Machine
end

section
/-! What a step can do, one inversion for each of its stages: the RM's instruction, the VM's instruction, the handler
entry, the trap service and the dispatcher. -/

namespace Sys2Proof.Machine

open Sys2Proof

/-! ## The registers a direct opcode writes -/

/-- Where the registers `c` that a direct opcode writes come from: TMP, a word of M or a result; IC + 1 or a jump target
(42_alu.md R150, 43_control.md R170). -/
structure RegistersFrom (s : State) (ctx : Ctx) (b c : Bank) : Prop where
  tmp : c.tmp = b.tmp ∨ (∃ a, c.tmp = s.readM a) ∨ ∃ r, c.tmp = pad5 r
  ic : c.ic = b.ic + 1 ∨ c.ic ≤ s.sizeCtx ctx

/-- A direct opcode that runs to its end writes registers of that kind, and otherwise M alone. -/
theorem directRule_registers {i : Instr} {x y z : Nat} {rule : DirectRule} (h : directRule i = some (x, y, z, rule))
    {ctx : Ctx} {b : Bank} {a : Nat} {s t : State} (hd : rule ctx b a s = .done t) :
    ∃ m c, t = State.setBank { s with mem := m } ctx c ∧ RegistersFrom s ctx b c := by
  have setBank {c : Bank} (ht : Effect.done (s.setBank ctx c) = .done t) (hc : RegistersFrom s ctx b c) :
      ∃ m c, t = State.setBank { s with mem := m } ctx c ∧ RegistersFrom s ctx b c := by
    cases ht
    exact ⟨s.mem, c, rfl, hc⟩
  have arithmetic (op : ArithOp) (hd : arith op ctx b a s = .done t) :
      ∃ m c, t = State.setBank { s with mem := m } ctx c ∧ RegistersFrom s ctx b c := by
    rcases arith_cases op ctx b a s with
      ⟨-, e⟩ | ⟨-, -, -, e⟩ | ⟨-, -, -, e⟩ | ⟨-, -, -, -, -, e⟩ | ⟨-, -, -, -, r, -, -, e⟩ <;> rw [e] at hd
    case inr.inr.inr.inr => exact setBank hd ⟨.inr (.inr ⟨r, rfl⟩), .inl rfl⟩
    all_goals cases hd
  have jumps (hd : jump ctx b a s = .done t) :
      ∃ m c, t = State.setBank { s with mem := m } ctx c ∧ RegistersFrom s ctx b c := by
    rcases jump_cases ctx b a s with ⟨-, e⟩ | ⟨hle, e⟩ <;> rw [e] at hd
    · cases hd
    · exact setBank hd ⟨.inl rfl, .inr hle⟩
  have jumpsIf (want : Cmp) (hd : jumpIf want ctx b a s = .done t) :
      ∃ m c, t = State.setBank { s with mem := m } ctx c ∧ RegistersFrom s ctx b c := by
    rcases jumpIf_cases want ctx b a s with ⟨-, e⟩ | ⟨-, e⟩ <;> rw [e] at hd
    · exact jumps hd
    · exact setBank hd ⟨.inl rfl, .inl rfl⟩
  cases i <;> simp only [directRule, Option.some.injEq, Prod.mk.injEq, reduceCtorEq] at h
  all_goals obtain ⟨rfl, rfl, rfl, rfl⟩ := h
  case cr =>
    rcases loadTmp_cases ctx b a s with ⟨-, e⟩ | ⟨-, e⟩ <;> rw [e] at hd
    · cases hd
    · exact setBank hd ⟨.inr (.inl ⟨_, rfl⟩), .inl rfl⟩
  case cm =>
    rcases storeTmp_cases ctx b a s with ⟨-, e⟩ | ⟨-, e⟩ <;> rw [e] at hd
    · cases hd
    · cases hd
      exact ⟨_, b.advance, rfl, .inl rfl, .inl rfl⟩
  case cp =>
    rcases compareTmp_cases ctx b a s with ⟨-, e⟩ | ⟨-, e⟩ <;> rw [e] at hd
    · cases hd
    · exact setBank hd ⟨.inl rfl, .inl rfl⟩
  case jp => exact jumps hd
  case je => exact jumpsIf _ hd
  case jl => exact jumpsIf _ hd
  case jm => exact jumpsIf _ hd
  all_goals exact arithmetic _ hd

/-! ## The RM's instruction -/

/-- What STVM makes of slot `n` before it enters the VM: a fresh slot, or the bank its save area holds (45_system.md
R222). -/
def State.Prepared (s : State) (n : Nat) (u : State) : Prop :=
  u = s.allocate n ∨
    ∃ b, bankOfSave (s.readM (s.saveAddr n)) (s.readM (s.saveAddr n + 1)) = some b ∧ u = s.setSlot n (some b)

/-- All that an instruction does when the RM executes it, if it does not stall (40_cycle.md R123). -/
inductive RmOutcome (i : Instr) (s : State) : State → Prop
  | fault (f : ProgramFault) : RmOutcome i s (s.supervisorFault f)
  | fatal (r : FatalReason) (h : ∀ f, r ≠ .supervisorFault f) : RmOutcome i s (s.fatal r)
  | halt : RmOutcome i s { s with run := .halted }
  | bank (c : Bank) (h : c.c = s.rm.c ∨ ∃ x y z, i = .cp x y z) (hc : RegistersFrom s .rm s.rm c) :
    RmOutcome i s { s with rm := c }
  | store (a : Nat) (w : Word) (h : a < s.cfg.rmMemSize) (hw : w = s.rm.tmp ∨ w = pad5 s.ti) :
    RmOutcome i s (s.writeM a w).advanceRm
  | timer (w : Word) (hn : isnum w = true) (hi : ∃ x y z, i = .pt x y z) :
    RmOutcome i s { s with ti := num w }.advanceRm
  | channel (a k : Nat) (rule : ChannelRule) (u : State) (hi : channelOp i = some (a, rule)) (h : rule k s = .done u) :
    RmOutcome i s u.advanceRm
  | channelFault (a k : Nat) (rule : ChannelRule) (f : ProgramFault) (u : State) (hi : channelOp i = some (a, rule))
    (h : rule k s = .raised f u) : RmOutcome i s (u.supervisorFault f)
  | start (n : Nat) (u : State) (hi : i = .stvm n) (hn : n < s.cfg.nSlots) (h : s.Prepared n u) :
    RmOutcome i s (u.enter n)
  | save (n : Nat) (u : State) (hn : n < s.cfg.nSlots) (h : s.saveRegs n = .done u) : RmOutcome i s u.advanceRm
  | load (n : Nat) (b : Bank) (hn : n < s.cfg.nSlots)
    (h : bankOfSave (s.readM (s.saveAddr n)) (s.readM (s.saveAddr n + 1)) = some b) :
    RmOutcome i s (s.setSlot n (some b)).advanceRm

theorem exec_direct_rm {i : Instr} {x y z : Nat} {rule : DirectRule} (h : directRule i = some (x, y, z, rule))
    {s : State} (hm : s.mode = .supervisor) : ∃ t, exec i s = .next t ∧ RmOutcome i s t := by
  rw [exec_direct h, State.direct_rm hm]
  have o := directRule_outcome h .rm s.rm (argument x y z) s
  have r := fun t => directRule_registers h (ctx := .rm) (b := s.rm) (a := argument x y z) (s := s) (t := t)
  generalize rule .rm s.rm (argument x y z) s = e at o r
  cases o with
  | raised f => exact ⟨_, rfl, .fault f⟩
  | fatal => exact ⟨_, rfl, .fatal _ (by simp)⟩
  | bank c h =>
    obtain ⟨m, c', e, hc⟩ := r _ rfl
    have hcc : c = c' := congrArg State.rm e
    exact ⟨_, rfl, .bank c h (hcc ▸ hc)⟩
  | store a h => exact ⟨_, rfl, .store a _ h (.inl rfl)⟩

/-- A channel opcode that the RM runs stalls on its busy bit or has a next state. -/
theorem exec_channel_outcome {i : Instr} {a : Nat} {rule : ChannelRule} (h : channelOp i = some (a, rule)) {s : State}
    (hm : s.mode = .supervisor) :
    (∃ ch, exec i s = .fault (.stalled ch) ∧ bitOf s.busy ch = true) ∨ ∃ t, exec i s = .next t ∧ RmOutcome i s t := by
  rw [exec_channel_rm h hm]
  obtain ⟨hfatal, hstuck⟩ := channelOp_stops h (k := a) s
  cases hr : rule a s with
  | done t => exact .inr ⟨_, channelInRm_done hr, .channel a a rule t h hr⟩
  | raised f t => exact .inr ⟨_, channelInRm_raised hr, .channelFault a a rule f t h hr⟩
  | fatal r t =>
    obtain ⟨rfl, rfl⟩ := hfatal r t hr
    exact .inr ⟨_, channelInRm_fatal hr, .fatal _ (by simp)⟩
  | stuck f =>
    obtain ⟨ch, rfl, hb⟩ := hstuck f hr
    exact .inl ⟨ch, channelInRm_stuck hr, hb⟩

theorem exec_stvm_outcome {s : State} (hm : s.mode = .supervisor) (n : Nat) :
    ∃ t, exec (.stvm n) s = .next t ∧ RmOutcome (.stvm n) s t := by
  rw [exec_stvm_rm hm]
  by_cases hn : n < s.cfg.nSlots
  · cases hs : s.slot n with
    | none =>
      rw [startVm_fresh hn hs]
      exact ⟨_, rfl, .start n _ rfl hn (.inl rfl)⟩
    | some b =>
      rw [startVm_allocated hn hs]
      rcases s.restoreRegs_cases n with ⟨-, e⟩ | ⟨c, hc, e⟩ <;> rw [e]
      · exact ⟨_, rfl, .fatal _ (by simp)⟩
      · exact ⟨_, rfl, .start n _ rfl hn (.inr ⟨c, hc, rfl⟩)⟩
  · exact ⟨_, by rw [startVm, if_pos (Nat.le_of_not_lt hn)]; rfl, .fatal _ (by simp)⟩

theorem withAllocated_fatal {s : State} {n : Nat} (h : ¬ (n < s.cfg.nSlots ∧ s.slot n ≠ none)) (k : Effect) :
    s.withAllocated n k = .fatal .argumentError s :=
  if_pos (by rwa [not_and_or, not_not, Nat.not_lt] at h)

theorem exec_svrg_outcome {s : State} (hm : s.mode = .supervisor) (n : Nat) :
    ∃ t, exec (.svrg n) s = .next t ∧ RmOutcome (.svrg n) s t := by
  rw [exec_svrg_rm hm]
  by_cases h : n < s.cfg.nSlots ∧ s.slot n ≠ none
  · obtain ⟨hn, hs⟩ := h
    obtain ⟨b, hb⟩ := Option.ne_none_iff_exists'.mp hs
    rw [saveVm_allocated hn hb]
    rcases s.saveRegs_cases n with ⟨hno, -⟩ | ⟨_, -, -, e⟩ | ⟨_, -, -, e⟩
    · exact absurd hno hs
    · rw [e]; exact ⟨_, rfl, .fatal _ (by simp)⟩
    · exact ⟨_, by rw [e]; rfl, .save n _ hn e⟩
  · exact ⟨_, by rw [saveVm, withAllocated_fatal h]; rfl, .fatal _ (by simp)⟩

theorem exec_ldrg_outcome {s : State} (hm : s.mode = .supervisor) (n : Nat) :
    ∃ t, exec (.ldrg n) s = .next t ∧ RmOutcome (.ldrg n) s t := by
  rw [exec_ldrg_rm hm]
  by_cases h : n < s.cfg.nSlots ∧ s.slot n ≠ none
  · obtain ⟨hn, hs⟩ := h
    obtain ⟨b, hb⟩ := Option.ne_none_iff_exists'.mp hs
    rw [loadVm_allocated hn hb]
    rcases s.restoreRegs_cases n with ⟨-, e⟩ | ⟨c, hc, e⟩ <;> rw [e]
    · exact ⟨_, rfl, .fatal _ (by simp)⟩
    · exact ⟨_, rfl, .load n c hn hc⟩
  · exact ⟨_, by rw [loadVm, withAllocated_fatal h]; rfl, .fatal _ (by simp)⟩

theorem exec_gt_outcome {s : State} (hm : s.mode = .supervisor) (x y z : Nat) :
    ∃ t, exec (.gt x y z) s = .next t ∧ RmOutcome (.gt x y z) s t := by
  by_cases ha : argument x y z < s.cfg.rmMemSize
  · exact ⟨_, exec_gt_inside hm ha, .store _ _ ha (.inr rfl)⟩
  · exact ⟨_, (State.supervisorOnlyA_rm hm x _).trans (by rw [getTimer_outside (Nat.le_of_not_lt ha)]; rfl), .fault _⟩

theorem exec_pt_outcome {s : State} (hm : s.mode = .supervisor) (x y z : Nat) :
    ∃ t, exec (.pt x y z) s = .next t ∧ RmOutcome (.pt x y z) s t := by
  by_cases ha : argument x y z < s.cfg.rmMemSize
  · cases hn : isnum (s.readM (argument x y z)) with
    | true =>
      exact ⟨_, (State.supervisorOnlyA_rm hm x _).trans (by rw [putTimer_numeric ha hn]; rfl),
        .timer _ hn ⟨x, y, z, rfl⟩⟩
    | false =>
      exact ⟨_, (State.supervisorOnlyA_rm hm x _).trans (by rw [putTimer_text ha hn]; rfl), .fatal _ (by simp)⟩
  · exact ⟨_, (State.supervisorOnlyA_rm hm x _).trans (by rw [putTimer_outside (Nat.le_of_not_lt ha)]; rfl), .fault _⟩

/-- In the RM an instruction stalls on a set busy bit or has a next state of the kinds listed (40_cycle.md R123,
R133). -/
theorem exec_rm {s : State} (hm : s.mode = .supervisor) (i : Instr) :
    (∃ ch, exec i s = .fault (.stalled ch) ∧ bitOf s.busy ch = true) ∨ ∃ t, exec i s = .next t ∧ RmOutcome i s t := by
  cases i with
  | halt => exact .inr ⟨_, haltInTheRmStopsTheCore s hm, .halt⟩
  | gd x y z => exact exec_channel_outcome rfl hm
  | pd x y z => exact exec_channel_outcome rfl hm
  | rd x y z => exact exec_channel_outcome rfl hm
  | wd x y z => exact exec_channel_outcome rfl hm
  | sd x y z => exact exec_channel_outcome rfl hm
  | gt x y z => exact .inr (exec_gt_outcome hm x y z)
  | pt x y z => exact .inr (exec_pt_outcome hm x y z)
  | stvm n => exact .inr (exec_stvm_outcome hm n)
  | svrg n => exact .inr (exec_svrg_outcome hm n)
  | ldrg n => exact .inr (exec_ldrg_outcome hm n)
  | _ => exact .inr (exec_direct_rm rfl hm)

/-- The instruction of an RM step is the one it fetches. -/
theorem nextInstr_rm {s : State} (hm : s.mode = .supervisor) : s.nextInstr = (s.fetch .rm s.rm.ic).command? := by
  simp only [State.nextInstr, hm]

/-- An RM step took a bad fetch's fault, or ran the instruction at RM.IC (40_cycle.md R123). -/
theorem step_rm_outcome {s t : State} (hm : s.mode = .supervisor) (h : step s = .next t) :
    (∃ f, t = s.supervisorFault f) ∨ ∃ i, s.nextInstr = some i ∧ s.rm.ic < s.cfg.rmMemSize ∧ RmOutcome i s t := by
  obtain ⟨hk, hr⟩ := step_next h
  rw [step_rm hk hr hm] at h
  cases hf : s.fetch .rm s.rm.ic with
  | fault f =>
    rw [supervisorStep_fault hf] at h
    cases h
    exact .inl ⟨f, rfl⟩
  | command i =>
    rw [supervisorStep_command hf] at h
    obtain ⟨hic, -⟩ := State.fetch_command.mp hf
    refine .inr ⟨i, by rw [nextInstr_rm hm, hf]; rfl, hic, ?_⟩
    rcases exec_rm hm i with ⟨ch, e, -⟩ | ⟨u, e, ho⟩ <;> rw [e] at h <;> cases h
    exact ho

/-! ## The VM's instruction -/

/-- An instruction that is no direct opcode leaves the slots of a VM's machine alone, but for HALT (40_cycle.md
R125). -/
theorem exec_vm_slots {i : Instr} (hd : directRule i = none) (hi : i ≠ .halt) {s t : State} (hm : s.mode = .user)
    (he : exec i s = .next t) : t.slots = s.slots := by
  have trapOr (op : Trap) (x : Nat) (r : Result) (h : s.trapOr op x r = .next t) : t.slots = s.slots := by
    simp only [State.trapOr, hm] at h
    split at h <;> cases h <;> rfl
  have onlyA (x : Nat) (r : Result) (h : s.supervisorOnlyA x r = .next t) : t.slots = s.slots := by
    simp only [State.supervisorOnlyA, hm] at h
    split at h <;> cases h <;> rfl
  have onlyB (r : Result) (h : s.supervisorOnlyB r = .next t) : t.slots = s.slots := by
    simp only [State.supervisorOnlyB, hm] at h
    cases h; rfl
  cases i with
  | halt => exact absurd rfl hi
  | gd x y z => exact trapOr _ _ _ he
  | pd x y z => exact trapOr _ _ _ he
  | rd x y z => exact trapOr _ _ _ he
  | wd x y z => exact trapOr _ _ _ he
  | sd x y z => exact trapOr _ _ _ he
  | gt x y z => exact onlyA _ _ he
  | pt x y z => exact onlyA _ _ he
  | stvm n => exact onlyB _ he
  | svrg n => exact onlyB _ he
  | ldrg n => exact onlyB _ he
  | _ => cases hd

/-- The bank an instruction leaves its VM is the one it had, or registers of a direct opcode. -/
theorem exec_vm_registers {s t : State} {n : Nat} {b c : Bank} {i : Instr} (hm : s.mode = .user) (hc : s.cur = some n)
    (hb : s.slot n = some b) (he : exec i s = .next t) (ht : t.slot n = some c) :
    c = b ∨ RegistersFrom s (.vm n) b c := by
  have hsame (h : t.slots = s.slots) : c = b ∨ RegistersFrom s (.vm n) b c := by
    have : t.slot n = s.slot n := by unfold State.slot; rw [h]
    rw [this, hb] at ht
    cases ht
    exact .inl rfl
  cases hd : directRule i with
  | none =>
    by_cases hi : i = .halt
    · subst hi
      rw [exec_halt_vm hm hc] at he
      cases he
      have hnone : (s.setSlot n none).slot n = none := State.slot_setSlot_same s _ (State.slot_eq_some_lt hb)
      exact absurd (hnone.symm.trans ht) (by simp)
    · exact hsame (exec_vm_slots hd hi hm he)
  | some d =>
    obtain ⟨x, y, z, rule⟩ := d
    rw [exec_direct hd] at he
    by_cases hx : x = 0
    · subst hx
      rw [State.direct_vm hm hc hb] at he
      have hframe := directRule_outcome hd (.vm n) b (argument 0 y z) s
      cases hr : rule (.vm n) b (argument 0 y z) s with
      | done u =>
        obtain ⟨m, c', rfl, hfrom⟩ := directRule_registers hd hr
        rw [hr] at he
        cases he
        rw [State.setBank_slot (State.slot_eq_some_lt hb), if_pos rfl] at ht
        cases ht
        exact .inr hfrom
      | raised f u =>
        rw [hr] at hframe he
        cases hframe
        cases he
        exact hsame rfl
      | fatal r u =>
        rw [hr] at hframe he
        cases hframe
        cases he
        exact hsame rfl
      | stuck f =>
        rw [hr] at hframe
        cases hframe
    · rw [State.direct_hundreds hm hc hb hx] at he
      cases he
      exact hsame rfl

/-! ## The handler entry -/

/-- All that entering a handler from slot `n` leaves (60_exceptions.md R261). -/
inductive HandlerOutcome (s : State) (n : Nat) (cause : Service) : State → Prop
  | unsaved : HandlerOutcome s n cause (s.fatal .saveIcRange)
  | entered (u : State) (ic : Nat) (hu : s.saveRegs n = .done u) (h : ic < s.cfg.rmMemSize) :
    HandlerOutcome s n cause { u.suspend n cause with rm := { s.rm with ic := ic } }
  | badVector (u : State) (hu : s.saveRegs n = .done u) :
    HandlerOutcome s n cause ((u.suspend n cause).fatal .badVector)

/-- Entering a handler from an allocated current slot has a next state, of the kinds listed. -/
theorem enterHandler_outcome {s : State} {n : Nat} {b : Bank} (hc : s.cur = some n) (hb : s.slot n = some b) (v : Nat)
    (cause : Service) : ∃ t, (s.enterHandler v cause).inVm = .next t ∧ HandlerOutcome s n cause t := by
  rcases State.enterHandler_cases hc hb v cause with ⟨-, e⟩ | ⟨-, u, hu, ⟨-, hlt, e⟩ | ⟨-, e⟩⟩ <;> rw [e]
  · exact ⟨_, rfl, .unsaved⟩
  · exact ⟨_, rfl, .entered u _ hu hlt⟩
  · exact ⟨_, rfl, .badVector u hu⟩

/-! ## The trap service -/

/-- All that the trap service of `rule` for slot `n` leaves, if it does not stall (60_exceptions.md R258, R259). -/
inductive TrapOutcome (rule : ChannelRule) (s : State) (n : Nat) : State → Prop
  | unsaved : TrapOutcome rule s n (s.fatal .saveIcRange)
  | fatal (u : State) (r : FatalReason) (hu : s.saveRegs n = .done u) (hr : ∀ f, r ≠ .supervisorFault f) :
    TrapOutcome rule s n (u.fatal r)
  | done (u w : State) (k : Nat) (hu : s.saveRegs n = .done u) (hw : rule k u = .done w) :
    TrapOutcome rule s n (w.trapDone n)
  | fault (u w t : State) (f : ProgramFault) (hu : s.saveRegs n = .done u)
    (hw : w = u ∨ ∃ k, rule k u = .raised f w)
    (ht : HandlerOutcome { w with si := none, pi := some f } n .pi t) : TrapOutcome rule s n t

/-- A fault of a replay in the VM of an allocated current slot enters the handler of that fault. -/
theorem trapFault_outcome {s : State} {n : Nat} {b : Bank} (hc : s.cur = some n) (hb : s.slot n = some b)
    (f : ProgramFault) :
    ∃ t, (s.trapFault f).inVm = .next t ∧ HandlerOutcome { s with si := none, pi := some f } n .pi t :=
  enterHandler_outcome (s := { s with si := none, pi := some f }) hc hb _ _

/-- The trap service of a channel opcode stalls on a set busy bit or has a next state of the kinds listed. -/
theorem serviceTrap_outcome {s : State} {n : Nat} {b : Bank} {i : Instr} {a : Nat} {rule : ChannelRule}
    (hc : s.cur = some n) (hb : s.slot n = some b)
    (hd : decode s.cfg.haltPad (s.readM (s.cfg.win n + b.ic)) = .ok i) (hi : channelOp i = some (a, rule)) :
    (∃ ch, s.serviceTrap.inVm = .fault (.stalled ch) ∧ bitOf s.busy ch = true) ∨
      ∃ t, s.serviceTrap.inVm = .next t ∧ TrapOutcome rule s n t := by
  rw [State.serviceTrap_eq hc hb hd hi]
  rcases s.saveRegs_cases n with ⟨hno, -⟩ | ⟨_, -, -, e⟩ | ⟨_, -, -, hu⟩
  · rw [hb] at hno; cases hno
  · rw [e]; exact .inr ⟨_, rfl, .unsaved⟩
  generalize (s.writeM (s.saveAddr n) _).writeM (s.saveAddr n + 1) _ = u at hu
  obtain ⟨-, -, -, hframe, -⟩ := State.saveRegs_done hu
  have hcu : u.cur = some n := by rw [hframe]; exact hc
  have hbu : u.slot n = some b := by rw [hframe]; exact hb
  have faults {w : State} {f : ProgramFault} (hw : w = u ∨ ∃ k, rule k u = .raised f w)
      (hcw : w.cur = some n) (hbw : w.slot n = some b) :
      ∃ t, (w.trapFault f).inVm = .next t ∧ TrapOutcome rule s n t := by
    obtain ⟨t, ht, ho⟩ := trapFault_outcome hcw hbw f
    exact ⟨t, ht, .fault u w t f hu hw ho⟩
  rw [hu]
  simp only [Effect.andThen, State.replay]
  cases u.translate a with
  | outside => exact .inr (faults (.inl rfl) hcu hbu)
  | badEntry => exact .inr ⟨_, rfl, .fatal u _ hu (by simp)⟩
  | address k =>
    obtain ⟨hfatal, hstuck⟩ := channelOp_stops hi (k := k) u
    dsimp only
    cases hr : rule k u with
    | done w => exact .inr ⟨_, rfl, .done u w k hu hr⟩
    | raised f w =>
      obtain ⟨-, hw, -⟩ := channelOp_raised hi hr
      exact .inr (faults (.inr ⟨k, hr⟩) (by rw [hw]; exact hcu) (by rw [hw]; exact hbu))
    | fatal r w =>
      obtain ⟨rfl, rfl⟩ := hfatal r w hr
      exact .inr ⟨_, rfl, .fatal w _ hu (by simp)⟩
    | stuck f =>
      obtain ⟨ch, rfl, hbusy⟩ := hstuck f hr
      exact .inl ⟨ch, rfl, by rwa [hframe] at hbusy⟩

/-! ## The dispatcher -/

/-- All that the dispatcher leaves, if it does not stall (60_exceptions.md R257). -/
inductive DispatchOutcome (s : State) : State → Prop
  | halt (h : s.si = some .halt) : DispatchOutcome s s.serviceHalt
  | trap (n : Nat) (b : Bank) (i : Instr) (a : Nat) (rule : ChannelRule) (t : State) (hs : s.si ≠ none)
    (hh : s.si ≠ some .halt) (hc : s.cur = some n) (hb : s.slot n = some b)
    (hd : decode s.cfg.haltPad (s.readM (s.cfg.win n + b.ic)) = .ok i) (hi : channelOp i = some (a, rule))
    (ht : TrapOutcome rule s n t) : DispatchOutcome s t
  | handler (n : Nat) (cause : Service) (t : State) (hs : s.si = none) (hc : s.cur = some n) (hne : cause ≠ .none)
    (hpi : s.pi ≠ none ↔ cause = .pi) (hio : ∀ ch, cause = .io ch → bitOf s.ioi ch = true)
    (ht : HandlerOutcome s n cause t) : DispatchOutcome s t
  | nothing (hs : s.si = none) (hp : s.pi = none) : DispatchOutcome s s

/-- What a trap service answers came from a channel opcode at the current VM's IC. -/
theorem serviceTrap_next {s t : State} (h : s.serviceTrap.inVm = .next t) :
    ∃ n b i a rule, s.cur = some n ∧ s.slot n = some b ∧
      decode s.cfg.haltPad (s.readM (s.cfg.win n + b.ic)) = .ok i ∧ channelOp i = some (a, rule) ∧
      TrapOutcome rule s n t := by
  cases hc : s.cur with
  | none => simp [State.serviceTrap, hc, Effect.inVm] at h
  | some n =>
    cases hb : s.slot n with
    | none => simp [State.serviceTrap, hc, hb, Effect.inVm] at h
    | some b =>
      cases hd : decode s.cfg.haltPad (s.readM (s.cfg.win n + b.ic)) with
      | error e => simp [State.serviceTrap, hc, hb, hd, Effect.inVm] at h
      | ok i =>
        cases hi : channelOp i with
        | none => simp [State.serviceTrap, hc, hb, hd, hi, Effect.inVm] at h
        | some p =>
          obtain ⟨a, rule⟩ := p
          rcases serviceTrap_outcome hc hb hd hi with ⟨ch, e, -⟩ | ⟨u, e, ho⟩ <;> rw [e] at h <;> cases h
          exact ⟨n, b, i, a, rule, rfl, hb, hd, hi, ho⟩

theorem enterHandler_next {s t : State} {v : Nat} {cause : Service} (h : (s.enterHandler v cause).inVm = .next t) :
    ∃ n, s.cur = some n ∧ HandlerOutcome s n cause t := by
  cases hc : s.cur with
  | none => simp [State.enterHandler, hc, Effect.inVm] at h
  | some n =>
    cases hb : s.slot n with
    | none => simp [State.enterHandler, hc, State.saveRegs, hb, Effect.andThen, Effect.inVm] at h
    | some b =>
      obtain ⟨u, e, ho⟩ := enterHandler_outcome hc hb v cause
      rw [e] at h
      cases h
      exact ⟨n, rfl, ho⟩

theorem dispatch_outcome {s t : State} (h : s.dispatch.inVm = .next t) : DispatchOutcome s t := by
  rcases s.dispatch_cases with ⟨hs, e⟩ | ⟨hs, hh, e⟩ | ⟨hs, f, hp, e⟩ | ⟨hs, hp, -, e⟩ | ⟨hs, hp, -, ch, hl, e⟩ |
    ⟨hs, hp, -, -, e⟩ <;> rw [e] at h
  · cases h
    exact .halt hs
  · obtain ⟨n, b, i, a, rule, hc, hb, hd, hi, ho⟩ := serviceTrap_next h
    exact .trap n b i a rule t hs hh hc hb hd hi ho
  · obtain ⟨n, hc, ho⟩ := enterHandler_next h
    exact .handler n .pi t hs hc nofun (by simp [hp]) nofun ho
  · obtain ⟨n, hc, ho⟩ := enterHandler_next h
    exact .handler n .timer t hs hc nofun (by simp [hp]) nofun ho
  · obtain ⟨n, hc, ho⟩ := enterHandler_next h
    refine .handler n (.io ch) t hs hc nofun (by simp [hp]) (fun d hd => ?_) ho
    cases hd
    exact lowestIo_some hl
  · cases h
    exact .nothing hs hp

/-! ## The VM step -/

/-- What a VM's step has done before the tick: taken a bad fetch's fault, or run the instruction at its IC
(40_cycle.md R125). -/
inductive VmRan (s : State) (n : Nat) (b : Bank) : State → Prop
  | badFetch (f : ProgramFault) : VmRan s n b (s.vmFault f)
  | instr (i : Instr) (u : State) (hi : s.nextInstr = some i) (hic : b.ic < 100)
    (hd : decode s.cfg.haltPad (s.readM (s.cfg.win n + b.ic)) = .ok i) (he : exec i s = .next u)
    (ho : VmOutcome i s n b u) : VmRan s n b u

/-- The instruction of a VM step is the one it fetches. -/
theorem nextInstr_vm {s : State} {n : Nat} {b : Bank} (hm : s.mode = .user) (hc : s.cur = some n)
    (hb : s.slot n = some b) : s.nextInstr = (s.fetch (.vm n) b.ic).command? := by
  simp only [State.nextInstr, hm, hc, hb, Option.bind_some]

/-- The step of an allocated current VM is what it ran, then the end of the step (40_cycle.md R125). -/
theorem userStep_ran {s : State} {n : Nat} {b : Bank} (hm : s.mode = .user) (hc : s.cur = some n)
    (hb : s.slot n = some b) : ∃ u, VmRan s n b u ∧ s.userStep = u.endUserStep := by
  cases hf : s.fetch (.vm n) b.ic with
  | fault f => exact ⟨_, .badFetch f, userStep_fault hc hb hf⟩
  | command i =>
    obtain ⟨hic, hd⟩ := State.fetch_command.mp hf
    obtain ⟨u, he, ho⟩ := exec_vm hm hc hb i
    exact ⟨u, .instr i u (by rw [nextInstr_vm hm hc hb, hf]; rfl) hic hd he ho, userStep_next hc hb hf he⟩

/-- A VM step that has a next state: its slot is allocated, and unless the instruction stopped the core the tick and the
dispatcher followed. -/
theorem step_vm_outcome {s t : State} (hm : s.mode = .user) (h : step s = .next t) :
    ∃ n b u, s.cur = some n ∧ s.slot n = some b ∧ VmRan s n b u ∧
      (u.run ≠ .running ∧ t = u ∨ u.run = .running ∧ DispatchOutcome u.tick t) := by
  obtain ⟨hk, hr⟩ := step_next h
  rw [step_vm hk hr hm] at h
  cases hc : s.cur with
  | none => simp [State.userStep, State.withVm, hc] at h
  | some n =>
    cases hb : s.slot n with
    | none => simp [State.userStep, State.withVm, hc, hb] at h
    | some b =>
      obtain ⟨u, hran, e⟩ := userStep_ran hm hc hb
      rw [e] at h
      refine ⟨n, b, u, rfl, hb, hran, ?_⟩
      by_cases hu : u.run = .running
      · rw [State.endUserStep_running hu] at h
        exact .inr ⟨hu, dispatch_outcome h⟩
      · rw [endUserStep_stopped hu] at h
        cases h
        exact .inl ⟨hu, rfl⟩

end Sys2Proof.Machine
end

section
/-! The invariant of Safety.lean: its data part is kept by every stage of a step, the rest by the whole step. -/

namespace Sys2Proof.Machine

open Sys2Proof

/-! ## The data part -/

/-- The part of the invariant that holds between the stages of a step too: everything but MODE with CUR and
the causes. -/
structure State.DataOk (s : State) : Prop where
  cfg : s.cfg.Ok
  memory : s.MemoryOk
  words : s.WordsOk
  ranges : s.RangesOk
  busy : s.BusyOk
  unused : ∀ n, s.cfg.nSlots ≤ n → s.slot n = none

theorem State.Inv.dataOk {s : State} (h : s.Inv) : s.DataOk := by
  obtain ⟨-, -, hunused⟩ := h.mode
  exact ⟨h.cfg, h.memory, h.words, h.ranges, h.busy, hunused⟩

/-- The invariant is its data part with MODE, CUR and the causes agreeing. -/
theorem State.DataOk.inv {s : State} (h : s.DataOk) (hm : s.mode = .user ↔ s.cur ≠ none)
    (hc : ∀ n, s.cur = some n → s.slot n ≠ none) (hcauses : s.CausesOk) : s.Inv :=
  ⟨h.cfg, h.memory, h.words, h.ranges, ⟨hm, hc, h.unused⟩, hcauses, h.busy⟩

/-- An allocated slot is one of the N_SLOTS, and its bank is well-formed. -/
theorem State.DataOk.slot {s : State} (h : s.DataOk) {n : Nat} {b : Bank} (hb : s.slot n = some b) :
    b.tmp.Ascii ∧ b.ic ≤ 100 ∧ n < s.cfg.nSlots := by
  obtain ⟨-, htmp, -⟩ := h.words
  obtain ⟨-, hic, -⟩ := h.ranges
  refine ⟨htmp n b hb, hic n b hb, Nat.lt_of_not_le fun hn => ?_⟩
  have := h.unused n hn
  simp [hb] at this

theorem State.DataOk.current {s : State} (h : s.DataOk) {n : Nat} (hc : s.cur = some n) : n < s.cfg.nSlots := by
  obtain ⟨-, -, -, -, -, hcur, -⟩ := h.ranges
  exact hcur n hc

theorem State.DataOk.readM_ascii {s : State} (h : s.DataOk) (a : Nat) : (s.readM a).Ascii := by
  obtain ⟨hmem, -⟩ := h.memory
  exact State.readM_ascii hmem a

/-- The registers the data part does not speak of. -/
theorem State.DataOk.control {s t : State} (h : s.DataOk)
    (ht : t = { s with pi := t.pi, si := t.si, ioi := t.ioi, mode := t.mode, svc := t.svc, run := t.run }) :
    t.DataOk := by
  rw [ht]
  exact ⟨h.cfg, h.memory, h.words, h.ranges, h.busy, h.unused⟩

theorem State.DataOk.setMem {s : State} (h : s.DataOk) {m : Memory} (hm : m.wf s.cfg.rmMemSize) :
    State.DataOk { s with mem := m } := by
  obtain ⟨-, hext⟩ := h.memory
  exact ⟨h.cfg, ⟨hm, hext⟩, h.words, h.ranges, h.busy, h.unused⟩

theorem State.DataOk.writeM {s : State} (h : s.DataOk) {a : Nat} {w : Word} (ha : a < s.cfg.rmMemSize) (hw : w.Ascii) :
    (s.writeM a w).DataOk := by
  obtain ⟨hmem, -⟩ := h.memory
  exact h.setMem (writeWord_wf hmem ha hw)

theorem State.DataOk.setRm {s : State} (h : s.DataOk) {c : Bank} (htmp : c.tmp.Ascii) (hic : c.ic ≤ s.cfg.rmMemSize) :
    State.DataOk { s with rm := c } := by
  obtain ⟨-, hslots, hkbd, hscr⟩ := h.words
  obtain ⟨-, hranges⟩ := h.ranges
  exact ⟨h.cfg, h.memory, ⟨htmp, hslots, hkbd, hscr⟩, ⟨hic, hranges⟩, h.busy, h.unused⟩

theorem State.DataOk.setTimer {s : State} (h : s.DataOk) {v : Nat} (hv : v ≤ 99999) :
    State.DataOk { s with ti := v } := by
  obtain ⟨hrm, hslots, hptr, -, hrest⟩ := h.ranges
  exact ⟨h.cfg, h.memory, h.words, ⟨hrm, hslots, hptr, hv, hrest⟩, h.busy, h.unused⟩

theorem State.DataOk.tick {s : State} (h : s.DataOk) : s.tick.DataOk := by
  obtain ⟨-, -, -, hti, -⟩ := h.ranges
  exact h.setTimer (by omega)

theorem State.DataOk.leaveVm {s : State} (h : s.DataOk) : State.DataOk { s with cur := none } := by
  obtain ⟨hrm, hslots, hptr, hti, hext, -, hlast⟩ := h.ranges
  exact ⟨h.cfg, h.memory, h.words, ⟨hrm, hslots, hptr, hti, hext, nofun, hlast⟩, h.busy, h.unused⟩

theorem State.DataOk.setSlot {s : State} (h : s.DataOk) {n : Nat} (hn : n < s.cfg.nSlots) {b : Option Bank}
    (hb : ∀ c, b = some c → c.tmp.Ascii ∧ c.ic ≤ 100) : (s.setSlot n b).DataOk := by
  obtain ⟨hrmtmp, -, hkbd, hscr⟩ := h.words
  obtain ⟨hrm, -, hranges⟩ := h.ranges
  have hslot {k : Nat} {c : Bank} (hc : (s.setSlot n b).slot k = some c) : c.tmp.Ascii ∧ c.ic ≤ 100 := by
    rw [State.slot_setSlot] at hc
    split at hc
    · exact hb c hc
    · obtain ⟨htmp, hic, -⟩ := h.slot hc
      exact ⟨htmp, hic⟩
  refine ⟨h.cfg, h.memory, ⟨hrmtmp, fun k c hc => ?_, hkbd, hscr⟩, ⟨hrm, fun k c hc => ?_, hranges⟩, h.busy,
    fun k hk => ?_⟩
  · obtain ⟨htmp, -⟩ := hslot hc
    exact htmp
  · obtain ⟨-, hic⟩ := hslot hc
    exact hic
  · have hkn : k ≠ n := by
      rw [State.setSlot_cfg] at hk
      omega
    rw [State.slot_setSlot_other s b hkn]
    exact h.unused k hk

theorem State.DataOk.setBank {s : State} (h : s.DataOk) {n : Nat} (hn : n < s.cfg.nSlots) {b : Bank}
    (htmp : b.tmp.Ascii) (hic : b.ic ≤ 100) : (s.setSlot n (some b)).DataOk :=
  h.setSlot hn fun c hc => by cases hc; exact ⟨htmp, hic⟩

/-- RM.IC advances after a fetch inside M (40_cycle.md R128). -/
theorem State.DataOk.advanceRm {s : State} (h : s.DataOk) (hic : s.rm.ic < s.cfg.rmMemSize) : s.advanceRm.DataOk := by
  obtain ⟨htmp, -⟩ := h.words
  exact h.setRm (c := s.rm.advance) htmp hic

/-- The registers of a direct opcode are well-formed in their context. -/
theorem RegistersFrom.ok {s : State} {ctx : Ctx} {b c : Bank} (h : RegistersFrom s ctx b c) (hs : s.DataOk)
    (htmp : b.tmp.Ascii) (hic : b.ic < s.sizeCtx ctx) : c.tmp.Ascii ∧ c.ic ≤ s.sizeCtx ctx := by
  refine ⟨?_, ?_⟩
  · rcases h.tmp with e | ⟨a, e⟩ | ⟨r, e⟩ <;> rw [e]
    · exact htmp
    · exact hs.readM_ascii a
    · exact pad5_ascii r
  · rcases h.ic with e | hle
    · omega
    · exact hle

/-! ## The data part through the shared operations -/

theorem saveRegs_dataOk {s t : State} {n : Nat} (h : s.DataOk) (hs : s.saveRegs n = .done t) : t.DataOk := by
  rcases s.saveRegs_cases n with ⟨-, e⟩ | ⟨_, -, -, e⟩ | ⟨b, hb, hi, e⟩ <;> rw [e] at hs <;> cases hs
  obtain ⟨htmp, -, hn⟩ := h.slot hb
  have hwin := Config.Ok.window h.cfg hn
  obtain ⟨-, hsave⟩ := Config.Ok.saveArea h.cfg (n := n)
  exact (h.writeM (by omega) htmp).writeM (by rw [State.writeM_cfg]; omega) (saveWord_ascii hi)

/-- The bank that a well-formed save area holds is well-formed (45_system.md R229). -/
theorem restored_ok {s : State} {n : Nat} {b : Bank} (h : s.DataOk)
    (hb : bankOfSave (s.readM (s.saveAddr n)) (s.readM (s.saveAddr n + 1)) = some b) : b.tmp.Ascii ∧ b.ic ≤ 100 := by
  obtain ⟨htmp, hic⟩ := bankOfSave_eq_some hb
  rw [htmp]
  exact ⟨h.readM_ascii _, by omega⟩

theorem prepared_dataOk {s u : State} {n : Nat} (h : s.DataOk) (hn : n < s.cfg.nSlots) (hu : s.Prepared n u) :
    u.DataOk := by
  rcases hu with rfl | ⟨b, hb, rfl⟩
  · obtain ⟨m, e, -, -, hwf⟩ := s.allocate_cases n
    obtain ⟨hmem, -⟩ := h.memory
    rw [e]
    exact (h.setMem (hwf (Config.Ok.table h.cfg hn) hmem)).setBank hn (by decide) (Nat.zero_le _)
  · obtain ⟨htmp, hic⟩ := restored_ok h hb
    exact h.setBank hn htmp hic

theorem enter_dataOk {s : State} {n : Nat} (h : s.DataOk) (hn : n < s.cfg.nSlots) (hic : s.rm.ic < s.cfg.rmMemSize) :
    (s.enter n).DataOk := by
  obtain ⟨htmp, hslotw, hkbd, hscr⟩ := h.words
  obtain ⟨-, hslots, -, -, hext, -, hlast⟩ := h.ranges
  obtain ⟨-, -, -, -, -, -, hti⟩ := id h.cfg
  have htable := Config.Ok.table h.cfg hn
  rw [State.enter_eq]
  have hptr : s.cfg.ptb n < s.cfg.rmMemSize := by omega
  exact ⟨h.cfg, h.memory, ⟨htmp, hslotw, hkbd, hscr⟩,
    ⟨hic, hslots, hptr, hti, hext, fun k hk => by cases hk; exact hn, hlast⟩, h.busy, h.unused⟩

/-- The slot a handler entry remembers is one of the N_SLOTS. -/
theorem suspend_dataOk {s : State} {n : Nat} (h : s.DataOk) (hn : n < s.cfg.nSlots) (cause : Service) :
    (s.suspend n cause).DataOk := by
  obtain ⟨hrm, hslots, hptr, hti, hext, -, -⟩ := h.ranges
  exact ⟨h.cfg, h.memory, h.words, ⟨hrm, hslots, hptr, hti, hext, nofun, fun k hk => by cases hk; exact hn⟩, h.busy,
    h.unused⟩

/-! ## The data part through the channel rules -/

theorem gdRule_dataOk {s t : State} {k : Nat} (h : s.DataOk) (hd : gdRule k s = .done t) : t.DataOk := by
  obtain ⟨htmp, hslotw, hkbd, hscr⟩ := h.words
  obtain ⟨hmem, hext⟩ := h.memory
  rcases gdRule_cases k s with ⟨-, e⟩ | ⟨-, -, e⟩ | ⟨-, hin, e⟩ <;> rw [e] at hd <;> cases hd
  have hwf : (s.takeKeyboard k).mem.wf s.cfg.rmMemSize := by
    unfold State.takeKeyboard
    cases hw : s.kbd with
    | none => exact hmem
    | some w => exact writeWord_wf hmem hin (hkbd w hw)
  exact ⟨h.cfg, ⟨hwf, hext⟩, ⟨htmp, hslotw, nofun, hscr⟩, h.ranges, h.busy, h.unused⟩

/-- A busy bit that leaks is the one that the configuration lets leak (44_channel_io.md R198). -/
theorem pdRule_dataOk {s t : State} {k : Nat} (h : s.DataOk) (hd : pdRule k s = .done t) : t.DataOk := by
  obtain ⟨htmp, hslotw, hkbd, -⟩ := h.words
  obtain ⟨hbk, hbs, hbe⟩ := h.busy
  rcases pdRule_cases k s with ⟨-, e⟩ | ⟨-, -, e⟩ | ⟨-, -, e⟩ <;> rw [e] at hd <;> cases hd
  refine ⟨h.cfg, h.memory, ⟨htmp, hslotw, hkbd, fun w hw => ?_⟩, h.ranges, ?_, h.unused⟩
  · cases hw
    exact h.readM_ascii k
  · by_cases hp : s.cfg.stuckBusyOp = .pd
    · simp only [State.BusyOk, hp, if_true, bitOf_or_mask]
      exact ⟨by simp [hbk], fun _ => trivial, by simpa [hp] using hbe⟩
    · simp only [State.BusyOk, hp, if_false]
      exact ⟨hbk, fun hb => absurd (hbs hb) hp, hbe⟩

theorem wdRule_dataOk {s t : State} {k : Nat} (h : s.DataOk) (hd : wdRule k s = .done t) : t.DataOk := by
  obtain ⟨hmem, hext⟩ := h.memory
  obtain ⟨hbk, hbs, hbe⟩ := h.busy
  rcases wdRule_cases k s with ⟨-, e⟩ | ⟨-, -, e⟩ | ⟨-, -, -, e⟩ | ⟨-, hp, -, e⟩ <;> rw [e] at hd <;> cases hd
  refine ⟨h.cfg, ⟨hmem, ?_⟩, h.words, h.ranges, ?_, h.unused⟩
  · have hlines : Config.extLines = 1000 := rfl
    refine Memory.writeExtWords_wfExt hext (by simp only [List.length_map, List.length_range]; omega) fun w hw => ?_
    obtain ⟨i, -, rfl⟩ := List.mem_map.mp hw
    exact h.readM_ascii _
  · by_cases hw : s.cfg.stuckBusyOp = .wd
    · simp only [State.BusyOk, hw, if_true, bitOf_or_mask]
      exact ⟨by simp [hbk], by simpa [hw] using hbs, fun _ => trivial⟩
    · simp only [State.BusyOk, hw, if_false]
      exact ⟨hbk, hbs, fun hb => absurd (hbe hb) hw⟩

theorem sdRule_dataOk {s t : State} {k : Nat} (h : s.DataOk) (hd : sdRule k s = .done t) : t.DataOk := by
  obtain ⟨hrm, hslots, hptr, hti, -, hcur⟩ := h.ranges
  rcases sdRule_cases k s with ⟨-, e⟩ | ⟨hk, e⟩ <;> rw [e] at hd <;> cases hd
  exact ⟨h.cfg, h.memory, h.words, ⟨hrm, hslots, hptr, hti, hk, hcur⟩, h.busy, h.unused⟩

/-- RD keeps the data part whether the line fits or not (44_channel_io.md R194). -/
theorem rdRule_dataOk {s t : State} {k : Nat} (h : s.DataOk)
    (hd : rdRule k s = .done t ∨ ∃ f, rdRule k s = .raised f t) :
    t.DataOk := by
  obtain ⟨hmem, hext⟩ := h.memory
  rcases rdRule_cases k s with ⟨-, e⟩ | ⟨-, -, e⟩ | ⟨-, -, -, m, e, -, -, hwf⟩ | ⟨-, -, -, m, e, -, -, hwf⟩ <;>
    rw [e] at hd <;> simp at hd <;> subst hd
  · exact h.setMem (hwf hmem hext)
  · exact (h.setMem (hwf hmem hext)).control rfl

theorem channelOp_dataOk {i : Instr} {a k : Nat} {rule : ChannelRule} (hi : channelOp i = some (a, rule)) {s t : State}
    (h : s.DataOk) (hd : rule k s = .done t ∨ ∃ f, rule k s = .raised f t) : t.DataOk := by
  rcases hd with hd | ⟨f, hf⟩
  · cases i <;> simp only [channelOp, Option.some.injEq, Prod.mk.injEq, reduceCtorEq] at hi
    all_goals obtain ⟨rfl, rfl⟩ := hi
    case gd => exact gdRule_dataOk h hd
    case pd => exact pdRule_dataOk h hd
    case rd => exact rdRule_dataOk h (.inl hd)
    case wd => exact wdRule_dataOk h hd
    case sd => exact sdRule_dataOk h hd
  · obtain ⟨-, -, rfl | ⟨x, y, z, rfl⟩⟩ := channelOp_raised hi hf
    · exact h
    · cases hi
      exact rdRule_dataOk h (.inr ⟨f, hf⟩)

/-- A channel rule that ends raises IOI bits and clears none (44_channel_io.md R197). -/
theorem channelOp_keeps_io {i : Instr} {a k : Nat} {rule : ChannelRule} (hi : channelOp i = some (a, rule))
    {s t : State} (hd : rule k s = .done t) {ch : Channel} (hb : bitOf s.ioi ch = true) : bitOf t.ioi ch = true := by
  cases i <;> simp only [channelOp, Option.some.injEq, Prod.mk.injEq, reduceCtorEq] at hi
  all_goals obtain ⟨rfl, rfl⟩ := hi
  case gd =>
    rcases gdRule_cases k s with ⟨-, e⟩ | ⟨-, -, e⟩ | ⟨-, -, e⟩ <;> rw [e] at hd <;> cases hd
    simp [hb]
  case pd =>
    rcases pdRule_cases k s with ⟨-, e⟩ | ⟨-, -, e⟩ | ⟨-, -, e⟩ <;> rw [e] at hd <;> cases hd
    simp [hb]
  case rd =>
    rcases rdRule_cases k s with ⟨-, e⟩ | ⟨-, -, e⟩ | ⟨-, -, -, m, e, -⟩ | ⟨-, -, -, m, e, -⟩ <;> rw [e] at hd <;>
      cases hd
    simp [hb]
  case wd =>
    rcases wdRule_cases k s with ⟨-, e⟩ | ⟨-, -, e⟩ | ⟨-, -, -, e⟩ | ⟨-, -, -, e⟩ <;> rw [e] at hd <;> cases hd
    simp [hb]
  case sd =>
    rcases sdRule_cases k s with ⟨-, e⟩ | ⟨-, e⟩ <;> rw [e] at hd <;> cases hd
    exact hb

/-! ## The invariant through an RM step -/

/-- In SUPERVISOR mode no VM is current. -/
theorem State.Inv.no_current {s : State} (h : s.Inv) (hm : s.mode = .supervisor) : s.cur = none := by
  obtain ⟨huser, -⟩ := h.mode
  by_contra hc
  have := huser.mpr hc
  simp [hm] at this

/-- MODE, CUR, PI, SI and the cause in service are the same. -/
structure State.SameControl (s t : State) : Prop where
  mode : t.mode = s.mode
  cur : t.cur = s.cur
  pi : t.pi = s.pi
  si : t.si = s.si
  svc : t.svc = s.svc

/-- While the RM goes on in SUPERVISOR mode, clearing no IOI bit, the invariant needs the data part alone. -/
theorem State.Inv.continues {s t : State} (h : s.Inv) (hm : s.mode = .supervisor) (hr : s.run = .running)
    (ht : t.DataOk) (hsame : s.SameControl t) (hrun : ∀ f, t.run ≠ .fatal (.supervisorFault f))
    (hio : ∀ ch, bitOf s.ioi ch = true → bitOf t.ioi ch = true) : t.Inv := by
  have hno := h.no_current hm
  obtain ⟨hmode, hcur, hpi, hsi, hsvc⟩ := hsame
  obtain ⟨-, hcauses, -⟩ := h.causes
  obtain ⟨hsi0, hpi0, hio0⟩ := hcauses hr
  refine ht.inv ?_ ?_ ⟨?_, fun _ => ⟨hsi.trans hsi0, ?_, fun ch hch => hio ch (hio0 ch (hsvc ▸ hch))⟩,
    fun f hf => absurd hf (hrun f)⟩
  · simp [hmode, hm, hcur, hno]
  · simp [hcur, hno]
  · simp [hmode, hm]
  · rw [hpi, hsvc]; exact hpi0

/-- A fault of the RM stops the core with its cause in PI (40_cycle.md R124). -/
theorem State.Inv.faults {s t : State} (h : s.Inv) (hm : s.mode = .supervisor) (ht : t.DataOk) (hmode : t.mode = s.mode)
    (hcur : t.cur = s.cur) (f : ProgramFault) : (t.supervisorFault f).Inv := by
  have hno := h.no_current hm
  have hdata : (t.supervisorFault f).DataOk := ht.control rfl
  refine hdata.inv ?_ ?_ ⟨?_, nofun, fun g hg => ?_⟩
  · simp [hmode, hm, hcur, hno]
  · simp [hcur, hno]
  · simp [hmode, hm]
  · cases hg
    rfl

/-- STVM leaves USER mode with slot `n` current and no cause in service: PI is cleared if its handler ran, and was NONE
if not (45_system.md R225, D23). -/
theorem enter_inv {s u : State} {n : Nat} (h : s.Inv) (hr : s.run = .running) (hu : u.DataOk) (hn : n < u.cfg.nSlots)
    (hic : u.rm.ic < u.cfg.rmMemSize) (hslot : u.slot n ≠ none) (hsame : s.SameControl u) (hrun : u.run = s.run) :
    (u.enter n).Inv := by
  have hdata := enter_dataOk hu hn hic
  obtain ⟨-, -, hpi, hsi, hsvc⟩ := hsame
  obtain ⟨-, hcauses, -⟩ := h.causes
  obtain ⟨hsi0, hpi0, -⟩ := hcauses hr
  obtain ⟨hcleared, -⟩ := u.clearServiced_causes
  rw [State.enter_eq] at hdata ⊢
  refine hdata.inv (by simp) ?_ ⟨fun _ => rfl, fun _ => ⟨hsi.trans hsi0, ?_, nofun⟩, fun f hf => ?_⟩
  · intro k hk
    cases hk
    exact hslot
  · show u.clearServiced.pi ≠ none ↔ Service.none = .pi
    rw [hcleared, hpi, hsvc]
    by_cases hp : s.svc = .pi
    · simp [hp]
    · simpa [hp] using hpi0
  · rw [show u.run = .running from hrun.trans hr] at hf
    cases hf

theorem prepared_slot {s u : State} {n : Nat} (hn : n < 10) (hu : s.Prepared n u) : u.slot n ≠ none := by
  rcases hu with rfl | ⟨b, -, rfl⟩
  · obtain ⟨m, e, -⟩ := s.allocate_cases n
    rw [e, State.slot_setSlot_same _ _ hn]
    nofun
  · rw [State.slot_setSlot_same _ _ hn]
    nofun

/-- What STVM prepares differs in M and the slots alone. -/
theorem prepared_frame {s u : State} {n : Nat} (hu : s.Prepared n u) :
    u = { s with mem := u.mem, slots := u.slots } := by
  rcases hu with rfl | ⟨b, -, rfl⟩
  · obtain ⟨m, e, -⟩ := s.allocate_cases n
    rw [e]; rfl
  · rfl

/-- Each kind of end of an RM instruction keeps the invariant. -/
theorem RmOutcome.inv {i : Instr} {s t : State} (ho : RmOutcome i s t) (h : s.Inv) (hm : s.mode = .supervisor)
    (hr : s.run = .running) (hic : s.rm.ic < s.cfg.rmMemSize) : t.Inv := by
  have hd := h.dataOk
  obtain ⟨htmp, -⟩ := hd.words
  have stays (f : ProgramFault) : s.run ≠ .fatal (.supervisorFault f) := by rw [hr]; nofun
  have continues {t : State} (ht : t.DataOk) (hsame : s.SameControl t) (hrun : t.run = s.run) (hio : t.ioi = s.ioi) :
      t.Inv :=
    h.continues hm hr ht hsame (by rw [hrun]; exact stays) (by rw [hio]; exact fun _ hb => hb)
  cases ho with
  | fault f => exact h.faults hm hd rfl rfl f
  | fatal r hr' =>
    exact h.continues hm hr (hd.control rfl) ⟨rfl, rfl, rfl, rfl, rfl⟩ (fun f hf => hr' f (by cases hf; rfl))
      fun _ hb => hb
  | halt => exact h.continues hm hr (hd.control rfl) ⟨rfl, rfl, rfl, rfl, rfl⟩ nofun fun _ hb => hb
  | bank c hc hfrom =>
    obtain ⟨hctmp, hcic⟩ := hfrom.ok hd htmp hic
    exact continues (hd.setRm hctmp hcic) ⟨rfl, rfl, rfl, rfl, rfl⟩ rfl rfl
  | store a w ha hw =>
    have hascii : w.Ascii := by
      rcases hw with rfl | rfl
      · exact htmp
      · exact pad5_ascii _
    exact continues ((hd.writeM ha hascii).advanceRm hic) ⟨rfl, rfl, rfl, rfl, rfl⟩ rfl rfl
  | timer w hn hi => exact continues ((hd.setTimer (num_le hn)).advanceRm hic) ⟨rfl, rfl, rfl, rfl, rfl⟩ rfl rfl
  | channel a k rule u hi hu =>
    obtain ⟨hframe, -⟩ := channelOp_done hi (.inl hu)
    have hicu : u.rm.ic < u.cfg.rmMemSize := by rw [hframe]; exact hic
    exact h.continues hm hr ((channelOp_dataOk hi hd (.inl hu)).advanceRm hicu)
      (by rw [hframe]; exact ⟨rfl, rfl, rfl, rfl, rfl⟩) (by rw [hframe]; exact stays)
      fun ch hb => channelOp_keeps_io hi hu hb
  | channelFault a k rule f u hi hu =>
    obtain ⟨hframe, -⟩ := channelOp_done hi (.inr ⟨f, hu⟩)
    exact h.faults hm (channelOp_dataOk hi hd (.inr ⟨f, hu⟩)) (by rw [hframe]) (by rw [hframe]) f
  | start n u hi hn hu =>
    obtain ⟨⟨-, hten⟩, -⟩ := id h.cfg
    have hframe := prepared_frame hu
    exact enter_inv h hr (prepared_dataOk hd hn hu) (by rw [hframe]; exact hn) (by rw [hframe]; exact hic)
      (prepared_slot (by omega) hu) (by rw [hframe]; exact ⟨rfl, rfl, rfl, rfl, rfl⟩) (by rw [hframe])
  | save n u hn hu =>
    obtain ⟨-, -, -, hframe, -⟩ := State.saveRegs_done hu
    have hicu : u.rm.ic < u.cfg.rmMemSize := by rw [hframe]; exact hic
    exact continues ((saveRegs_dataOk hd hu).advanceRm hicu) (by rw [hframe]; exact ⟨rfl, rfl, rfl, rfl, rfl⟩)
      (by rw [hframe]; rfl) (by rw [hframe]; rfl)
  | load n b hn hb =>
    obtain ⟨hbtmp, hbic⟩ := restored_ok hd hb
    exact continues ((hd.setBank hn hbtmp hbic).advanceRm hic) ⟨rfl, rfl, rfl, rfl, rfl⟩ rfl rfl

theorem step_rm_inv {s t : State} (h : s.Inv) (hm : s.mode = .supervisor) (hs : step s = .next t) : t.Inv := by
  obtain ⟨-, hr⟩ := step_next hs
  rcases step_rm_outcome hm hs with ⟨f, rfl⟩ | ⟨i, -, hic, ho⟩
  · exact h.faults hm h.dataOk rfl rfl f
  · exact ho.inv h hm hr hic

/-! ## The invariant through a VM step -/

/-- What holds of a running VM step before the dispatch: USER mode with its VM current, unless its HALT has freed the
slot, no cause in service, and a trap never together with a program fault (40_cycle.md R125). -/
structure State.PreDispatch (s : State) : Prop where
  data : s.DataOk
  mode : s.mode = .user
  svc : s.svc = .none
  run : s.run = .running
  current : s.si = some .halt ∧ s.cur = none ∨ s.si ≠ some .halt ∧ ∃ n b, s.cur = some n ∧ s.slot n = some b
  alone : s.si ≠ none → s.pi = none

theorem State.PreDispatch.tick {s : State} (h : s.PreDispatch) : s.tick.PreDispatch :=
  ⟨h.data.tick, h.mode, h.svc, h.run, h.current, h.alone⟩

/-- A core that stops in USER mode, but for a fault of the RM. -/
theorem fatal_user_inv {s : State} {n : Nat} {b : Bank} (hd : s.DataOk) (hm : s.mode = .user) (hsvc : s.svc = .none)
    (hc : s.cur = some n) (hb : s.slot n = some b) {r : FatalReason} (hr : ∀ f, r ≠ .supervisorFault f) :
    (s.fatal r).Inv := by
  have hdata : (s.fatal r).DataOk := hd.control rfl
  refine hdata.inv ?_ ?_ ⟨fun _ => hsvc, nofun, fun f hf => ?_⟩
  · simp [State.fatal, hm, hc]
  · intro k hk
    cases hc.symm.trans hk
    show s.slot n ≠ none
    rw [hb]
    nofun
  · cases hf
    exact absurd rfl (hr f)

/-- A VM that goes on: USER mode, its slot current, and no trap or program fault pending. -/
theorem user_inv {s : State} {n : Nat} {b : Bank} (hd : s.DataOk) (hm : s.mode = .user) (hsvc : s.svc = .none)
    (hr : s.run = .running) (hc : s.cur = some n) (hb : s.slot n = some b) (hsi : s.si = none) (hpi : s.pi = none) :
    s.Inv := by
  refine hd.inv ?_ ?_ ⟨fun _ => hsvc, fun _ => ⟨hsi, ?_, ?_⟩, fun f hf => ?_⟩
  · simp [hm, hc]
  · intro k hk
    cases hc.symm.trans hk
    rw [hb]
    nofun
  · simp [hpi, hsvc]
  · simp [hsvc]
  · rw [hr] at hf
    cases hf

/-- Entering the handler of a cause that is pending keeps the invariant (60_exceptions.md R261). -/
theorem HandlerOutcome.inv {s t : State} {n : Nat} {b : Bank} {cause : Service} (ho : HandlerOutcome s n cause t)
    (hd : s.DataOk) (hm : s.mode = .user) (hsvc : s.svc = .none) (hr : s.run = .running) (hc : s.cur = some n)
    (hb : s.slot n = some b) (hsi : s.si = none) (hpi : s.pi ≠ none ↔ cause = .pi)
    (hio : ∀ ch, cause = .io ch → bitOf s.ioi ch = true) : t.Inv := by
  obtain ⟨-, -, hn⟩ := hd.slot hb
  have suspended {u : State} (hu : s.saveRegs n = .done u) :
      (u.suspend n cause).DataOk ∧ u = { s with mem := u.mem } := by
    obtain ⟨-, -, -, hframe, -⟩ := State.saveRegs_done hu
    exact ⟨suspend_dataOk (saveRegs_dataOk hd hu) (by rw [hframe]; exact hn) cause, hframe⟩
  cases ho with
  | unsaved => exact fatal_user_inv hd hm hsvc hc hb (by simp)
  | entered u ic hu hlt =>
    obtain ⟨hdu, hframe⟩ := suspended hu
    obtain ⟨htmp, -⟩ := hd.words
    have hdata : State.DataOk { u.suspend n cause with rm := { s.rm with ic := ic } } :=
      hdu.setRm htmp (by rw [State.suspend_cfg, hframe]; exact Nat.le_of_lt hlt)
    have hur : u.run = .running := by rw [hframe]; exact hr
    have hui : u.si = none := by rw [hframe]; exact hsi
    have hup : u.pi ≠ none ↔ cause = .pi := by rw [hframe]; exact hpi
    have huo : ∀ ch, cause = .io ch → bitOf u.ioi ch = true := by rw [hframe]; exact hio
    refine hdata.inv ⟨nofun, fun h => absurd rfl h⟩ nofun ⟨nofun, fun _ => ⟨hui, hup, huo⟩, fun f hf => ?_⟩
    exact absurd (hur.symm.trans hf) nofun
  | badVector u hu =>
    obtain ⟨hdu, -⟩ := suspended hu
    have hdata : ((u.suspend n cause).fatal .badVector).DataOk := hdu.control rfl
    exact hdata.inv ⟨nofun, fun h => absurd rfl h⟩ nofun ⟨nofun, nofun, fun f hf => by cases hf⟩

/-- Every end of a trap service keeps the invariant (60_exceptions.md R258, R259). -/
theorem TrapOutcome.inv {s t : State} {n : Nat} {b : Bank} {i : Instr} {a : Nat} {rule : ChannelRule}
    (ho : TrapOutcome rule s n t) (hi : channelOp i = some (a, rule)) (hd : s.DataOk) (hm : s.mode = .user)
    (hsvc : s.svc = .none) (hr : s.run = .running) (hc : s.cur = some n) (hb : s.slot n = some b) (hpi : s.pi = none) :
    t.Inv := by
  obtain ⟨-, -, hn⟩ := hd.slot hb
  cases ho with
  | unsaved => exact fatal_user_inv hd hm hsvc hc hb (by simp)
  | fatal u r hu hr' =>
    obtain ⟨-, -, -, hframe, -⟩ := State.saveRegs_done hu
    exact fatal_user_inv (n := n) (b := b) (saveRegs_dataOk hd hu) (by rw [hframe]; exact hm)
      (by rw [hframe]; exact hsvc) (by rw [hframe]; exact hc) (by rw [hframe]; exact hb) hr'
  | done u w k hu hw =>
    obtain ⟨b', hb', hic, hframe, -⟩ := State.saveRegs_done hu
    cases hb.symm.trans hb'
    obtain ⟨hwframe, -⟩ := channelOp_done hi (.inl hw)
    have hdw := channelOp_dataOk hi (saveRegs_dataOk hd hu) (.inl hw)
    have hbw : w.slot n = some b := by rw [hwframe, hframe]; exact hb
    have hnw : n < w.cfg.nSlots := by rw [hwframe, hframe]; exact hn
    obtain ⟨htmp, -⟩ := hdw.slot hbw
    have hdone : w.trapDone n = { w.setSlot n (some b.advance) with si := none } := by
      rw [State.trapDone, hbw]; rfl
    rw [hdone]
    have hdata : State.DataOk { w.setSlot n (some b.advance) with si := none } :=
      (hdw.setBank (b := b.advance) hnw htmp (by rw [Bank.advance_ic]; omega)).control rfl
    refine user_inv (n := n) (b := b.advance) hdata ?_ ?_ ?_ ?_ ?_ rfl ?_
    · show w.mode = .user
      rw [hwframe, hframe]; exact hm
    · show w.svc = .none
      rw [hwframe, hframe]; exact hsvc
    · show w.run = .running
      rw [hwframe, hframe]; exact hr
    · show w.cur = some n
      rw [hwframe, hframe]; exact hc
    · exact State.slot_setSlot_same w _ (State.slot_eq_some_lt hb)
    · show w.pi = none
      rw [hwframe, hframe]; exact hpi
  | fault u w _ f hu hw ht =>
    obtain ⟨-, -, -, hframe, -⟩ := State.saveRegs_done hu
    have hdu := saveRegs_dataOk hd hu
    obtain ⟨hdw, m, hwframe⟩ : w.DataOk ∧ ∃ m, w = { s with mem := m } := by
      rcases hw with rfl | ⟨k, hk⟩
      · exact ⟨hdu, _, hframe⟩
      · obtain ⟨-, hwf, -⟩ := channelOp_raised hi hk
        exact ⟨channelOp_dataOk hi hdu (.inr ⟨f, hk⟩), w.mem, by rw [hwf, hframe]⟩
    have hdata : State.DataOk { w with si := none, pi := some f } := hdw.control rfl
    subst hwframe
    exact ht.inv hdata hm hsvc hr hc hb rfl (by simp) nofun

theorem DispatchOutcome.inv {s t : State} (ho : DispatchOutcome s t) (h : s.PreDispatch) : t.Inv := by
  obtain ⟨hd, hm, hsvc, hr, hcurrent, halone⟩ := h
  have current (hh : s.si ≠ some .halt) : ∃ n b, s.cur = some n ∧ s.slot n = some b := by
    rcases hcurrent with ⟨hsi, -⟩ | ⟨-, hvm⟩
    · exact absurd hsi hh
    · exact hvm
  cases ho with
  | halt hsi =>
    have hcur : s.cur = none := by
      rcases hcurrent with ⟨-, hcur⟩ | ⟨hh, -⟩
      · exact hcur
      · exact absurd hsi hh
    have hpi : s.pi = none := halone (by simp [hsi])
    have hdata : s.serviceHalt.DataOk := hd.control rfl
    refine hdata.inv ?_ ?_ ⟨nofun, fun _ => ⟨rfl, ?_, ?_⟩, fun f hf => ?_⟩
    · simp [hcur]
    · simp [hcur]
    · simp [hpi, hsvc]
    · simp [hsvc]
    · simp [hr] at hf
  | trap n b i a rule _ hsi hh hc hb hdec hi ht => exact ht.inv hi hd hm hsvc hr hc hb (halone hsi)
  | handler n cause _ hsi hc hne hpi hio ht =>
    obtain ⟨n', b, hc', hb⟩ := current (by simp [hsi])
    cases hc.symm.trans hc'
    exact ht.inv hd hm hsvc hr hc hb hsi hpi hio
  | nothing hsi hpi =>
    obtain ⟨n, b, hc, hb⟩ := current (by simp [hsi])
    exact user_inv hd hm hsvc hr hc hb hsi hpi

/-- What a VM ran either goes on to the dispatch or has stopped the core. -/
theorem VmRan.preDispatch {s u : State} {n : Nat} {b : Bank} (hran : VmRan s n b u) (h : s.Inv) (hm : s.mode = .user)
    (hr : s.run = .running) (hc : s.cur = some n) (hb : s.slot n = some b) :
    u.PreDispatch ∨ ∃ r, u = s.fatal r ∧ ∀ f, r ≠ .supervisorFault f := by
  have hd := h.dataOk
  obtain ⟨htmp, -, hn⟩ := hd.slot hb
  obtain ⟨hservice, hcauses, -⟩ := h.causes
  have hsvc := hservice hm
  obtain ⟨hsi, hpi, -⟩ := hcauses hr
  have hpi : s.pi = none := by simpa [hsvc] using hpi
  have hten := State.slot_eq_some_lt hb
  cases hran with
  | badFetch f => exact .inl ⟨hd.control rfl, hm, hsvc, hr, .inr ⟨by simp [hsi], n, b, hc, hb⟩, fun h => absurd hsi h⟩
  | instr i _ hi hic hdec he ho =>
    cases ho with
    | fault f => exact .inl ⟨hd.control rfl, hm, hsvc, hr, .inr ⟨by simp [hsi], n, b, hc, hb⟩, fun h => absurd hsi h⟩
    | fatal r hr' => exact .inr ⟨r, rfl, hr'⟩
    | trap op a rule hop hne =>
      exact .inl ⟨hd.control rfl, hm, hsvc, hr, .inr ⟨by simp [hne], n, b, hc, hb⟩, fun _ => hpi⟩
    | halt hhalt =>
      have hdata : State.DataOk { s.setSlot n none with si := some .halt, cur := none } :=
        (hd.setSlot (b := none) hn nofun).leaveVm.control rfl
      exact .inl ⟨hdata, hm, hsvc, hr, .inl ⟨rfl, rfl⟩, fun _ => hpi⟩
    | bank c hcp =>
      have hslot : (s.setSlot n (some c)).slot n = some c := State.slot_setSlot_same s _ hten
      have hc' : c.tmp.Ascii ∧ c.ic ≤ 100 := by
        rcases exec_vm_registers hm hc hb he hslot with rfl | hfrom
        · exact ⟨htmp, Nat.le_of_lt hic⟩
        · exact hfrom.ok hd htmp hic
      obtain ⟨hctmp, hcic⟩ := hc'
      exact .inl ⟨hd.setBank hn hctmp hcic, hm, hsvc, hr, .inr ⟨by simp [hsi], n, c, hc, hslot⟩, fun h => absurd hsi h⟩
    | store a ha hcm =>
      have hwin := Config.Ok.window h.cfg hn
      exact .inl ⟨(hd.writeM (by omega) htmp).setBank (b := b.advance) hn htmp hic, hm, hsvc, hr,
        .inr ⟨by simp [hsi], n, b.advance, hc, State.slot_setSlot_same _ _ hten⟩, fun h => absurd hsi h⟩

theorem step_vm_inv {s t : State} (h : s.Inv) (hm : s.mode = .user) (hs : step s = .next t) : t.Inv := by
  obtain ⟨-, hr⟩ := step_next hs
  obtain ⟨hservice, -⟩ := h.causes
  obtain ⟨n, b, u, hc, hb, hran, hend⟩ := step_vm_outcome hm hs
  rcases hran.preDispatch h hm hr hc hb with hpre | ⟨r, rfl, hr'⟩
  · rcases hend with ⟨hstop, -⟩ | ⟨-, ho⟩
    · exact absurd hpre.run hstop
    · exact ho.inv hpre.tick
  · rcases hend with ⟨-, rfl⟩ | ⟨hrun, -⟩
    · exact fatal_user_inv h.dataOk hm (hservice hm) hc hb hr'
    · cases hrun

/-- Settles O55: in each mode, by the ends of the step's stages. -/
theorem everyStepKeepsTheInvariant : Obligations.EveryStepKeepsTheInvariant := by
  intro s t h hs
  cases hm : s.mode with
  | supervisor => exact step_rm_inv h hm hs
  | user => exact step_vm_inv h hm hs

end Sys2Proof.Machine
end

section
/-! What a step leaves unchanged: the writers of each register, the window of a VM, the other contexts, the timer and
MODE. -/

namespace Sys2Proof.Machine

open Sys2Proof

/-! ## The frame of a VM's stages -/

/-- What every stage of a step of slot `n`'s VM leaves of `s`, where `o` is the instruction it runs: a device register
changes by its one opcode (10_state.md R45), M outside the window by GD and RD alone (20_memory.md R73), and RM.IC only
on the way to SUPERVISOR mode (60_exceptions.md R270). -/
structure VmFrame (o : Option Instr) (n : Nat) (s t : State) : Prop where
  cfg : t.cfg = s.cfg
  ptr : t.ptr = s.ptr
  ti : t.ti = s.ti
  mode : s.mode = .supervisor → t.mode = .supervisor
  rmTmp : t.rm.tmp = s.rm.tmp
  rmC : t.rm.c = s.rm.c
  rm : t.rm = s.rm ∨ t.mode = .supervisor
  slots : ∀ k, k ≠ n → t.slot k = s.slot k
  c : ∀ b', t.slot n = some b' → ∃ b, s.slot n = some b ∧ (b'.c = b.c ∨ ∃ x y z, o = some (.cp x y z))
  kbd : t.kbd = s.kbd ∨ ∃ x y z, o = some (.gd x y z)
  scr : t.scr = s.scr ∨ ∃ x y z, o = some (.pd x y z)
  ext : t.ext = s.ext ∨ ∃ x y z, o = some (.wd x y z)
  extPtr : t.extPtr = s.extPtr ∨ ∃ x y z, o = some (.sd x y z)
  mem : s.SameOutside t (s.cfg.win n) 100 ∨ (∃ x y z, o = some (.gd x y z)) ∨ ∃ x y z, o = some (.rd x y z)

theorem eq_or_trans {α : Type} {a b c : α} {p : Prop} (h1 : b = a ∨ p) (h2 : c = b ∨ p) : c = a ∨ p := by
  rcases h1 with rfl | hp
  · exact h2
  · exact .inr hp

theorem VmFrame.trans {o : Option Instr} {n : Nat} {s t u : State} (h1 : VmFrame o n s t) (h2 : VmFrame o n t u) :
    VmFrame o n s u where
  cfg := h2.cfg.trans h1.cfg
  ptr := h2.ptr.trans h1.ptr
  ti := h2.ti.trans h1.ti
  mode h := h2.mode (h1.mode h)
  rmTmp := h2.rmTmp.trans h1.rmTmp
  rmC := h2.rmC.trans h1.rmC
  rm := by
    rcases h1.rm with e | hm
    · exact e ▸ h2.rm
    · exact .inr (h2.mode hm)
  slots k hk := (h2.slots k hk).trans (h1.slots k hk)
  c b' hb' := by
    obtain ⟨b1, hb1, hc1⟩ := h2.c b' hb'
    obtain ⟨b, hb, hc⟩ := h1.c b1 hb1
    exact ⟨b, hb, eq_or_trans hc hc1⟩
  kbd := eq_or_trans h1.kbd h2.kbd
  scr := eq_or_trans h1.scr h2.scr
  ext := eq_or_trans h1.ext h2.ext
  extPtr := eq_or_trans h1.extPtr h2.extPtr
  mem := by
    rcases h1.mem with e1 | hdev
    · rcases h2.mem with e2 | hdev
      · rw [h1.cfg] at e2
        exact .inl fun k hk => (e2 k hk).trans (e1 k hk)
      · exact .inr hdev
    · exact .inr hdev

/-- A stage that writes M in the window, the bank of slot `n` and the control registers alone. -/
theorem VmFrame.window {o : Option Instr} {n : Nat} {s t : State}
    (ht : t = { s with
      mem := t.mem, pi := t.pi, si := t.si, ioi := t.ioi, mode := t.mode, busy := t.busy, slots := t.slots,
      cur := t.cur, lastSlot := t.lastSlot, svc := t.svc, run := t.run, rm := { s.rm with ic := t.rm.ic } })
    (hmode : s.mode = .supervisor → t.mode = .supervisor) (hrm : t.rm = s.rm ∨ t.mode = .supervisor)
    (hslots : ∀ k, k ≠ n → t.slot k = s.slot k)
    (hc : ∀ b', t.slot n = some b' → ∃ b, s.slot n = some b ∧ (b'.c = b.c ∨ ∃ x y z, o = some (.cp x y z)))
    (hmem : s.SameOutside t (s.cfg.win n) 100) : VmFrame o n s t where
  cfg := by rw [ht]
  ptr := by rw [ht]
  ti := by rw [ht]
  mode := hmode
  rmTmp := by rw [ht]
  rmC := by rw [ht]
  rm := hrm
  slots := hslots
  c := hc
  kbd := .inl (by rw [ht])
  scr := .inl (by rw [ht])
  ext := .inl (by rw [ht])
  extPtr := .inl (by rw [ht])
  mem := .inl hmem

/-- A stage that writes control registers alone. -/
theorem VmFrame.control {o : Option Instr} {n : Nat} {s t : State}
    (ht : t = { s with
      pi := t.pi, si := t.si, ioi := t.ioi, mode := t.mode, busy := t.busy, cur := t.cur, lastSlot := t.lastSlot,
      svc := t.svc, run := t.run }) (hmode : s.mode = .supervisor → t.mode = .supervisor) : VmFrame o n s t := by
  have hmem : t.mem = s.mem := by rw [ht]
  have hslot (k : Nat) : t.slot k = s.slot k := by rw [ht]; rfl
  exact .window (by rw [ht]) hmode (.inl (by rw [ht])) (fun k _ => hslot k)
    (fun b' hb' => ⟨b', (hslot n).symm.trans hb', .inl rfl⟩) fun k _ => by rw [hmem]

/-- The save area lies in the window (10_state.md R27, 45_system.md R228). -/
theorem saveRegs_frame {o : Option Instr} {n : Nat} {s t : State} (hk : s.cfg.Ok) (h : s.saveRegs n = .done t) :
    VmFrame o n s t := by
  obtain ⟨b, -, -, hframe, -, -, hother⟩ := State.saveRegs_done h
  obtain ⟨hlow, hhigh⟩ := Config.Ok.saveArea hk (n := n)
  have hslot (k : Nat) : t.slot k = s.slot k := by rw [hframe]; rfl
  exact .window (by rw [hframe]) (by rw [hframe]; exact id) (.inl (by rw [hframe])) (fun k _ => hslot k)
    (fun b' hb' => ⟨b', (hslot n).symm.trans hb', .inl rfl⟩) fun k hk => hother k (by omega)

theorem HandlerOutcome.frame {o : Option Instr} {n : Nat} {s t : State} {cause : Service}
    (ho : HandlerOutcome s n cause t) (hk : s.cfg.Ok) : VmFrame o n s t := by
  cases ho with
  | unsaved => exact .control rfl id
  | entered u ic hu hlt =>
    obtain ⟨-, -, -, hframe, -⟩ := State.saveRegs_done hu
    have hrm : u.rm = s.rm := by rw [hframe]
    refine (saveRegs_frame hk hu).trans (.window (by rw [← hrm]; rfl) (fun _ => rfl) (.inr rfl) (fun _ _ => rfl)
      (fun b' hb' => ⟨b', hb', .inl rfl⟩) fun _ _ => rfl)
  | badVector u hu => exact (saveRegs_frame hk hu).trans (.control rfl fun _ => rfl)

/-- A channel rule performed for the VM writes what its opcode writes (44_channel_io.md R191 to R196). -/
theorem channelOp_frame {i : Instr} {a k n : Nat} {rule : ChannelRule} (hi : channelOp i = some (a, rule)) {s t : State}
    (hd : rule k s = .done t ∨ ∃ f, rule k s = .raised f t) : VmFrame (some i) n s t := by
  obtain ⟨hframe, hmem, hkbd, hscr, hext, hptr⟩ := channelOp_done hi hd
  have hslot (k : Nat) : t.slot k = s.slot k := by rw [hframe]; rfl
  exact {
    cfg := by rw [hframe]
    ptr := by rw [hframe]
    ti := by rw [hframe]
    mode := by rw [hframe]; exact id
    rmTmp := by rw [hframe]
    rmC := by rw [hframe]
    rm := .inl (by rw [hframe])
    slots := fun k _ => hslot k
    c := fun b' hb' => ⟨b', (hslot n).symm.trans hb', .inl rfl⟩
    kbd := by simpa only [Option.some.injEq] using hkbd
    scr := by simpa only [Option.some.injEq] using hscr
    ext := by simpa only [Option.some.injEq] using hext
    extPtr := by simpa only [Option.some.injEq] using hptr
    mem := by
      simp only [Option.some.injEq]
      exact hmem.imp_left fun e _ _ => by rw [e] }

theorem trapDone_frame {o : Option Instr} {n : Nat} (s : State) : VmFrame o n s (s.trapDone n) := by
  refine .window rfl id (.inl rfl) (fun k hkn => State.slot_setSlot_other s _ hkn) (fun b' hb' => ?_) fun _ _ => rfl
  have hb' : (s.setSlot n ((s.slot n).map Bank.advance)).slot n = some b' := hb'
  rw [State.slot_setSlot] at hb'
  split at hb'
  · obtain ⟨b, hb, rfl⟩ := Option.map_eq_some_iff.mp hb'
    exact ⟨b, hb, .inl rfl⟩
  · exact ⟨b', hb', .inl rfl⟩

theorem TrapOutcome.frame {i : Instr} {a n : Nat} {rule : ChannelRule} (hi : channelOp i = some (a, rule)) {s t : State}
    (ho : TrapOutcome rule s n t) (hk : s.cfg.Ok) : VmFrame (some i) n s t := by
  cases ho with
  | unsaved => exact .control rfl id
  | fatal u r hu hr => exact (saveRegs_frame hk hu).trans (.control rfl id)
  | done u w k hu hw => exact ((saveRegs_frame hk hu).trans (channelOp_frame hi (.inl hw))).trans (trapDone_frame w)
  | fault u w _ f hu hw ht =>
    have hsave : VmFrame (some i) n s u := saveRegs_frame hk hu
    have hreplay : VmFrame (some i) n u w := by
      rcases hw with rfl | ⟨k, hk⟩
      · exact .control rfl id
      · exact channelOp_frame hi (.inr ⟨f, hk⟩)
    have hw : VmFrame (some i) n s w := hsave.trans hreplay
    have hkw : w.cfg.Ok := by rw [hw.cfg]; exact hk
    exact (hw.trans (.control (t := { w with si := none, pi := some f }) rfl id)).trans (ht.frame hkw)

/-- The dispatcher's stage, where the instruction at IC is the one that trapped. -/
theorem DispatchOutcome.frame {o : Option Instr} {n : Nat} {s t : State} (ho : DispatchOutcome s t) (hk : s.cfg.Ok)
    (hc : ∀ k, s.cur = some k → k = n)
    (hi : ∀ b i, s.si ≠ none → s.si ≠ some .halt → s.slot n = some b →
      decode s.cfg.haltPad (s.readM (s.cfg.win n + b.ic)) = .ok i → o = some i) : VmFrame o n s t := by
  cases ho with
  | halt h => exact .control rfl fun _ => rfl
  | trap k b i a rule _ hs hh hcur hb hd hop ht =>
    obtain rfl := hc k hcur
    rw [hi b i hs hh hb hd]
    exact ht.frame hop hk
  | handler k cause _ hs hcur hne hpi hio ht =>
    obtain rfl := hc k hcur
    exact ht.frame hk
  | nothing hs hp => exact .control rfl id

/-- The instruction's own stage (40_cycle.md R125). -/
theorem VmRan.frame {s u : State} {n : Nat} {b : Bank} (hran : VmRan s n b u) (hb : s.slot n = some b) :
    VmFrame s.nextInstr n s u := by
  have hten := State.slot_eq_some_lt hb
  cases hran with
  | badFetch f => exact .control rfl id
  | instr i _ hi hic hd he ho =>
    rw [hi]
    cases ho with
    | fault f => exact .control rfl id
    | fatal r h => exact .control rfl id
    | trap op a rule h hne => exact .control rfl id
    | halt h =>
      refine .window rfl id (.inl rfl) (fun k hkn => State.slot_setSlot_other s _ hkn) (fun b' hb' => ?_) fun _ _ => rfl
      have hnone : (s.setSlot n none).slot n = none := State.slot_setSlot_same s _ hten
      exact absurd (hnone.symm.trans hb') nofun
    | bank c hcp =>
      refine .window rfl id (.inl rfl) (fun k hkn => State.slot_setSlot_other s _ hkn) (fun b' hb' => ?_) fun _ _ => rfl
      rw [State.slot_setSlot_same s _ hten] at hb'
      cases hb'
      exact ⟨b, hb, hcp.imp_right fun ⟨x, y, z, e⟩ => ⟨x, y, z, by rw [e]⟩⟩
    | store a ha hcm =>
      refine .window rfl id (.inl rfl) (fun k hkn => State.slot_setSlot_other _ _ hkn) (fun b' hb' => ?_) fun k hk => ?_
      · rw [State.slot_setSlot_same _ _ hten] at hb'
        cases hb'
        exact ⟨b, hb, .inl rfl⟩
      · exact s.writeM_byte_other b.tmp (by omega)

/-- A trap is raised by the instruction at IC, and M and the bank are then as when it was fetched. -/
theorem VmRan.trapped {s u : State} {n : Nat} {b : Bank} (hran : VmRan s n b u) (hs : s.si = none)
    (hb : s.slot n = some b) (hu : u.si ≠ none) (hh : u.si ≠ some .halt) :
    ∃ i a rule, s.nextInstr = some i ∧ channelOp i = some (a, rule) ∧ u.slot n = some b ∧ u.cur = s.cur ∧
      decode u.cfg.haltPad (u.readM (u.cfg.win n + b.ic)) = .ok i := by
  cases hran with
  | badFetch f => exact absurd hs hu
  | instr i _ hi hic hd he ho =>
    cases ho with
    | trap op a rule h hne => exact ⟨i, a, rule, hi, h, hb, rfl, hd⟩
    | halt h => exact absurd rfl hh
    | fault f => exact absurd hs hu
    | fatal r h => exact absurd hs hu
    | bank c h => exact absurd hs hu
    | store a h hcm => exact absurd hs hu

/-- After the instruction the current VM is the one before, or its HALT has left none. -/
theorem VmRan.cur {s u : State} {n : Nat} {b : Bank} (hran : VmRan s n b u) (hc : s.cur = some n) :
    u.cur = some n ∨ u.si = some .halt ∧ s.nextInstr = some .halt ∧ u.cur = none := by
  cases hran with
  | badFetch f => exact .inl hc
  | instr i _ hi hic hd he ho =>
    cases ho with
    | halt h => exact .inr ⟨rfl, h ▸ hi, rfl⟩
    | fault f => exact .inl hc
    | fatal r h => exact .inl hc
    | trap op a rule h hne => exact .inl hc
    | bank c h => exact .inl hc
    | store a h hcm => exact .inl hc

/-- The tick changes TI alone. -/
theorem VmFrame.tick {o : Option Instr} {n : Nat} {s t : State} (h : VmFrame o n s t) : VmFrame o n s.tick t.tick :=
  ⟨h.cfg, h.ptr, congrArg (· - 1) h.ti, h.mode, h.rmTmp, h.rmC, h.rm, h.slots, h.c, h.kbd, h.scr, h.ext, h.extPtr,
    h.mem⟩

/-- The frame of a whole VM step from a state of the invariant: from the state itself if the instruction stopped the
core, else from the state after the tick. -/
theorem step_vm_frame {s t : State} {n : Nat} (h : s.Inv) (hm : s.mode = .user) (hc : s.cur = some n)
    (hs : step s = .next t) : ∃ s0, (s0 = s ∨ s0 = s.tick) ∧ VmFrame s.nextInstr n s0 t := by
  obtain ⟨hk, hr⟩ := step_next hs
  obtain ⟨-, hcauses, -⟩ := h.causes
  obtain ⟨hsi, -⟩ := hcauses hr
  obtain ⟨n', b, u, hc', hb, hran, hend⟩ := step_vm_outcome hm hs
  cases hc.symm.trans hc'
  have hframe := hran.frame hb
  rcases hend with ⟨-, rfl⟩ | ⟨-, ho⟩
  · exact ⟨s, .inl rfl, hframe⟩
  · refine ⟨s.tick, .inr rfl, hframe.tick.trans (ho.frame (by rw [hframe.tick.cfg]; exact hk) (fun k hk => ?_) ?_)⟩
    · rcases hran.cur hc with e | ⟨-, -, e⟩
      · exact Option.some.inj (hk.symm.trans e)
      · exact absurd (hk.symm.trans e) nofun
    · intro b' i hui huh hb' hd
      obtain ⟨j, -, -, hj, -, hbu, -, hdj⟩ := hran.trapped hsi hb hui huh
      cases hbu.symm.trans hb'
      cases hdj.symm.trans hd
      exact hj

/-! ## The frame of an RM step -/

/-- What an RM step leaves of `s`, where `o` is the instruction it runs (10_state.md R45). -/
structure RmFrame (o : Option Instr) (s t : State) : Prop where
  cfg : t.cfg = s.cfg
  mode : t.mode = s.mode ∨ ∃ n, o = some (.stvm n)
  ptr : t.ptr = s.ptr ∨ ∃ n, o = some (.stvm n)
  ti : t.ti = s.ti ∨ (∃ n, o = some (.stvm n)) ∨ ∃ x y z, o = some (.pt x y z)
  rmC : t.rm.c = s.rm.c ∨ ∃ x y z, o = some (.cp x y z)
  kbd : t.kbd = s.kbd ∨ ∃ x y z, o = some (.gd x y z)
  scr : t.scr = s.scr ∨ ∃ x y z, o = some (.pd x y z)
  ext : t.ext = s.ext ∨ ∃ x y z, o = some (.wd x y z)
  extPtr : t.extPtr = s.extPtr ∨ ∃ x y z, o = some (.sd x y z)

/-- An instruction that writes none of these registers. -/
theorem RmFrame.quiet {o : Option Instr} {s t : State}
    (ht : t = { s with
      mem := t.mem, pi := t.pi, ioi := t.ioi, busy := t.busy, slots := t.slots, run := t.run,
      rm := { s.rm with tmp := t.rm.tmp, ic := t.rm.ic } }) : RmFrame o s t := by
  rw [ht]
  exact ⟨rfl, .inl rfl, .inl rfl, .inl rfl, .inl rfl, .inl rfl, .inl rfl, .inl rfl, .inl rfl⟩

/-- A channel opcode that the RM runs, with the end that follows its rule. -/
theorem RmFrame.channel {i : Instr} {a k : Nat} {rule : ChannelRule} (hi : channelOp i = some (a, rule)) {s u t : State}
    (hd : rule k s = .done u ∨ ∃ f, rule k s = .raised f u)
    (ht : t = { u with pi := t.pi, run := t.run, rm := { u.rm with ic := t.rm.ic } }) : RmFrame (some i) s t := by
  have h := channelOp_frame (n := 0) hi hd
  obtain ⟨hframe, -⟩ := channelOp_done hi hd
  rw [ht]
  exact ⟨h.cfg, .inl (by rw [hframe]), .inl h.ptr, .inl h.ti, .inl h.rmC, h.kbd, h.scr, h.ext, h.extPtr⟩

theorem RmOutcome.frame {i : Instr} {s t : State} (ho : RmOutcome i s t) : RmFrame (some i) s t := by
  cases ho with
  | fault f => exact .quiet rfl
  | fatal r h => exact .quiet rfl
  | halt => exact .quiet rfl
  | bank c h hc =>
    exact ⟨rfl, .inl rfl, .inl rfl, .inl rfl, h.imp_right fun ⟨x, y, z, e⟩ => ⟨x, y, z, by rw [e]⟩, .inl rfl, .inl rfl,
      .inl rfl, .inl rfl⟩
  | store a w h hw => exact .quiet rfl
  | timer w hn hi =>
    obtain ⟨x, y, z, rfl⟩ := hi
    exact ⟨rfl, .inl rfl, .inl rfl, .inr (.inr ⟨x, y, z, rfl⟩), .inl rfl, .inl rfl, .inl rfl, .inl rfl, .inl rfl⟩
  | channel a k rule u hi h => exact .channel hi (.inl h) rfl
  | channelFault a k rule f u hi h => exact .channel hi (.inr ⟨f, h⟩) rfl
  | start n u hi hn h =>
    subst hi
    rw [State.enter_eq, prepared_frame h]
    exact ⟨rfl, .inr ⟨n, rfl⟩, .inr ⟨n, rfl⟩, .inr (.inl ⟨n, rfl⟩), .inl rfl, .inl rfl, .inl rfl, .inl rfl, .inl rfl⟩
  | save n u hn h =>
    obtain ⟨-, -, -, hframe, -⟩ := State.saveRegs_done h
    rw [hframe]
    exact .quiet rfl
  | load n b hn h => exact .quiet rfl

theorem step_rm_frame {s t : State} (hm : s.mode = .supervisor) (hs : step s = .next t) : RmFrame s.nextInstr s t := by
  rcases step_rm_outcome hm hs with ⟨f, rfl⟩ | ⟨i, hi, -, ho⟩
  · exact .quiet rfl
  · rw [hi]
    exact ho.frame

/-! ## Whole-machine rules -/

/-- Settles O49: the instruction and the dispatcher leave TI alone, the tick is between them. -/
theorem timerCountsVmSteps : Obligations.TimerCountsVmSteps := by
  refine ⟨fun s t hm hs hrun => ?_, fun s t hm hs hne => (step_rm_frame hm hs).ti.resolve_left hne⟩
  obtain ⟨hk, hr⟩ := step_next hs
  obtain ⟨n, b, u, hc, hb, hran, hend⟩ := step_vm_outcome hm hs
  have hframe := hran.frame hb
  have hku : u.tick.cfg.Ok := by rw [hframe.tick.cfg]; exact hk
  rcases hend with ⟨hstop, rfl⟩ | ⟨-, ho⟩
  · exact absurd hrun hstop
  · have hti : t.ti = u.tick.ti := by
      cases ho with
      | halt h => rfl
      | trap k b i a rule _ hs hh hc hb hd hi ht => exact (ht.frame hi hku).ti
      | handler k cause _ hs hc hne hpi hio ht => exact (ht.frame (o := none) hku).ti
      | nothing hs hp => rfl
    exact hti.trans hframe.tick.ti

/-- A handler entry that leaves USER mode has put its cause in service. -/
theorem HandlerOutcome.left {s t : State} {n : Nat} {cause : Service} (ho : HandlerOutcome s n cause t)
    (hm : s.mode = .user) (ht : t.mode = .supervisor) : t.svc = cause ∧ t.lastSlot = some n ∧ t.cur = none := by
  cases ho with
  | unsaved => exact absurd (hm.symm.trans ht) nofun
  | entered u ic hu hlt => exact ⟨rfl, rfl, rfl⟩
  | badVector u hu => exact ⟨rfl, rfl, rfl⟩

theorem TrapOutcome.left {i : Instr} {a n : Nat} {rule : ChannelRule} (hi : channelOp i = some (a, rule)) {s t : State}
    (ho : TrapOutcome rule s n t) (hm : s.mode = .user) (ht : t.mode = .supervisor) :
    t.svc = .pi ∧ t.lastSlot = some n ∧ t.cur = none := by
  have saved {u : State} (hu : s.saveRegs n = .done u) : u.mode = .user := by
    obtain ⟨-, -, -, hframe, -⟩ := State.saveRegs_done hu
    rw [hframe]; exact hm
  cases ho with
  | unsaved => exact absurd (hm.symm.trans ht) nofun
  | fatal u r hu hr => exact absurd ((saved hu).symm.trans ht) nofun
  | done u w k hu hw =>
    obtain ⟨hframe, -⟩ := channelOp_done hi (.inl hw)
    have hmu := saved hu
    have hmw : w.mode = .user := by rw [hframe]; exact hmu
    exact absurd (hmw.symm.trans ht) nofun
  | fault u w _ f hu hw hh =>
    have hmu := saved hu
    have hmw : w.mode = .user := by
      rcases hw with rfl | ⟨k, hk⟩
      · exact hmu
      · obtain ⟨-, hframe, -⟩ := channelOp_raised hi hk
        rw [hframe]; exact hmu
    exact hh.left hmw ht

/-- Settles O50: STVM is the RM's way to USER mode; the dispatcher's two ways back are a HALT and a handler. -/
theorem modeChangesOnlyAsListed : Obligations.ModeChangesOnlyAsListed := by
  intro s t h hs
  refine ⟨fun hm ht => (step_rm_frame hm hs).mode.resolve_left (by rw [hm, ht]; nofun), fun hm ht => ?_⟩
  obtain ⟨-, hr⟩ := step_next hs
  obtain ⟨n, b, u, hc, hb, hran, hend⟩ := step_vm_outcome hm hs
  rcases hran.preDispatch h hm hr hc hb with hpre | ⟨r, rfl, -⟩
  swap
  · rcases hend with ⟨-, rfl⟩ | ⟨hrun, -⟩
    · exact absurd (hm.symm.trans ht) nofun
    · cases hrun
  have hmu := hpre.mode
  rcases hend with ⟨hstop, -⟩ | ⟨-, ho⟩
  · exact absurd hpre.run hstop
  rcases hran.cur hc with hcu | ⟨-, hhalt, -⟩
  swap
  · exact .inl hhalt
  cases ho with
  | halt hsi =>
    rcases hpre.current with ⟨-, hnone⟩ | ⟨hh, -⟩
    · exact absurd (hnone.symm.trans hcu) nofun
    · exact absurd hsi hh
  | trap k b i a rule _ hsi hh hck hb hd hi hto =>
    cases hcu.symm.trans hck
    obtain ⟨hsvc, hlast, hcur⟩ := hto.left hi hmu ht
    exact .inr ⟨by rw [hsvc]; nofun, hlast.trans hc.symm, hcur⟩
  | handler k cause _ hsi hck hne hpi hio hho =>
    cases hcu.symm.trans hck
    obtain ⟨hsvc, hlast, hcur⟩ := hho.left hmu ht
    exact .inr ⟨by rw [hsvc]; exact hne, hlast.trans hc.symm, hcur⟩
  | nothing hsi hp => exact absurd (hmu.symm.trans ht) nofun

/-- Settles O51: the frame of the step, whose exceptions are the two opcodes excluded. -/
theorem vmWritesStayInItsWindow : Obligations.VmWritesStayInItsWindow := by
  intro s t n h hm hc hs hgd hrd
  obtain ⟨s0, hs0, hframe⟩ := step_vm_frame h hm hc hs
  rcases hframe.mem with hmem | ⟨x, y, z, e⟩ | ⟨x, y, z, e⟩
  · rcases hs0 with rfl | rfl <;> exact hmem
  · exact absurd e (hgd x y z)
  · exact absurd e (hrd x y z)

/-- Settles O52: the step's frame from `s` or from its tick, which agree on these registers. -/
theorem vmStepLeavesOtherContextsAlone : Obligations.VmStepLeavesOtherContextsAlone := by
  intro s t n h hm hc hs
  obtain ⟨s0, hs0, hframe⟩ := step_vm_frame h hm hc hs
  have hrm (ht : t.mode = .user) : t.rm = s0.rm := hframe.rm.resolve_right (by rw [ht]; nofun)
  rcases hs0 with rfl | rfl <;> exact ⟨hframe.rmTmp, hframe.rmC, hrm, hframe.slots⟩

/-- Settles O53: by the frame of the step, in each mode. -/
theorem onlyCpWritesC : Obligations.OnlyCpWritesC := by
  intro s t h hs
  refine ⟨fun hm hne => (step_rm_frame hm hs).rmC.resolve_left hne, fun n b b' hm hc hb hb' hne => ?_⟩
  obtain ⟨s0, hs0, hframe⟩ := step_vm_frame h hm hc hs
  obtain ⟨b0, hb0, hcp⟩ := hframe.c b' hb'
  have hb0 : s.slot n = some b0 := by rcases hs0 with rfl | rfl <;> exact hb0
  cases hb.symm.trans hb0
  exact hcp.resolve_left hne

/-- Settles O54: by the frame of the step, in each mode; a VM's step leaves PTR alone. -/
theorem deviceRegistersHaveOneWriter : Obligations.DeviceRegistersHaveOneWriter := by
  intro s t h hs
  cases hm : s.mode with
  | supervisor =>
    have hframe := step_rm_frame hm hs
    exact ⟨hframe.kbd.resolve_left, hframe.scr.resolve_left, hframe.ext.resolve_left, hframe.extPtr.resolve_left,
      hframe.ptr.resolve_left, hframe.cfg⟩
  | user =>
    obtain ⟨n, b, -, hc, -⟩ := step_vm_outcome hm hs
    obtain ⟨s0, hs0, hframe⟩ := step_vm_frame h hm hc hs
    rcases hs0 with rfl | rfl <;>
      exact ⟨hframe.kbd.resolve_left, hframe.scr.resolve_left, hframe.ext.resolve_left, hframe.extPtr.resolve_left,
        fun hne => absurd hframe.ptr hne, hframe.cfg⟩

/-! ## Progress -/

/-- The dispatch of a running VM step has a next state, or stalls on a set busy bit (40_cycle.md R133). -/
theorem dispatch_answers {s : State} (h : s.PreDispatch)
    (htrap : s.si ≠ none → s.si ≠ some .halt → ∀ n b, s.cur = some n → s.slot n = some b →
      ∃ i a rule, decode s.cfg.haltPad (s.readM (s.cfg.win n + b.ic)) = .ok i ∧ channelOp i = some (a, rule)) :
    (∃ t, s.dispatch.inVm = .next t) ∨ ∃ ch, s.dispatch.inVm = .fault (.stalled ch) ∧ bitOf s.busy ch = true := by
  rcases h.current with ⟨hsi, -⟩ | ⟨hh, n, b, hc, hb⟩
  · exact .inl ⟨_, by rw [dispatch_halt hsi]; rfl⟩
  have enters (v : Nat) (cause : Service) : ∃ t, (s.enterHandler v cause).inVm = .next t := by
    obtain ⟨t, ht, -⟩ := enterHandler_outcome hc hb v cause
    exact ⟨t, ht⟩
  rcases s.dispatch_cases with ⟨-, e⟩ | ⟨hs, -, e⟩ | ⟨-, f, -, e⟩ | ⟨-, -, -, e⟩ | ⟨-, -, -, ch, -, e⟩ |
    ⟨-, -, -, -, e⟩ <;> rw [e]
  · exact .inl ⟨_, rfl⟩
  · obtain ⟨i, a, rule, hd, hi⟩ := htrap hs hh n b hc hb
    rcases serviceTrap_outcome hc hb hd hi with hstall | ⟨t, ht, -⟩
    · exact .inr hstall
    · exact .inl ⟨t, ht⟩
  · exact .inl (enters _ _)
  · exact .inl (enters _ _)
  · exact .inl (enters _ _)
  · exact .inl ⟨s, rfl⟩

/-- In USER mode the VM is there to step, and a trap finds the instruction that raised it. -/
theorem step_vm_answers {s : State} (h : s.Inv) (hr : s.run = .running) (hm : s.mode = .user) :
    s.StopsOnlyAsSpecified := by
  obtain ⟨huser, hslot, -⟩ := h.mode
  obtain ⟨n, hc⟩ := Option.ne_none_iff_exists'.mp (huser.mp hm)
  obtain ⟨b, hb⟩ := Option.ne_none_iff_exists'.mp (hslot n hc)
  obtain ⟨-, hcauses, -⟩ := h.causes
  obtain ⟨hsi, -⟩ := hcauses hr
  obtain ⟨u, hran, e⟩ := userStep_ran hm hc hb
  have hbusy : u.busy = s.busy := by
    cases hran with
    | badFetch f => rfl
    | instr i _ hi hic hd he ho => cases ho <;> rfl
  unfold State.StopsOnlyAsSpecified
  rw [step_vm h.cfg hr hm, e]
  rcases hran.preDispatch h hm hr hc hb with hpre | ⟨r, rfl, -⟩
  · rw [State.endUserStep_running hpre.run]
    have htrap (hui : u.si ≠ none) (hh : u.si ≠ some .halt) (n' : Nat) (b' : Bank) (hcu : u.cur = some n')
        (hbu : u.slot n' = some b') : ∃ i a rule, decode u.cfg.haltPad (u.readM (u.cfg.win n' + b'.ic)) = .ok i ∧
          channelOp i = some (a, rule) := by
      obtain ⟨i, a, rule, -, hop, hbu', hcu', hd⟩ := hran.trapped hsi hb hui hh
      cases (hcu'.trans hc).symm.trans hcu
      cases hbu'.symm.trans hbu
      exact ⟨i, a, rule, hd, hop⟩
    rcases dispatch_answers hpre.tick htrap with hnext | ⟨ch, hstall, hb⟩
    · exact .inl hnext
    · exact .inr (.inl ⟨ch, hstall, hbusy ▸ hb⟩)
  · exact .inl ⟨_, endUserStep_stopped nofun⟩

theorem step_rm_answers {s : State} (h : s.Inv) (hr : s.run = .running) (hm : s.mode = .supervisor) :
    s.StopsOnlyAsSpecified := by
  unfold State.StopsOnlyAsSpecified
  rw [step_rm h.cfg hr hm]
  cases hf : s.fetch .rm s.rm.ic with
  | fault f => exact .inl ⟨_, supervisorStep_fault hf⟩
  | command i =>
    rw [supervisorStep_command hf]
    rcases exec_rm hm i with hstall | ⟨t, ht, -⟩
    · exact .inr (.inl hstall)
    · exact .inl ⟨t, ht⟩

/-- Settles O57: a stopped core takes no step, and a running one answers in each mode. -/
theorem invariantStatesStopOnlyAsSpecified : Obligations.InvariantStatesStopOnlyAsSpecified := by
  intro s h
  by_cases hr : s.run = .running
  · cases hm : s.mode with
    | supervisor => exact step_rm_answers h hr hm
    | user => exact step_vm_answers h hr hm
  · exact .inr (.inr ⟨step_not_running h.cfg hr, hr⟩)

end Sys2Proof.Machine
end
